-- ==== Sys2Proof/Word.lean ====
section
/-! DEFINITION. The word types. A byte is 8 bits (20_memory.md R61); a 16-bit field occupies two bytes (R62). -/

namespace Sys2Proof

/-- A byte (R61). -/
abbrev Byte := BitVec 8

/-- A 16-bit word: the unit the checksum sums, and the width of RES and of the long length registers. -/
abbrev Word16 := BitVec 16

end Sys2Proof
end

