-- ==== Sys2Proof/Syntax.lean ====
section
/-! DEFINITION. The instructions: the seven commands of 30_encoding.md R92, one constructor per row of the opcode table.
Every operand is implicit (R93), so no constructor has a field. -/

namespace Sys2Proof

/-- A command (R92). -/
inductive Instr where
  /-- 0x01, 40_construct.md R110. -/
  | construct
  /-- 0x02, 41_checksum.md R133. -/
  | checksum
  /-- 0x03, 42_encode.md R141. -/
  | encode
  /-- 0x04, 43_decode.md R151. -/
  | decode
  /-- 0x05, 44_verify.md R170. -/
  | verify
  /-- 0x06, 45_binstr.md R182. -/
  | binstr
  /-- 0x07, 44_verify.md R172. -/
  | recompute
  deriving DecidableEq, Repr

end Sys2Proof
end

