-- ==== Sys2Proof/Decode.lean ====
section
/-! DEFINITION. The command word (30_encoding.md R90 to R94): the decoder, total on any bytes, and the encoder. Format `C`
has two fields: bits 7:4 `zero`, which must be 0, and bits 3:0 `op`. -/

namespace Sys2Proof

/-- Why bytes are no command. -/
inductive DecodeError where
  /-- The word encodes no command: the codec raises `IllegalCommand` with it (R94). -/
  | illegalCommand (c : Byte)
  /-- There is no byte to decode. -/
  | noWord
  deriving DecidableEq, Repr

/-- The `zero` field, bits 7:4 (R90). -/
def zeroField (c : Byte) : BitVec 4 := c.extractLsb' 4 4

/-- The `op` field, bits 3:0 (R90). -/
def opField (c : Byte) : BitVec 4 := c.extractLsb' 0 4

/-- The opcode map (R92). -/
def instrOfOp (op : BitVec 4) : Option Instr :=
  match op.toNat with
  | 1 => some .construct
  | 2 => some .checksum
  | 3 => some .encode
  | 4 => some .decode
  | 5 => some .verify
  | 6 => some .binstr
  | 7 => some .recompute
  | _ => none

/-- The command a word encodes (R91): every one of the 256 words selects one of the seven commands or is illegal. -/
def decode (c : Byte) : Except DecodeError Instr :=
  if zeroField c ≠ 0#4 then .error (.illegalCommand c)
  else
    match instrOfOp (opField c) with
    | some i => .ok i
    | none => .error (.illegalCommand c)

/-- Decoding a byte sequence: the command its first byte encodes, and the bytes after it (a command is one byte, R90, R101). -/
def decodeBytes : List Byte → Except DecodeError (Instr × List Byte)
  | [] => .error .noWord
  | c :: rest => (decode c).map (fun i => (i, rest))

/-- The `op` code of a command (R92). -/
def opOf : Instr → BitVec 4
  | .construct => 1
  | .checksum => 2
  | .encode => 3
  | .decode => 4
  | .verify => 5
  | .binstr => 6
  | .recompute => 7

/-- The command word of a command: `zero` and `op` (R90). -/
def encode (i : Instr) : Byte := 0#4 ++ opOf i

/-- The bytes of an opcode-table word of `nbits` bits: byte 0 is bits 7..0; bits above `nbits` are 0 (log 13). -/
def tableBytes (nbits w : Nat) : List Byte :=
  (List.range (max 1 ((nbits + 7) / 8))).map (fun k => BitVec.ofNat 8 (w % 2 ^ nbits / 256 ^ k))

/-- The command the decoder reads from an opcode-table word. -/
def decodeTableWord (nbits w : Nat) : Option Instr :=
  match decodeBytes (tableBytes nbits w) with
  | .ok (i, _) => some i
  | .error _ => none

end Sys2Proof
end

