-- ==== Sys2Proof/Config.lean ====
section
/-! DEFINITION. The implementation parameters of 00_scope.md R5. All but FW are fixed by the spec; FW is the one
parameter the spec leaves open ("any value >= 17", default 32), and the meaning of a host action takes it as an argument
(log 5). -/

namespace Sys2Proof.Config

/-- `FW`: the width in bits of each numeric operand register. DESIGN CHOICE among the widths R5 allows: its default (log 5). -/
def fw : Nat := 32

/-- The least width R5 allows for FW, so that an out-of-range value of every 16-bit field can be presented. -/
def fwMin : Nat := 17

/-- `IN_MAX`. -/
def inMax : Nat := 65535

/-- `OUT_MAX`. -/
def outMax : Nat := 65535

/-- `PAY_MAX`. -/
def payMax : Nat := 65535

/-- `ADDR_TXT_MAX`. -/
def addrTxtMax : Nat := 16

/-- `MIN_HLW`. -/
def minHlw : Nat := 5

/-- `MAX_HLW`. -/
def maxHlw : Nat := 15

/-- `MAX_TOTAL_LENGTH`. -/
def maxTotalLength : Nat := 65535

/-- `MAX_OPTIONS`, derived: `4*MAX_HLW - 20`. -/
def maxOptions : Nat := 40

/-- `MAX_PAYLOAD`, derived: `65535 - 20`. -/
def maxPayload : Nat := 65515

end Sys2Proof.Config
end

