-- ==== Sys2Proof/Machine/HostAction.lean ====
section
/-! DEFINITION. The names the host uses: the registers of 10_state.md R37, the byte-buffer spaces of R38, and the host's
actions of 20_memory.md R66 together with the reset event of 70_reset_and_hazards.md R220. The numbers, widths and
capacities stand in Machine/Operands.lean. -/

namespace Sys2Proof.Machine

/-- The registers of the register map (R37), in number order. -/
inductive Reg where
  | cmd | status | errInfo | res | inLen | outLen | bsPos | bsChar
  | opVersion | opHlw | opDscp | opEcn | opTotalLength | opIdentification | opDf | opMf
  | opFragmentOffset | opTtl | opProtocol | opHeaderChecksum | srcTxtLen | dstTxtLen | payLen
  | hVersion | hHlw | hDscp | hEcn | hTotalLength | hIdentification | hDf | hMf
  | hFragmentOffset | hTtl | hProtocol | hHeaderChecksum | hSrc | hDst | hPayLen | hRsv | hOptLen
  deriving DecidableEq, Repr

/-- The byte-buffer spaces (R38), in number order: IN, OUT, PAY, SRC_TXT, DST_TXT are storage, HOPT and HPAY are views of
the record. -/
inductive Space where
  | input | out | pay | srcTxt | dstTxt | hOpt | hPay
  deriving DecidableEq, Repr

/-- What the outside world does, one action at a time. The arguments are raw numbers, so that every host protocol
violation of 60_exceptions.md R206 can be presented. -/
inductive HostAction where
  /-- `HostWrite(r, v)` (R66). -/
  | write (r v : Nat)
  /-- `HostRead(r)` (R66). -/
  | read (r : Nat)
  /-- `BufWrite(s, i, b)` (R66). -/
  | bufWrite (s i b : Nat)
  /-- `BufRead(s, i)` (R66). -/
  | bufRead (s i : Nat)
  /-- The reset event (R220). -/
  | reset
  deriving DecidableEq, Repr

end Sys2Proof.Machine
end

