-- ==== Sys2Proof/Machine/Operands.lean ====
section
/-! DEFINITION. Operand forms: the register map (10_state.md R37), the space map (R38), and the byte order of the wire
(20_memory.md R62, 00_scope.md R7). -/

namespace Sys2Proof.Machine

/-- Who may access a register (the column "host access" of R37). -/
inductive Access where
  /-- W: written by the host; a read returns 0. -/
  | writeOnly
  /-- R. -/
  | readOnly
  /-- RW. -/
  | readWrite
  /-- R, while STATUS.HV = 1 only: the H_* ports. -/
  | readRecord
  deriving DecidableEq, Repr

/-- Register numbers (R37). -/
def Reg.number : Reg → Nat
  | .cmd => 0x00 | .status => 0x01 | .errInfo => 0x02 | .res => 0x03
  | .inLen => 0x04 | .outLen => 0x05 | .bsPos => 0x06 | .bsChar => 0x07
  | .opVersion => 0x10 | .opHlw => 0x11 | .opDscp => 0x12 | .opEcn => 0x13
  | .opTotalLength => 0x14 | .opIdentification => 0x15 | .opDf => 0x16 | .opMf => 0x17
  | .opFragmentOffset => 0x18 | .opTtl => 0x19 | .opProtocol => 0x1A | .opHeaderChecksum => 0x1B
  | .srcTxtLen => 0x1C | .dstTxtLen => 0x1D | .payLen => 0x1E
  | .hVersion => 0x30 | .hHlw => 0x31 | .hDscp => 0x32 | .hEcn => 0x33
  | .hTotalLength => 0x34 | .hIdentification => 0x35 | .hDf => 0x36 | .hMf => 0x37
  | .hFragmentOffset => 0x38 | .hTtl => 0x39 | .hProtocol => 0x3A | .hHeaderChecksum => 0x3B
  | .hSrc => 0x3C | .hDst => 0x3D | .hPayLen => 0x3E | .hRsv => 0x3F | .hOptLen => 0x40

/-- Every register, in number order. -/
def Reg.all : List Reg :=
  [.cmd, .status, .errInfo, .res, .inLen, .outLen, .bsPos, .bsChar] ++
  [.opVersion, .opHlw, .opDscp, .opEcn, .opTotalLength, .opIdentification, .opDf, .opMf] ++
  [.opFragmentOffset, .opTtl, .opProtocol, .opHeaderChecksum, .srcTxtLen, .dstTxtLen, .payLen] ++
  [.hVersion, .hHlw, .hDscp, .hEcn, .hTotalLength, .hIdentification, .hDf, .hMf] ++
  [.hFragmentOffset, .hTtl, .hProtocol, .hHeaderChecksum, .hSrc, .hDst, .hPayLen, .hRsv, .hOptLen]

/-- The register with a number; numbers not listed in R37 are unassigned. -/
def Reg.ofNumber (n : Nat) : Option Reg := Reg.all.find? (fun r => r.number == n)

/-- Register widths in bits (R37); `fw` is the parameter FW of R5. -/
def Reg.width (fw : Nat) : Reg → Nat
  | .cmd | .status | .errInfo | .bsChar => 8
  | .res | .inLen | .outLen | .payLen => 16
  | .bsPos => 19
  | .opVersion | .opHlw | .opDscp | .opEcn | .opTotalLength | .opIdentification => fw
  | .opFragmentOffset | .opTtl | .opProtocol | .opHeaderChecksum => fw
  | .opDf | .opMf => 1
  | .srcTxtLen | .dstTxtLen => 5
  | .hVersion | .hHlw => 4
  | .hDscp => 6
  | .hEcn => 2
  | .hTotalLength | .hIdentification | .hHeaderChecksum | .hPayLen => 16
  | .hDf | .hMf | .hRsv => 1
  | .hFragmentOffset => 13
  | .hTtl | .hProtocol => 8
  | .hSrc | .hDst => 32
  | .hOptLen => 6

/-- Host access to each register (R37). -/
def Reg.access : Reg → Access
  | .cmd => .writeOnly
  | .status | .errInfo | .res | .outLen | .bsPos | .bsChar => .readOnly
  | .inLen | .srcTxtLen | .dstTxtLen | .payLen => .readWrite
  | .opVersion | .opHlw | .opDscp | .opEcn | .opTotalLength | .opIdentification => .readWrite
  | .opDf | .opMf | .opFragmentOffset | .opTtl | .opProtocol | .opHeaderChecksum => .readWrite
  | .hVersion | .hHlw | .hDscp | .hEcn | .hTotalLength | .hIdentification | .hDf | .hMf => .readRecord
  | .hFragmentOffset | .hTtl | .hProtocol | .hHeaderChecksum | .hSrc | .hDst => .readRecord
  | .hPayLen | .hRsv | .hOptLen => .readRecord

/-- `HostWrite` is allowed: access W or RW (20_memory.md R66). -/
def Reg.writable (r : Reg) : Bool := r.access == .writeOnly || r.access == .readWrite

/-- Space numbers (R38). -/
def Space.number : Space → Nat
  | .input => 0 | .out => 1 | .pay => 2 | .srcTxt => 3 | .dstTxt => 4 | .hOpt => 5 | .hPay => 6

/-- The space with a number (R38). -/
def Space.ofNumber (n : Nat) : Option Space :=
  [Space.input, .out, .pay, .srcTxt, .dstTxt, .hOpt, .hPay].find? (fun s => s.number == n)

/-- Capacities in bytes (R38). -/
def Space.capacity : Space → Nat
  | .input => Config.inMax
  | .out => Config.outMax
  | .pay => Config.payMax
  | .srcTxt | .dstTxt => Config.addrTxtMax
  | .hOpt => Config.maxOptions
  | .hPay => Config.maxPayload

/-- `BufWrite` is allowed (R66): IN, PAY, SRC_TXT, DST_TXT. -/
def Space.writable : Space → Bool
  | .input | .pay | .srcTxt | .dstTxt => true
  | .out | .hOpt | .hPay => false

/-- The length register of a space (R38). -/
def Space.lengthReg : Space → Reg
  | .input => .inLen
  | .out => .outLen
  | .pay => .payLen
  | .srcTxt => .srcTxtLen
  | .dstTxt => .dstTxtLen
  | .hOpt => .hOptLen
  | .hPay => .hPayLen

/-- `be16(v)`: the two bytes of a word, most significant first (00_scope.md R7). -/
def be16 (v : Word16) : List Byte := [v.extractLsb' 8 8, v.extractLsb' 0 8]

/-- `be32(v)`: the four bytes, most significant first (R7). -/
def be32 (v : BitVec 32) : List Byte :=
  [v.extractLsb' 24 8, v.extractLsb' 16 8, v.extractLsb' 8 8, v.extractLsb' 0 8]

/-- Byte `i` of a byte sequence; the rules read `s[i]` only for `i < len(s)` (20_memory.md R77), and the 0 beyond the end
is consumed only in states no run reaches (DESIGN CHOICE, log 7). -/
def byteAt (s : List Byte) (i : Nat) : Byte := s.getD i 0

/-- `u16(s, i) = s[i]*256 + s[i+1]` (R7). -/
def u16 (s : List Byte) (i : Nat) : Word16 := byteAt s i ++ byteAt s (i + 1)

/-- `zeros(n)` (R7). -/
def zeros (n : Nat) : List Byte := List.replicate n 0

/-- Wire bit `p` of a byte sequence: bit `7 - (p mod 8)` of byte `floor(p/8)` (R6). -/
def wireBit (s : List Byte) (p : Nat) : Bool := (byteAt s (p / 8)).getLsbD (7 - p % 8)

end Sys2Proof.Machine
end

