-- ==== Sys2Proof/Machine/State.lean ====
section
/-! DEFINITION. The state (10_state.md R20 to R36, R44): everything the spec gives the machine, as plain data, and two
fields of the model's own (the host's script, log 1, and the values the host has read, log 2). -/

namespace Sys2Proof.Machine

/-- An address, "stored canonically as 4 raw bytes" `[a, b, c, d]` (R22, 30_encoding.md R96). -/
structure Addr where
  a : Byte
  b : Byte
  c : Byte
  d : Byte
  deriving DecidableEq, Repr

/-- A header record: the seventeen attributes of R22, each at its width. -/
structure Header where
  version : BitVec 4
  headerLengthWords : BitVec 4
  dscp : BitVec 6
  ecn : BitVec 2
  totalLength : Word16
  identification : Word16
  dontFragment : Bool
  moreFragments : Bool
  fragmentOffset : BitVec 13
  ttl : Byte
  protocol : Byte
  headerChecksum : Word16
  sourceAddress : Addr
  destinationAddress : Addr
  payload : List Byte
  rsv : Bool
  options : List Byte
  deriving DecidableEq, Repr

/-- The seven error kinds (60_exceptions.md R190); success is the absence of one. -/
inductive ErrorKind where
  | invalidFieldRange
  | lengthMismatch
  | invalidAddressFormat
  | bufferTooShort
  | invalidVersion
  /-- Added by the shell: a command that reads the slot was issued while it is empty. -/
  | noHeader
  /-- Added by the shell: the word written to CMD encodes no command. -/
  | illegalCommand
  deriving DecidableEq, Repr

/-- `err(E, info)`: an error kind with its information byte (00_scope.md R9). -/
structure CodecError where
  kind : ErrorKind
  info : Byte
  deriving DecidableEq, Repr

/-- The operand registers of CONSTRUCT: ten numeric ones of FW bits (R25) and two flags (R26). The numeric ones are
numbers: the checks on them never wrap (00_scope.md R8) and FW is a parameter (log 6). -/
structure OpRegs where
  version : Nat
  hlw : Nat
  dscp : Nat
  ecn : Nat
  totalLength : Nat
  identification : Nat
  df : Bool
  mf : Bool
  fragmentOffset : Nat
  ttl : Nat
  protocol : Nat
  headerChecksum : Nat
  deriving DecidableEq, Repr

/-- The contents of a byte buffer: the bytes written since reset, by index, strictly rising. A byte not listed holds no
value (20_memory.md R76, log 3). -/
abbrev Memory := List Host.Cell

/-- What stops the machine by itself: nothing. The spec's errors are ordinary outcomes (00_scope.md R14) and no behaviour
is stuck (93_implementation_defined.md section 2), so no step ever faults (log 8). -/
inductive Fault where
  deriving DecidableEq, Repr

/-- Why a step has no meaning: one name per host protocol violation of 60_exceptions.md R206. Each is raised by the host
action named; each is SAFE (the model stops where the spec gives no meaning, log 8). -/
inductive Refusal where
  /-- An instruction without a meaning yet; no arm of `exec` raises it. Safe. -/
  | notModelled (mnemonic : String)
  /-- HostRead or HostWrite of an unassigned register number. Safe. -/
  | unassignedRegister (r : Nat)
  /-- HostWrite to a read-only register. Safe. -/
  | readOnlyRegister (r : Reg)
  /-- HostWrite of a value of `2^width` or more. Safe. -/
  | valueTooWide (r : Reg) (v : Nat)
  /-- BufWrite or BufRead of a space number that does not exist. Safe. -/
  | unassignedSpace (s : Nat)
  /-- BufWrite to OUT, HOPT or HPAY. Safe. -/
  | readOnlySpace (s : Space)
  /-- BufWrite or BufRead at or beyond the capacity. Safe. -/
  | beyondCapacity (s : Space) (i : Nat)
  /-- BufWrite of a value above 255. Safe. -/
  | byteTooWide (b : Nat)
  /-- HostRead of an H_* port while the slot is empty. Safe. -/
  | noRecordPort (r : Reg)
  /-- BufRead of HOPT or HPAY while the slot is empty. Safe. -/
  | noRecordSpace (s : Space)
  /-- BufRead of HOPT or HPAY at or beyond the record's length. Safe. -/
  | beyondRecord (s : Space) (i : Nat)
  /-- CONSTRUCT or DECODE that consumes, or a BufRead that returns, a byte never written since reset (log 3). Safe. -/
  | unwrittenByte (s : Space) (i : Nat)
  deriving DecidableEq, Repr

/-- The state of one codec instance (R20), and the model's own `script` and `returned`. -/
structure State where
  /-- `HDR`: the header slot (R21). -/
  hdr : Option Header
  /-- `OP_*` (R25, R26). -/
  ops : OpRegs
  /-- `SRC_TXT`, `SRC_TXT_LEN` (R27). -/
  srcTxt : Memory
  srcTxtLen : BitVec 5
  /-- `DST_TXT`, `DST_TXT_LEN` (R27). -/
  dstTxt : Memory
  dstTxtLen : BitVec 5
  /-- `PAY`, `PAY_LEN` (R28). -/
  pay : Memory
  payLen : Word16
  /-- `IN`, `IN_LEN` (R29). -/
  input : Memory
  inLen : Word16
  /-- `OUT`, `OUT_LEN` (R30). -/
  out : Memory
  outLen : Word16
  /-- `RES` (R31). -/
  res : Word16
  /-- `ERR`, the field of STATUS (R32): `none` is code 0, success. -/
  err : Option ErrorKind
  /-- `ERRINFO` (R33). -/
  errInfo : Byte
  /-- `BS_ACTIVE`, `BS_POS` (R35). -/
  bsActive : Bool
  bsPos : BitVec 19
  /-- MODEL: the host actions still to come, oldest first (log 1). -/
  script : List HostAction
  /-- MODEL: the values the host's reads returned, latest first (log 2). -/
  returned : List Nat
  deriving DecidableEq, Repr

/-- The operand registers after reset: all 0 (R44). -/
def OpRegs.reset : OpRegs where
  version := 0
  hlw := 0
  dscp := 0
  ecn := 0
  totalLength := 0
  identification := 0
  df := false
  mf := false
  fragmentOffset := 0
  ttl := 0
  protocol := 0
  headerChecksum := 0

/-- The state right after reset (R44): slot empty, all registers 0, stream closed, no buffer byte written. The host has
issued nothing (log 1) and read nothing (log 2): DESIGN CHOICE. -/
def State.reset : State where
  hdr := none
  ops := OpRegs.reset
  srcTxt := []
  srcTxtLen := 0
  dstTxt := []
  dstTxtLen := 0
  pay := []
  payLen := 0
  input := []
  inLen := 0
  out := []
  outLen := 0
  res := 0
  err := none
  errInfo := 0
  bsActive := false
  bsPos := 0
  script := []
  returned := []

end Sys2Proof.Machine
end

