-- ==== Sys2Proof/Machine/Ops.lean ====
section
/-! DEFINITION. The named operations over buffers, the slot, the stream and the status. -/

namespace Sys2Proof.Machine

/-- The canonical form of a buffer's contents: indexes strictly rising. An unlisted byte holds no value, so no entry can
equal what an unlisted index reads as. -/
abbrev Memory.wf (m : Memory) : Prop := m.Pairwise (fun c d => c.1 < d.1)

/-- Every listed index is inside the space (20_memory.md R61). -/
abbrev Memory.within (cap : Nat) (m : Memory) : Prop := ∀ c ∈ m, c.1 < cap

/-- The byte at an index, `none` where nothing has been written since reset (R76). -/
def Memory.read : Memory → Nat → Option Byte
  | [], _ => none
  | (a, b) :: m, i => if a = i then some b else Memory.read m i

/-- Write one byte, keeping the canonical form. -/
def Memory.write : Memory → Nat → Byte → Memory
  | [], i, b => [(i, b)]
  | (a, x) :: m, i, b =>
    if i < a then (i, b) :: (a, x) :: m
    else if i = a then (i, b) :: m
    else (a, x) :: Memory.write m i b

/-- `MemRead(buf, i, n)` (00_scope.md R9): the `n` bytes from index `i`, or the first index of them that holds no value
(20_memory.md R76). -/
def Memory.readBytes (m : Memory) (i : Nat) : Nat → Except Nat (List Byte)
  | 0 => .ok []
  | n + 1 =>
    match m.read i with
    | none => .error i
    | some b => (Memory.readBytes m (i + 1) n).map (fun bs => b :: bs)

/-- `MemWrite(buf, i, s)` (R9). -/
def Memory.writeBytes (m : Memory) (i : Nat) : List Byte → Memory
  | [] => m
  | b :: bs => Memory.writeBytes (m.write i b) (i + 1) bs

/-- The storage behind a space; `none` for the views HOPT and HPAY (10_state.md R38). -/
def State.buffer (s : State) : Space → Option Memory
  | .input => some s.input
  | .out => some s.out
  | .pay => some s.pay
  | .srcTxt => some s.srcTxt
  | .dstTxt => some s.dstTxt
  | .hOpt | .hPay => none

/-- The model's read of one byte of a storage space: `none` where the byte holds no value. -/
def State.byteOf (s : State) (sp : Space) (i : Nat) : Option Byte := (s.buffer sp).bind (fun m => m.read i)

/-- "Stream closed": `BS_ACTIVE <- 0`, `BS_POS <- 0` (10_state.md R45). -/
def State.closeStream (s : State) : State := { s with bsActive := false, bsPos := 0 }

/-- Consume the `n` bytes from index `i` of a buffer; a command that consumes a byte never written is refused (R76). -/
def withBytes (sp : Space) (m : Memory) (i n : Nat) (k : List Byte → Host.Outcome State Fault Refusal) :
    Host.Outcome State Fault Refusal :=
  match m.readBytes i n with
  | .ok bs => k bs
  | .error j => .refused (.unwrittenByte sp j)

/-- TAKING A CODEC ERROR (60_exceptions.md R195): `raise E(info)` in command `cmd`, `none` for a word that is no command.
It records the kind and its information; CONSTRUCT and DECODE also empty the slot and close the stream; nothing else
changes, and control goes nowhere. -/
def raiseError (cmd : Option Instr) (e : CodecError) (s : State) : State :=
  match cmd with
  | some .construct | some .decode =>
    { s with err := some e.kind, errInfo := e.info, hdr := none, bsActive := false, bsPos := 0 }
  | none | some .checksum | some .encode | some .verify | some .binstr | some .recompute =>
    { s with err := some e.kind, errInfo := e.info }

/-- The end of a command without raise: `STATUS.ERR <- 0`, `ERRINFO <- 0` (30_encoding.md R91). There is no return
instruction and no error needs acknowledging: the outcome of the next command overwrites the status (60_exceptions.md R197). -/
def complete (s : State) : State := { s with err := none, errInfo := 0 }

/-- The check before a command that needs a header (R91): with an empty slot it raises `NoHeader(0)` and nothing of the
command is done. -/
def withHeader (cmd : Instr) (s : State) (k : Header → Host.Outcome State Fault Refusal) :
    Host.Outcome State Fault Refusal :=
  match s.hdr with
  | none => .next (raiseError (some cmd) ⟨.noHeader, 0⟩ s)
  | some h => k h

/-- The end of CONSTRUCT and DECODE (R110, R151): the record goes to the slot and the stream is closed, or the error is
raised. -/
def fillSlot (cmd : Instr) (r : Except CodecError Header) (s : State) : Host.Outcome State Fault Refusal :=
  match r with
  | .ok h => .next (complete { s.closeStream with hdr := some h })
  | .error e => .next (raiseError (some cmd) e s.closeStream)

end Sys2Proof.Machine
end

