-- ==== Sys2Proof/Machine/Record.lean ====
section
/-! DEFINITION. The header record: its well-formedness (10_state.md R23), the byte form of an address (30_encoding.md R96)
and the values of the host's views of a record (R36). -/

namespace Sys2Proof.Machine

/-- The header length in bytes, `4 * header_length_words` (00_scope.md R11). -/
def Header.length (h : Header) : Nat := 4 * h.headerLengthWords.toNat

/-- `WF(H)` (R23). The clauses that only bound an attribute by its width, and the four bytes of an address, hold by the
attributes' types. -/
def Header.wf (h : Header) : Bool :=
  decide (h.version = 4#4) &&
  decide (Config.minHlw ≤ h.headerLengthWords.toNat) && decide (h.headerLengthWords.toNat ≤ Config.maxHlw) &&
  decide (h.totalLength.toNat = h.length + h.payload.length) &&
  decide (h.options.length + 20 = h.length)

/-- The four bytes, `a` at the lowest index (R96). -/
def Addr.bytes (x : Addr) : List Byte := [x.a, x.b, x.c, x.d]

/-- The 32-bit value `a*2^24 + b*2^16 + c*2^8 + d` (R96). -/
def Addr.value (x : Addr) : Nat := x.a.toNat * 2 ^ 24 + x.b.toNat * 2 ^ 16 + x.c.toNat * 2 ^ 8 + x.d.toNat

/-- The value an `H_*` port shows of a record (R36); other registers are no view of the record. -/
def Header.port (h : Header) : Reg → Option Nat
  | .hVersion => some h.version.toNat
  | .hHlw => some h.headerLengthWords.toNat
  | .hDscp => some h.dscp.toNat
  | .hEcn => some h.ecn.toNat
  | .hTotalLength => some h.totalLength.toNat
  | .hIdentification => some h.identification.toNat
  | .hDf => some h.dontFragment.toNat
  | .hMf => some h.moreFragments.toNat
  | .hFragmentOffset => some h.fragmentOffset.toNat
  | .hTtl => some h.ttl.toNat
  | .hProtocol => some h.protocol.toNat
  | .hHeaderChecksum => some h.headerChecksum.toNat
  | .hSrc => some h.sourceAddress.value
  | .hDst => some h.destinationAddress.value
  | .hPayLen => some h.payload.length
  | .hRsv => some h.rsv.toNat
  | .hOptLen => some h.options.length
  | .cmd | .status | .errInfo | .res | .inLen | .outLen | .bsPos | .bsChar => none
  | .opVersion | .opHlw | .opDscp | .opEcn | .opTotalLength | .opIdentification | .opDf | .opMf => none
  | .opFragmentOffset | .opTtl | .opProtocol | .opHeaderChecksum | .srcTxtLen | .dstTxtLen | .payLen => none

end Sys2Proof.Machine
end

