-- ==== Sys2Proof/Machine/Encode.lean ====
section
/-! DEFINITION. The wire form of a record and ENCODE (42_encode.md, 30_encoding.md R95). -/

namespace Sys2Proof.Machine

/-- The word of wire bytes 6-7: `rsv`, `dont_fragment`, `more_fragments`, then the 13-bit `fragment_offset` (R95). -/
def Header.fragmentWord (h : Header) : Word16 :=
  BitVec.ofBool h.rsv ++ BitVec.ofBool h.dontFragment ++ BitVec.ofBool h.moreFragments ++ h.fragmentOffset

/-- Wire bytes 0 to 19 (R140). -/
def Header.fixedBytes (h : Header) : List Byte :=
  [h.version ++ h.headerLengthWords, h.dscp ++ h.ecn] ++ be16 h.totalLength ++ be16 h.identification ++
  be16 h.fragmentWord ++ [h.ttl, h.protocol] ++ be16 h.headerChecksum ++
  h.sourceAddress.bytes ++ h.destinationAddress.bytes

/-- The function `enc` (R140): the fixed bytes, the option bytes, the payload. R140 gives it for well-formed records only; that
any other record, which no run reaches, is laid out in the same way is the model's (DESIGN CHOICE, log 7). -/
def enc (h : Header) : List Byte := h.fixedBytes ++ h.options ++ h.payload

/-- ENCODE (R141): the wire bytes go to OUT from index 0 and their number to OUT_LEN. For a record that is not well-formed the
number is taken modulo 65536 (DESIGN CHOICE, log 7). -/
def execEncode (s : State) : Host.Outcome State Fault Refusal :=
  withHeader .encode s fun h =>
    .next (complete { s with
      out := s.out.writeBytes 0 (enc h)
      outLen := BitVec.ofNat 16 (enc h).length })

end Sys2Proof.Machine
end

