-- ==== Sys2Proof/Machine/Text.lean ====
section
/-! DEFINITION. The dotted-quad text of an address (30_encoding.md R98, R99). Characters are ASCII (PRESUMED by the spec
itself, 93_implementation_defined.md G2; log 12). -/

namespace Sys2Proof.Machine

/-- '0' (R98). -/
def charZero : Byte := 0x30

/-- '1' (R100). -/
def charOne : Byte := 0x31

/-- '.' (R98). -/
def charDot : Byte := 0x2E

/-- The digits are the bytes 0x30 to 0x39 (R98). -/
def isDigit (c : Byte) : Bool := decide (0x30 ≤ c.toNat) && decide (c.toNat ≤ 0x39)

/-- Put an element in front of the first part. -/
def consHead {α : Type} (c : α) : List (List α) → List (List α)
  | [] => [[c]]
  | p :: ps => (c :: p) :: ps

/-- The maximal runs between separators: a text with `k` separators has exactly `k+1` parts, some possibly empty (R98). -/
def splitSep {α : Type} [DecidableEq α] (sep : α) : List α → List (List α)
  | [] => [[]]
  | c :: t => if c = sep then [] :: splitSep sep t else consHead c (splitSep sep t)

/-- The decimal value of a part: the first character most significant, base ten always (R98). -/
def decimalValue (p : List Byte) : Nat := p.foldl (fun v c => v * 10 + (c.toNat - 0x30)) 0

/-- One octet: one to three digits, of value at most 255, leading zeros allowed (R98). -/
def parseOctet (p : List Byte) : Option Byte :=
  if p.length < 1 ∨ p.length > 3 then none
  else if ¬ p.all isDigit then none
  else if decimalValue p > 255 then none
  else some (BitVec.ofNat 8 (decimalValue p))

/-- `dq_parse` (R98): `none` is malformed. -/
def dqParse (t : List Byte) : Option Addr :=
  if t.length > 16 then none
  else
    match splitSep charDot t with
    | [p0, p1, p2, p3] =>
      match parseOctet p0, parseOctet p1, parseOctet p2, parseOctet p3 with
      | some a, some b, some c, some d => some ⟨a, b, c, d⟩
      | _, _, _, _ => none
    | _ => none

/-- The digit character of a number below ten. -/
def digitChar (n : Nat) : Byte := BitVec.ofNat 8 (0x30 + n)

/-- The decimal numeral of a byte without leading zeros; "0" for zero (R99). -/
def renderOctet (b : Byte) : List Byte :=
  if b.toNat < 10 then [digitChar b.toNat]
  else if b.toNat < 100 then [digitChar (b.toNat / 10), digitChar (b.toNat % 10)]
  else [digitChar (b.toNat / 100), digitChar (b.toNat / 10 % 10), digitChar (b.toNat % 10)]

/-- `dq_render` (R99). -/
def dqRender (x : Addr) : List Byte :=
  renderOctet x.a ++ [charDot] ++ renderOctet x.b ++ [charDot] ++ renderOctet x.c ++ [charDot] ++ renderOctet x.d

end Sys2Proof.Machine
end

