-- ==== Sys2Proof/Machine/Binstr.lean ====
section
/-! DEFINITION. BINSTR and the `BS_CHAR` read (45_binstr.md). -/

namespace Sys2Proof.Machine

/-- Character `p` of the bit-string of a byte sequence: 0x30 or 0x31 by wire bit `p` (R180, 30_encoding.md R100). -/
def bitChar (b : List Byte) (p : Nat) : Byte := if wireBit b p then charOne else charZero

/-- The function `binstr` (R180): every bit of the encoded packet, most significant first, in encode order; of a record
that is not well-formed, every bit of the model's `enc` (DESIGN CHOICE, log 7). -/
def binstr (h : Header) : List Byte := (List.range (8 * (enc h).length)).map (bitChar (enc h))

/-- BINSTR (R182): opens the stream, or restarts it, at position 0. -/
def execBinstr (s : State) : Host.Outcome State Fault Refusal :=
  withHeader .binstr s fun _ => .next (complete { s with bsActive := true, bsPos := 0 })

/-- The record of an open stream that has not reached its end (R183); `none` also for a stream open over an empty slot,
which no run reaches (10_state.md R43, log 7). -/
def State.streaming (s : State) : Option Header :=
  if s.bsActive = false then none
  else
    match s.hdr with
    | none => none
    | some h => if s.bsPos.toNat ≥ 8 * h.totalLength.toNat then none else some h

/-- The value a read of `BS_CHAR` returns (R183): the next character, or 0x00 with no stream open or at the end.
Over a record that is not well-formed, a position beyond the bytes of `enc` but below `8*total_length` reads as 0x30 (DESIGN
CHOICE, log 7). -/
def State.bsChar (s : State) : Byte :=
  match s.streaming with
  | none => 0
  | some h => bitChar (enc h) s.bsPos.toNat

/-- The side effect of a read of `BS_CHAR` (R183): the cursor advances past the character returned. -/
def State.afterBsChar (s : State) : State :=
  match s.streaming with
  | none => s
  | some _ => { s with bsPos := s.bsPos + 1 }

end Sys2Proof.Machine
end

