-- ==== Sys2Proof/Machine/Checksum.lean ====
section
/-! DEFINITION. The Internet checksum and CHECKSUM (41_checksum.md). -/

namespace Sys2Proof.Machine

/-- The exact sum of the 16-bit big-endian words; an odd sequence is padded with one zero byte at the end (R130). -/
def wordSum : List Byte → Nat
  | [] => 0
  | [b] => b.toNat * 256
  | b :: c :: s => b.toNat * 256 + c.toNat + wordSum s

/-- One fold pass: `(sum mod 65536) + floor(sum / 65536)` (R130). -/
def foldPass (n : Nat) : Nat := n % 65536 + n / 65536

/-- The fold loop of R130, at most `k` passes. -/
def foldUpTo : Nat → Nat → Nat
  | 0, n => n
  | k + 1, n => if n > 0xFFFF then foldUpTo k (foldPass n) else n

/-- The folded sum. Each pass strictly lowers a value above 0xFFFF (R130), so `n` passes always suffice. -/
def foldCarries (n : Nat) : Nat := foldUpTo n n

/-- The function `cksum16` over any byte sequence (R130). -/
def cksum16 (s : List Byte) : Word16 := BitVec.ofNat 16 (0xFFFF - foldCarries (wordSum s))

/-- The header bytes of a record: the first `4*hlw` bytes of its wire form (R132). In a record that is not well-formed they may
be fewer than 20 or reach into the payload (DESIGN CHOICE, log 7). -/
def Header.headerBytes (h : Header) : List Byte := (enc h).take h.length

/-- The function `hcs` (R132): the checksum over the header bytes with the checksum field treated as 0. R132 gives it for
well-formed records only; its value for any other record, which no run reaches, is the model's (DESIGN CHOICE, log 7): the same
expression over whatever header bytes there are, where a byte 10 or 11 that does not exist is not set. -/
def hcs (h : Header) : Word16 := cksum16 ((h.headerBytes.set 10 0).set 11 0)

/-- CHECKSUM (R133); what it writes for a record that is not well-formed is log 7. -/
def execChecksum (s : State) : Host.Outcome State Fault Refusal :=
  withHeader .checksum s fun h => .next (complete { s with res := hcs h })

end Sys2Proof.Machine
end

