-- ==== Sys2Proof/Machine/Construct.lean ====
section
/-! DEFINITION. CONSTRUCT (40_construct.md). -/

namespace Sys2Proof.Machine

/-- Step 1 of `construct`, the length invariant, on unbounded integers (R111, 00_scope.md R8). -/
def checkLength (o : OpRegs) (payLen : Nat) : Except CodecError Unit :=
  if o.totalLength ≠ 4 * o.hlw + payLen then .error ⟨.lengthMismatch, 0⟩ else .ok ()

/-- Step 2 of `construct`: the ranges in the order of the attribute index; the first failure is reported (R111, R112). -/
def checkRanges (o : OpRegs) : Except CodecError Unit :=
  if o.version ≠ 4 then .error ⟨.invalidFieldRange, 0⟩
  else if o.hlw < Config.minHlw ∨ o.hlw > Config.maxHlw then .error ⟨.invalidFieldRange, 1⟩
  else if o.dscp > 63 then .error ⟨.invalidFieldRange, 2⟩
  else if o.ecn > 3 then .error ⟨.invalidFieldRange, 3⟩
  else if o.totalLength > Config.maxTotalLength then .error ⟨.invalidFieldRange, 4⟩
  else if o.identification > 65535 then .error ⟨.invalidFieldRange, 5⟩
  else if o.fragmentOffset > 8191 then .error ⟨.invalidFieldRange, 8⟩
  else if o.ttl > 255 then .error ⟨.invalidFieldRange, 9⟩
  else if o.protocol > 255 then .error ⟨.invalidFieldRange, 10⟩
  else if o.headerChecksum > 65535 then .error ⟨.invalidFieldRange, 11⟩
  else .ok ()

/-- Step 4 of `construct`: the record (R111); the checksum is stored verbatim (R115), `rsv` is 0 and the option bytes are
zero (R116). -/
def recordOf (o : OpRegs) (src dst : Addr) (payload : List Byte) : Header where
  version := 4
  headerLengthWords := BitVec.ofNat 4 o.hlw
  dscp := BitVec.ofNat 6 o.dscp
  ecn := BitVec.ofNat 2 o.ecn
  totalLength := BitVec.ofNat 16 o.totalLength
  identification := BitVec.ofNat 16 o.identification
  dontFragment := o.df
  moreFragments := o.mf
  fragmentOffset := BitVec.ofNat 13 o.fragmentOffset
  ttl := BitVec.ofNat 8 o.ttl
  protocol := BitVec.ofNat 8 o.protocol
  headerChecksum := BitVec.ofNat 16 o.headerChecksum
  sourceAddress := src
  destinationAddress := dst
  payload := payload
  rsv := false
  options := zeros (4 * o.hlw - 20)

/-- The function `construct` (R111): the length, then the ranges, then the source and the destination address (R113). -/
def construct (o : OpRegs) (srcTxt dstTxt payload : List Byte) : Except CodecError Header :=
  match checkLength o payload.length with
  | .error e => .error e
  | .ok () =>
    match checkRanges o with
    | .error e => .error e
    | .ok () =>
      match dqParse srcTxt with
      | none => .error ⟨.invalidAddressFormat, 0⟩
      | some src =>
        match dqParse dstTxt with
        | none => .error ⟨.invalidAddressFormat, 1⟩
        | some dst => .ok (recordOf o src dst payload)

/-- The address of a text operand (10_state.md R27): a length above 16 denotes a text longer than the buffer, which is
malformed whatever the buffer holds; otherwise the text's bytes are consumed and parsed. -/
def withAddress (sp : Space) (m : Memory) (len : Nat) (k : Option Addr → Host.Outcome State Fault Refusal) :
    Host.Outcome State Fault Refusal :=
  if len > Config.addrTxtMax then k none else withBytes sp m 0 len (fun t => k (dqParse t))

/-- CONSTRUCT (R110): `construct` applied to the operand state. Each check consumes only the bytes it looks at (log 4): the
lengths and ranges none, the addresses their texts, the record the payload. -/
def execConstruct (s : State) : Host.Outcome State Fault Refusal :=
  match checkLength s.ops s.payLen.toNat with
  | .error e => fillSlot .construct (.error e) s
  | .ok () =>
    match checkRanges s.ops with
    | .error e => fillSlot .construct (.error e) s
    | .ok () =>
      withAddress .srcTxt s.srcTxt s.srcTxtLen.toNat fun src? =>
        match src? with
        | none => fillSlot .construct (.error ⟨.invalidAddressFormat, 0⟩) s
        | some src =>
          withAddress .dstTxt s.dstTxt s.dstTxtLen.toNat fun dst? =>
            match dst? with
            | none => fillSlot .construct (.error ⟨.invalidAddressFormat, 1⟩) s
            | some dst =>
              withBytes .pay s.pay 0 s.payLen.toNat fun payload =>
                fillSlot .construct (.ok (recordOf s.ops src dst payload)) s

end Sys2Proof.Machine
end

