-- ==== Sys2Proof/Machine/Parse.lean ====
section
/-! DEFINITION. Parsing the wire form and DECODE (43_decode.md). -/

namespace Sys2Proof.Machine

/-- Check 1 of `dec` on the buffer's length (R150). -/
def checkFixed (n : Nat) : Except CodecError Unit :=
  if n < 20 then .error ⟨.bufferTooShort, 0⟩ else .ok ()

/-- Checks 2 and 3 of `dec`, on byte 0: the version nibble, then the header length (R150). -/
def checkFirstByte (n : Nat) (b0 : Byte) : Except CodecError Unit :=
  let ver := b0.extractLsb' 4 4
  let hlw := b0.extractLsb' 0 4
  if ver ≠ 4#4 then .error ⟨.invalidVersion, ver.setWidth 8⟩
  else if n < 4 * hlw.toNat then .error ⟨.bufferTooShort, 1⟩
  else .ok ()

/-- Checks 4, 5 and 6 of `dec`, on byte 0 and the total length (R150). -/
def checkTotal (n : Nat) (b0 : Byte) (tl : Word16) : Except CodecError Unit :=
  let hlw := b0.extractLsb' 0 4
  if n < tl.toNat then .error ⟨.bufferTooShort, 2⟩
  else if hlw.toNat < 5 then .error ⟨.lengthMismatch, 1⟩
  else if tl.toNat < 4 * hlw.toNat then .error ⟨.lengthMismatch, 2⟩
  else .ok ()

/-- The four bytes of an address from wire index `i` (30_encoding.md R96). -/
def addrAt (buf : List Byte) (i : Nat) : Addr :=
  ⟨byteAt buf i, byteAt buf (i + 1), byteAt buf (i + 2), byteAt buf (i + 3)⟩

/-- The fields `dec` extracts once its checks have passed (R150); bytes from `total_length` on are ignored (R156). -/
def fieldsOf (buf : List Byte) : Header :=
  let b0 := byteAt buf 0
  let hlw : BitVec 4 := b0.extractLsb' 0 4
  let tl := u16 buf 2
  let w := u16 buf 6
  { version := b0.extractLsb' 4 4
    headerLengthWords := hlw
    dscp := (byteAt buf 1).extractLsb' 2 6
    ecn := (byteAt buf 1).extractLsb' 0 2
    totalLength := tl
    identification := u16 buf 4
    dontFragment := w.getLsbD 14
    moreFragments := w.getLsbD 13
    fragmentOffset := w.extractLsb' 0 13
    ttl := byteAt buf 8
    protocol := byteAt buf 9
    headerChecksum := u16 buf 10
    sourceAddress := addrAt buf 12
    destinationAddress := addrAt buf 16
    payload := (buf.take tl.toNat).drop (4 * hlw.toNat)
    rsv := w.getLsbD 15
    options := (buf.take (4 * hlw.toNat)).drop 20 }

/-- The function `dec` (R150). -/
def dec (buf : List Byte) : Except CodecError Header :=
  match checkFixed buf.length with
  | .error e => .error e
  | .ok () =>
    match checkFirstByte buf.length (byteAt buf 0) with
    | .error e => .error e
    | .ok () =>
      match checkTotal buf.length (byteAt buf 0) (u16 buf 2) with
      | .error e => .error e
      | .ok () => .ok (fieldsOf buf)

/-- DECODE (R151): `dec` applied to IN[0:IN_LEN]. Each check consumes only the bytes it looks at (20_memory.md R77, log 4):
byte 0, then bytes 2 and 3, then the packet's `total_length` bytes; out-of-band bytes are never consumed (R156). -/
def execDecode (s : State) : Host.Outcome State Fault Refusal :=
  let n := s.inLen.toNat
  match checkFixed n with
  | .error e => fillSlot .decode (.error e) s
  | .ok () =>
    withBytes .input s.input 0 1 fun first =>
      match checkFirstByte n (byteAt first 0) with
      | .error e => fillSlot .decode (.error e) s
      | .ok () =>
        withBytes .input s.input 2 2 fun len =>
          match checkTotal n (byteAt first 0) (u16 len 0) with
          | .error e => fillSlot .decode (.error e) s
          | .ok () =>
            withBytes .input s.input 0 (u16 len 0).toNat fun packet =>
              fillSlot .decode (.ok (fieldsOf packet)) s

end Sys2Proof.Machine
end

