-- ==== Sys2Proof/Machine/Verify.lean ====
section
/-! DEFINITION. VERIFY and RECOMPUTE (44_verify.md). -/

namespace Sys2Proof.Machine

/-- The function `verify` (R171): equality of the computed and the stored value, not modulo 65535; for a record that is not
well-formed it rests on log 7, as `hcs` does. -/
def verify (h : Header) : Bool := hcs h == h.headerChecksum

/-- VERIFY (R170). -/
def execVerify (s : State) : Host.Outcome State Fault Refusal :=
  withHeader .verify s fun h => .next (complete { s with res := if verify h then 1 else 0 })

/-- RECOMPUTE (R172): the one command that changes an attribute of a record in the slot; it closes the stream.
What it attaches to a record that is not well-formed is log 7. -/
def execRecompute (s : State) : Host.Outcome State Fault Refusal :=
  withHeader .recompute s fun h =>
    .next (complete { s.closeStream with
      hdr := some { h with headerChecksum := hcs h }
      res := hcs h })

end Sys2Proof.Machine
end

