-- ==== Sys2Proof/Machine/Dispatch.lean ====
section
/-! DEFINITION. The command table: one arm per command (30_encoding.md R92). -/

namespace Sys2Proof.Machine

/-- Run the rule of a command (30_encoding.md R91). -/
def exec (i : Instr) (s : State) : Host.Outcome State Fault Refusal :=
  match i with
  | .construct => Sys2Proof.Machine.execConstruct s
  | .checksum => Sys2Proof.Machine.execChecksum s
  | .encode => Sys2Proof.Machine.execEncode s
  | .decode => Sys2Proof.Machine.execDecode s
  | .verify => Sys2Proof.Machine.execVerify s
  | .binstr => Sys2Proof.Machine.execBinstr s
  | .recompute => Sys2Proof.Machine.execRecompute s

end Sys2Proof.Machine
end

