-- ==== Sys2Proof/Machine/Flags.lean ====
section
/-! DEFINITION. The status a command leaves: the error codes (60_exceptions.md R190) and the STATUS register
(10_state.md R32). There are no condition codes (R40). -/

namespace Sys2Proof.Machine

/-- The code of an error kind (R190). -/
def ErrorKind.code : ErrorKind → BitVec 4
  | .invalidFieldRange => 1
  | .lengthMismatch => 2
  | .invalidAddressFormat => 3
  | .bufferTooShort => 4
  | .invalidVersion => 5
  | .noHeader => 6
  | .illegalCommand => 7

/-- The value of `STATUS.ERR`: 0 for success (R190). -/
def errCode : Option ErrorKind → BitVec 4
  | none => 0
  | some e => e.code

/-- `STATUS` (R32): bits 7:6 reserved, read as 0; bit 5 `BSA`; bit 4 `HV`, a view of the slot; bits 3:0 `ERR`. -/
def State.status (s : State) : Byte :=
  0#2 ++ BitVec.ofBool s.bsActive ++ BitVec.ofBool s.hdr.isSome ++ errCode s.err

end Sys2Proof.Machine
end

