-- ==== Sys2Proof/Machine/HostPort.lean ====
section
/-! DEFINITION. The host's side: the four host actions (20_memory.md R66), the command port (10_state.md R34,
30_encoding.md R91) and the reset event (70_reset_and_hazards.md R220). An action outside its `requires` line is a host
protocol violation and is refused (60_exceptions.md R206); where two lines of R206 apply, the one checked first names it
(log 10). -/

namespace Sys2Proof.Machine

/-- `Execute(c)` (R91): run the command a word encodes; a word that encodes none raises `IllegalCommand(c)` and nothing
else changes (R94). -/
def issueCommand (c : Byte) (s : State) : Host.Outcome State Fault Refusal :=
  match decode c with
  | .ok i => exec i s
  | .error _ => .next (raiseError none ⟨.illegalCommand, c⟩ s)

/-- `r <- v` for a register the host may write (R66); CMD stores nothing (R34) and the other registers are not
host-writable. -/
def State.storeReg (s : State) (r : Reg) (v : Nat) : State :=
  match r with
  | .inLen => { s with inLen := BitVec.ofNat 16 v }
  | .opVersion => { s with ops := { s.ops with version := v } }
  | .opHlw => { s with ops := { s.ops with hlw := v } }
  | .opDscp => { s with ops := { s.ops with dscp := v } }
  | .opEcn => { s with ops := { s.ops with ecn := v } }
  | .opTotalLength => { s with ops := { s.ops with totalLength := v } }
  | .opIdentification => { s with ops := { s.ops with identification := v } }
  | .opDf => { s with ops := { s.ops with df := v == 1 } }
  | .opMf => { s with ops := { s.ops with mf := v == 1 } }
  | .opFragmentOffset => { s with ops := { s.ops with fragmentOffset := v } }
  | .opTtl => { s with ops := { s.ops with ttl := v } }
  | .opProtocol => { s with ops := { s.ops with protocol := v } }
  | .opHeaderChecksum => { s with ops := { s.ops with headerChecksum := v } }
  | .srcTxtLen => { s with srcTxtLen := BitVec.ofNat 5 v }
  | .dstTxtLen => { s with dstTxtLen := BitVec.ofNat 5 v }
  | .payLen => { s with payLen := BitVec.ofNat 16 v }
  | .cmd | .status | .errInfo | .res | .outLen | .bsPos | .bsChar => s
  | .hVersion | .hHlw | .hDscp | .hEcn | .hTotalLength | .hIdentification | .hDf | .hMf | .hFragmentOffset => s
  | .hTtl | .hProtocol | .hHeaderChecksum | .hSrc | .hDst | .hPayLen | .hRsv | .hOptLen => s

/-- The value a read of a register returns (R66): 0 for CMD (10_state.md R34), the stream's character for BS_CHAR
(45_binstr.md R183), a view of the record for an H_* port (R36), `none` for an H_* port with an empty slot. -/
def State.regValue (s : State) (r : Reg) : Option Nat :=
  match r with
  | .cmd => some 0
  | .status => some s.status.toNat
  | .errInfo => some s.errInfo.toNat
  | .res => some s.res.toNat
  | .inLen => some s.inLen.toNat
  | .outLen => some s.outLen.toNat
  | .bsPos => some s.bsPos.toNat
  | .bsChar => some s.bsChar.toNat
  | .opVersion => some s.ops.version
  | .opHlw => some s.ops.hlw
  | .opDscp => some s.ops.dscp
  | .opEcn => some s.ops.ecn
  | .opTotalLength => some s.ops.totalLength
  | .opIdentification => some s.ops.identification
  | .opDf => some s.ops.df.toNat
  | .opMf => some s.ops.mf.toNat
  | .opFragmentOffset => some s.ops.fragmentOffset
  | .opTtl => some s.ops.ttl
  | .opProtocol => some s.ops.protocol
  | .opHeaderChecksum => some s.ops.headerChecksum
  | .srcTxtLen => some s.srcTxtLen.toNat
  | .dstTxtLen => some s.dstTxtLen.toNat
  | .payLen => some s.payLen.toNat
  | .hVersion | .hHlw | .hDscp | .hEcn | .hTotalLength | .hIdentification => s.hdr.bind (fun h => h.port r)
  | .hDf | .hMf | .hFragmentOffset | .hTtl | .hProtocol | .hHeaderChecksum => s.hdr.bind (fun h => h.port r)
  | .hSrc | .hDst | .hPayLen | .hRsv | .hOptLen => s.hdr.bind (fun h => h.port r)

/-- A read gives its value to the host (log 2). -/
def State.give (s : State) (v : Nat) : State := { s with returned := v :: s.returned }

/-- `s[i] <- b` for a space the host may write (R66). -/
def State.storeByte (s : State) (sp : Space) (i : Nat) (b : Byte) : State :=
  match sp with
  | .input => { s with input := s.input.write i b }
  | .pay => { s with pay := s.pay.write i b }
  | .srcTxt => { s with srcTxt := s.srcTxt.write i b }
  | .dstTxt => { s with dstTxt := s.dstTxt.write i b }
  | .out | .hOpt | .hPay => s

/-- `HostWrite(r, v)` (R66). -/
def hostWrite (fw r v : Nat) (s : State) : Host.Outcome State Fault Refusal :=
  match Reg.ofNumber r with
  | none => .refused (.unassignedRegister r)
  | some reg =>
    if reg.writable = false then .refused (.readOnlyRegister reg)
    else if v ≥ 2 ^ reg.width fw then .refused (.valueTooWide reg v)
    else if reg = .cmd then issueCommand (BitVec.ofNat 8 v) s
    else .next (s.storeReg reg v)

/-- `HostRead(r)` (R66); only the read of BS_CHAR has a side effect (20_memory.md R67). -/
def hostRead (r : Nat) (s : State) : Host.Outcome State Fault Refusal :=
  match Reg.ofNumber r with
  | none => .refused (.unassignedRegister r)
  | some reg =>
    match s.regValue reg with
    | none => .refused (.noRecordPort reg)
    | some v => .next ((if reg = .bsChar then s.afterBsChar else s).give v)

/-- `BufWrite(s, i, b)` (R66). -/
def bufWrite (sp i b : Nat) (s : State) : Host.Outcome State Fault Refusal :=
  match Space.ofNumber sp with
  | none => .refused (.unassignedSpace sp)
  | some space =>
    if space.writable = false then .refused (.readOnlySpace space)
    else if i ≥ space.capacity then .refused (.beyondCapacity space i)
    else if b ≥ 256 then .refused (.byteTooWide b)
    else .next (s.storeByte space i (BitVec.ofNat 8 b))

/-- The byte sequence of the record behind HOPT and HPAY (10_state.md R36); the storage spaces are no view of it. -/
def Header.bytesOf (h : Header) : Space → List Byte
  | .hOpt => h.options
  | .hPay => h.payload
  | .input | .out | .pay | .srcTxt | .dstTxt => []

/-- A read of HOPT or HPAY: the slot holds a record and the index is below the record's length (R66). -/
def readView (space : Space) (i : Nat) (s : State) : Host.Outcome State Fault Refusal :=
  match s.hdr with
  | none => .refused (.noRecordSpace space)
  | some h =>
    match (h.bytesOf space)[i]? with
    | none => .refused (.beyondRecord space i)
    | some b => .next (s.give b.toNat)

/-- `BufRead(s, i)` (R66); a byte never written since reset holds no value to return (R76, log 3). -/
def bufRead (sp i : Nat) (s : State) : Host.Outcome State Fault Refusal :=
  match Space.ofNumber sp with
  | none => .refused (.unassignedSpace sp)
  | some space =>
    if i ≥ space.capacity then .refused (.beyondCapacity space i)
    else
      match s.buffer space with
      | none => readView space i s
      | some m =>
        match m.read i with
        | none => .refused (.unwrittenByte space i)
        | some b => .next (s.give b.toNat)

/-- The reset event (R220): every state element of the codec goes to its value of 10_state.md R44. The host's script and
what it has read are the host's, not the codec's (log 9). -/
def applyReset (s : State) : State := { State.reset with script := s.script, returned := s.returned }

/-- One action of the outside world; `fw` is the parameter FW (00_scope.md R5). -/
def hostAct (fw : Nat) (a : HostAction) (s : State) : Host.Outcome State Fault Refusal :=
  match a with
  | .write r v => hostWrite fw r v s
  | .read r => hostRead r s
  | .bufWrite sp i b => bufWrite sp i b s
  | .bufRead sp i => bufRead sp i s
  | .reset => .next (applyReset s)

/-- Take the next action of the script, for a given FW. With none left the codec is idle, and idle changes nothing
(60_exceptions.md R205, 70_reset_and_hazards.md R230; log 1). -/
def stepWith (fw : Nat) (s : State) : Host.Outcome State Fault Refusal :=
  match s.script with
  | [] => .next s
  | a :: rest => hostAct fw a { s with script := rest }

/-- Perform a sequence of host actions one after another, in the order issued (20_memory.md R70). -/
def runActions (fw : Nat) : List HostAction → State → Host.Outcome State Fault Refusal
  | [], s => .next s
  | a :: rest, s =>
    match hostAct fw a s with
    | .next t => runActions fw rest t
    | .fault f => .fault f
    | .refused r => .refused r

end Sys2Proof.Machine
end

