-- ==== Sys2Proof/Machine/Step.lean ====
section
/-! DEFINITION. One step: the next host action (20_memory.md R65: every host action and every command is one atomic step). -/

namespace Sys2Proof.Machine

/-- One step, with the default FW (00_scope.md R5). -/
def step (s : State) : Host.Outcome State Fault Refusal := stepWith Config.fw s

/-- `s` with the write of a command word to CMD as the host's next action: the word comes from outside the machine, which
fetches nothing (10_state.md R39, log 1). -/
def State.withFetchWord (s : State) (nbits w : Nat) : State :=
  { s with script := .write Reg.cmd.number (w % 2 ^ nbits % 256) :: s.script }

end Sys2Proof.Machine
end

