-- ==== Sys2Proof/Machine/Instances.lean ====
section
/-! DEFINITION. Several codec instances (20_memory.md R75, 60_exceptions.md R203): each has its own complete state and its
own host port, and an action names the instance it is for (log 11). -/

namespace Sys2Proof.Machine

/-- The states of the instances, by instance number. -/
abbrev Instances := List State

/-- Any number of instances, each in the reset state (R203). -/
def Instances.reset (n : Nat) : Instances := List.replicate n State.reset

/-- An action on instance `k`; it reads and writes that instance's state only. An action on an instance that does not
exist, or that its instance refuses, has no next state. -/
def actOn (fw k : Nat) (a : HostAction) (xs : Instances) : Option Instances :=
  match xs[k]? with
  | none => none
  | some s =>
    match hostAct fw a s with
    | .next t => some (xs.set k t)
    | .fault _ => none
    | .refused _ => none

end Sys2Proof.Machine
end

