-- ==== Sys2Proof/Machine/Script.lean ====
section
/-! DEFINITION. The host's notations: the script lines of 30_encoding.md R102, the pseudo-operations of R103 and the trace
lines of R104. They stand for sequences of host actions and add nothing to the machine. -/

namespace Sys2Proof.Machine

/-- A script line (R102). A text's characters are given as their ASCII bytes. -/
inductive ScriptLine where
  /-- `wr REG, value` -/
  | wr (r : Reg) (v : Nat)
  /-- `rd REG` -/
  | rd (r : Reg)
  /-- `cmd MNEMONIC` -/
  | cmd (i : Instr)
  /-- `bw SPACE, index, byte` -/
  | bw (s : Space) (i : Nat) (b : Byte)
  /-- `br SPACE, index` -/
  | br (s : Space) (i : Nat)
  /-- `buf SPACE, b0 b1 ... bk` -/
  | buf (s : Space) (bs : List Byte)
  /-- `txt SPACE, "text"` -/
  | txt (s : Space) (text : List Byte)
  /-- `expect REG = value` -/
  | expectReg (r : Reg) (v : Nat)
  /-- `expect SPACE[a:b] = bytes`, with the bytes from index `a` -/
  | expectBytes (s : Space) (a : Nat) (bs : List Byte)
  deriving DecidableEq, Repr

/-- `cmd MNEMONIC` is a write of the command's word to CMD (R102). -/
def cmdAction (i : Instr) : HostAction := .write Reg.cmd.number (encode i).toNat

/-- `BufWrite(SPACE, j, bj)` for the bytes in turn, from index `j` (R102). -/
def bufWrites (s : Space) (j : Nat) : List Byte → List HostAction
  | [] => []
  | b :: bs => .bufWrite s.number j b.toNat :: bufWrites s (j + 1) bs

/-- `BufRead(SPACE, j)` for `n` bytes in turn, from index `j`. -/
def bufReads (s : Space) (j n : Nat) : List HostAction := (List.range' j n).map (fun k => .bufRead s.number k)

/-- `buf`: fill a buffer and set its length register (R102). -/
def fillActions (s : Space) (bs : List Byte) : List HostAction :=
  bufWrites s 0 bs ++ [.write s.lengthReg.number bs.length]

/-- The host actions a script line stands for (R102). -/
def ScriptLine.actions : ScriptLine → List HostAction
  | .wr r v => [.write r.number v]
  | .rd r => [.read r.number]
  | .cmd i => [cmdAction i]
  | .bw s i b => [.bufWrite s.number i b.toNat]
  | .br s i => [.bufRead s.number i]
  | .buf s bs => fillActions s bs
  | .txt s text => fillActions s text
  | .expectReg r _ => [.read r.number]
  | .expectBytes s a bs => bufReads s a bs.length

/-- The values an `expect` line asserts its reads return, in order (R102); other lines assert nothing. -/
def ScriptLine.expected : ScriptLine → List Nat
  | .expectReg _ v => [v]
  | .expectBytes _ _ bs => bs.map BitVec.toNat
  | .wr _ _ | .rd _ | .cmd _ | .bw _ _ _ | .br _ _ | .buf _ _ | .txt _ _ => []

/-- The line's assertion holds of the state its actions end in: the latest values returned are the expected ones. -/
def ScriptLine.met (l : ScriptLine) (after : State) : Bool :=
  decide (after.returned.take l.expected.length = l.expected.reverse)

/-- `TOBYTES` (R103): the source's `ToBytes` is Encode (42_encode.md R143). -/
def toBytesActions : List HostAction := [cmdAction .encode]

/-- `FINALIZE` (R103): build the record, then attach its computed checksum. -/
def finalizeActions : List HostAction := [cmdAction .construct, cmdAction .recompute]

/-- The host's part of `RELOAD` after its ENCODE (R103), from the state that ENCODE left: read OUT_LEN and OUT[0:OUT_LEN],
write them to IN and IN_LEN, and issue DECODE; `bytes` are the bytes the reads return. -/
def reloadActions (bytes : List Byte) : List HostAction :=
  [.read Reg.outLen.number] ++ bufReads .out 0 bytes.length ++ fillActions .input bytes ++ [cmdAction .decode]

/-- `RELOAD` (R103): ENCODE, copy OUT[0:OUT_LEN] to IN, DECODE. The host copies what it reads, so the actions depend on the
state ENCODE leaves (log 14). -/
def reload (fw : Nat) (s : State) : Host.Outcome State Fault Refusal :=
  match runActions fw [cmdAction .encode] s with
  | .next t =>
    match t.out.readBytes 0 t.outLen.toNat with
    | .ok bytes => runActions fw (reloadActions bytes) t
    | .error i => .refused (.unwrittenByte .out i)
  | .fault f => .fault f
  | .refused r => .refused r

/-- The hexadecimal digits of a trace (R104). -/
def hexDigits : List Char := ['0', '1', '2', '3', '4', '5', '6', '7', '8', '9', 'A', 'B', 'C', 'D', 'E', 'F']

/-- `n` in exactly `k` hexadecimal digits, most significant first. -/
def hexText : Nat → Nat → List Char
  | 0, _ => []
  | k + 1, n => hexText k (n / 16) ++ [hexDigits.getD (n % 16) '0']

/-- The trace line of a host action (R104): `W rr vvvvvvvv`, `R rr`, `BW s iiii bb`, `BR s iiii`. `none` where a number has
more digits than the form has places, and for reset, which is no host action. -/
def traceLine : HostAction → Option (List Char)
  | .write r v =>
    if r < 16 ^ 2 ∧ v < 16 ^ 8 then some (['W'] ++ ' ' :: hexText 2 r ++ ' ' :: hexText 8 v) else none
  | .read r => if r < 16 ^ 2 then some (['R'] ++ ' ' :: hexText 2 r) else none
  | .bufWrite s i b =>
    if s < 16 ∧ i < 16 ^ 4 ∧ b < 16 ^ 2 then
      some (['B', 'W'] ++ ' ' :: hexText 1 s ++ ' ' :: hexText 4 i ++ ' ' :: hexText 2 b)
    else none
  | .bufRead s i =>
    if s < 16 ∧ i < 16 ^ 4 then some (['B', 'R'] ++ ' ' :: hexText 1 s ++ ' ' :: hexText 4 i) else none
  | .reset => none

/-- The value of a field of exactly `k` hexadecimal digits. -/
def hexValue (k : Nat) (t : List Char) : Option Nat :=
  if t.length = k ∧ t.all (fun c => hexDigits.contains c) then
    some (t.foldl (fun v c => v * 16 + hexDigits.idxOf c) 0)
  else none

/-- The host action a trace line stands for (R104). -/
def parseTrace (t : List Char) : Option HostAction :=
  match splitSep ' ' t with
  | [k, x] => if k = ['R'] then (hexValue 2 x).map .read else none
  | [k, x, y] =>
    if k = ['W'] then (hexValue 2 x).bind (fun r => (hexValue 8 y).map (.write r))
    else if k = ['B', 'R'] then (hexValue 1 x).bind (fun s => (hexValue 4 y).map (.bufRead s))
    else none
  | [k, x, y, z] =>
    if k = ['B', 'W'] then
      (hexValue 1 x).bind (fun s => (hexValue 4 y).bind (fun i => (hexValue 2 z).map (.bufWrite s i)))
    else none
  | _ => none

end Sys2Proof.Machine
end

