-- ==== Sys2Proof/Safety.lean ====
section
/-! DEFINITION. What counts as a safe run: the invariant of the reachable states (10_state.md R43), a good run
(70_reset_and_hazards.md R230) and what is observed of a state (00_scope.md R16). -/

namespace Sys2Proof.Safety

open Sys2Proof.Machine

/-- The numeric operand registers hold values below `2^FW` (10_state.md R25). -/
def OpsFit (fw : Nat) (o : OpRegs) : Prop :=
  o.version < 2 ^ fw ∧ o.hlw < 2 ^ fw ∧ o.dscp < 2 ^ fw ∧ o.ecn < 2 ^ fw ∧ o.totalLength < 2 ^ fw ∧
  o.identification < 2 ^ fw ∧ o.fragmentOffset < 2 ^ fw ∧ o.ttl < 2 ^ fw ∧ o.protocol < 2 ^ fw ∧
  o.headerChecksum < 2 ^ fw

/-- The buffers are in canonical form and inside their capacities (20_memory.md R61, 10_state.md R38). -/
def BuffersFit (s : State) : Prop :=
  (s.input.wf ∧ s.input.within Config.inMax) ∧ (s.out.wf ∧ s.out.within Config.outMax) ∧
  (s.pay.wf ∧ s.pay.within Config.payMax) ∧ (s.srcTxt.wf ∧ s.srcTxt.within Config.addrTxtMax) ∧
  (s.dstTxt.wf ∧ s.dstTxt.within Config.addrTxtMax)

/-- R43 (a): a record in the slot is well-formed. -/
def SlotWf (s : State) : Prop := ∀ h, s.hdr = some h → h.wf = true

/-- R43 (b): an open stream has a record under it and a cursor inside its string. -/
def StreamOpenWf (s : State) : Prop :=
  s.bsActive = true → ∃ h, s.hdr = some h ∧ s.bsPos.toNat ≤ 8 * h.totalLength.toNat

/-- R43 (c): a closed stream has its cursor at 0. -/
def StreamClosedWf (s : State) : Prop := s.bsActive = false → s.bsPos = 0

/-- R43 (d) and (e): OUT_LEN is at most 65535, STATUS[7:6] is 0 and ERR is one of the codes 0..7. -/
def StatusWf (s : State) : Prop :=
  s.outLen.toNat ≤ 65535 ∧ s.status.extractLsb' 6 2 = 0#2 ∧ (s.status.extractLsb' 0 4).toNat ≤ 7

/-- The invariant of every reachable state: R43, the operand registers inside FW bits (R25), and the buffers' form. -/
def Inv (fw : Nat) (s : State) : Prop :=
  SlotWf s ∧ StreamOpenWf s ∧ StreamClosedWf s ∧ StatusWf s ∧ OpsFit fw s.ops ∧ BuffersFit s

/-- A good run (R230): the whole sequence of actions is performed, so no host protocol violation occurs in it, and `t` is
its final state. -/
def GoodRun (fw : Nat) (as : List HostAction) (s t : State) : Prop := runActions fw as s = .next t

/-- What is observed of a state (R16). -/
structure Observation where
  status : Byte
  errInfo : Byte
  res : Word16
  outLen : Word16
  /-- OUT[0:OUT_LEN]; `none` for a byte that holds no value. -/
  out : List (Option Byte)
  bsPos : BitVec 19
  returned : List Nat
  hdr : Option Header
  deriving DecidableEq, Repr

/-- The observation of a state (R16). -/
def observe (s : State) : Observation where
  status := s.status
  errInfo := s.errInfo
  res := s.res
  outLen := s.outLen
  out := (List.range s.outLen.toNat).map s.out.read
  bsPos := s.bsPos
  returned := s.returned
  hdr := s.hdr

end Sys2Proof.Safety
end

