-- ==== Sys2Proof/WellFormed.lean ====
section
/-! DEFINITION. Well-formed terms. A command has no operand fields (30_encoding.md R90, R93), so every `Instr` is
well-formed. A host action has raw numbers, and is well-formed when it meets the part of its `requires` line
(20_memory.md R66) that does not look at the state: the register or space exists and admits the access, and the index and
value fit. The part that looks at the state (a record in the slot, an index below a record's length, a byte that holds a
value) is checked where the action is performed (Machine/HostPort.lean). -/

namespace Sys2Proof

/-- Every command is well-formed: the command word has no operand field (R90, R93). -/
def Instr.wellFormed : Instr → Bool
  | .construct | .checksum | .encode | .decode | .verify | .binstr | .recompute => true

namespace Machine

/-- The static part of the `requires` lines of R66; reset is always allowed (R220). -/
def HostAction.wellFormed (fw : Nat) : HostAction → Bool
  | .write r v =>
    match Reg.ofNumber r with
    | none => false
    | some reg => reg.writable && decide (v < 2 ^ reg.width fw)
  | .read r => (Reg.ofNumber r).isSome
  | .bufWrite s i b =>
    match Space.ofNumber s with
    | none => false
    | some sp => sp.writable && decide (i < sp.capacity) && decide (b < 256)
  | .bufRead s i =>
    match Space.ofNumber s with
    | none => false
    | some sp => decide (i < sp.capacity)
  | .reset => true

end Machine

end Sys2Proof
end

