-- ==== Sys2Proof/Certificates/Slice0/Obligations.lean ====
section
/-! DEFINITION. The statements for the provers, from the numbered rules of spec/, and the few notions they are stated with. -/

open Sys2Proof Sys2Proof.Machine Sys2Proof.Safety

namespace Sys2Proof.Rules

/-- The commands that need a header (30_encoding.md R92, the column "needs HDR != none"). -/
def NeedsHeader (i : Instr) : Prop :=
  i = .checksum ∨ i = .encode ∨ i = .verify ∨ i = .binstr ∨ i = .recompute

/-- The state `s` after a failing CONSTRUCT or DECODE (60_exceptions.md R195). -/
def emptied (s : State) (k : ErrorKind) (info : Byte) : State :=
  { s with hdr := none, bsActive := false, bsPos := 0, err := some k, errInfo := info }

/-- The state `s` after a successful CONSTRUCT or DECODE of `h`. -/
def filled (s : State) (h : Header) : State :=
  { s with hdr := some h, bsActive := false, bsPos := 0, err := none, errInfo := 0 }

/-- The test of each attribute index that raises `InvalidFieldRange` (40_construct.md R112). -/
def FieldOutOfRange (o : OpRegs) (k : Nat) : Prop :=
  (k = 0 ∧ o.version ≠ 4) ∨ (k = 1 ∧ (o.hlw < 5 ∨ o.hlw > 15)) ∨ (k = 2 ∧ o.dscp > 63) ∨ (k = 3 ∧ o.ecn > 3) ∨
  (k = 4 ∧ o.totalLength > 65535) ∨ (k = 5 ∧ o.identification > 65535) ∨ (k = 8 ∧ o.fragmentOffset > 8191) ∨
  (k = 9 ∧ o.ttl > 255) ∨ (k = 10 ∧ o.protocol > 255) ∨ (k = 11 ∧ o.headerChecksum > 65535)

/-- The text operand is `SRC_TXT[0:SRC_TXT_LEN]`, every byte of it written (10_state.md R27). -/
def SrcText (s : State) (t : List Byte) : Prop :=
  s.srcTxtLen.toNat ≤ 16 ∧ s.srcTxt.readBytes 0 s.srcTxtLen.toNat = .ok t

/-- The text operand is `DST_TXT[0:DST_TXT_LEN]`, every byte of it written (R27). -/
def DstText (s : State) (t : List Byte) : Prop :=
  s.dstTxtLen.toNat ≤ 16 ∧ s.dstTxt.readBytes 0 s.dstTxtLen.toNat = .ok t

/-- The payload operand is `PAY[0:PAY_LEN]`, every byte of it written (R28). -/
def PayBytes (s : State) (p : List Byte) : Prop := s.pay.readBytes 0 s.payLen.toNat = .ok p

/-- Decode's input is `IN[0:IN_LEN]`, every byte of it written (R29). -/
def InBytes (s : State) (buf : List Byte) : Prop := s.input.readBytes 0 s.inLen.toNat = .ok buf

/-- The exact sum of the big-endian 16-bit words of a byte sequence, the last word padded with a zero byte where the length
is odd (41_checksum.md R130). -/
def exactSum (s : List Byte) : Nat :=
  ((List.range ((s.length + 1) / 2)).map
    (fun k => (byteAt s (2 * k)).toNat * 256 + (byteAt s (2 * k + 1)).toNat)).sum

/-- One addition with end-around carry in a 16-bit register (R131 (c)). -/
def endAroundAdd (a w : Nat) : Nat := if a + w > 0xFFFF then (a + w) % 65536 + 1 else a + w

/-- The sum of the words of a byte sequence, each added with end-around carry into a 16-bit register (R131 (c)). -/
def endAroundSum (s : List Byte) : Nat :=
  ((List.range ((s.length + 1) / 2)).map
    (fun k => (byteAt s (2 * k)).toNat * 256 + (byteAt s (2 * k + 1)).toNat)).foldl endAroundAdd 0

/-- A byte sequence with wire bit `p` flipped (00_scope.md R6). -/
def flipBit (b : List Byte) (p : Nat) : List Byte :=
  b.set (p / 8) (byteAt b (p / 8) ^^^ BitVec.twoPow 8 (7 - p % 8))

/-- The `requires` lines of 20_memory.md R66, for every action but the write of CMD; reset is always allowed
(70_reset_and_hazards.md R220). That a BufRead of a storage space needs a written byte is R76 and log 3, not R66. -/
def MeetsRequires (fw : Nat) (s : State) : HostAction → Prop
  | .write r v => ∃ q : Reg, q.number = r ∧ q.access = .readWrite ∧ v < 2 ^ q.width fw
  | .read r => ∃ q : Reg, q.number = r ∧ (q.access = .readRecord → s.hdr ≠ none)
  | .bufWrite sp i b =>
    ∃ q : Space, q.number = sp ∧ (q = .input ∨ q = .pay ∨ q = .srcTxt ∨ q = .dstTxt) ∧ i < q.capacity ∧ b < 256
  | .bufRead sp i =>
    ∃ q : Space, q.number = sp ∧ i < q.capacity ∧
      (q = .hOpt → ∃ h, s.hdr = some h ∧ i < h.options.length) ∧
      (q = .hPay → ∃ h, s.hdr = some h ∧ i < h.payload.length) ∧
      (q ≠ .hOpt → q ≠ .hPay → s.byteOf q i ≠ none)
  | .reset => True

/-- The action is the write of a command word to CMD. -/
def IssuesCommand (a : HostAction) : Prop := ∃ c, a = .write Reg.cmd.number c

/-- Which command can raise which kind (60_exceptions.md R191), with the information recorded (R192). -/
def MayRaise : Instr → ErrorKind → Nat → Prop
  | .construct, .invalidFieldRange, n => n ∈ [0, 1, 2, 3, 4, 5, 8, 9, 10, 11]
  | .construct, .lengthMismatch, n => n = 0
  | .construct, .invalidAddressFormat, n => n = 0 ∨ n = 1
  | .decode, .lengthMismatch, n => n = 1 ∨ n = 2
  | .decode, .bufferTooShort, n => n = 0 ∨ n = 1 ∨ n = 2
  | .decode, .invalidVersion, n => n < 16 ∧ n ≠ 4
  | .checksum, .noHeader, n => n = 0
  | .encode, .noHeader, n => n = 0
  | .verify, .noHeader, n => n = 0
  | .binstr, .noHeader, n => n = 0
  | .recompute, .noHeader, n => n = 0
  | _, _, _ => False

/-- `j` is the first byte of a space that holds no value (20_memory.md R76). -/
def FirstUnwritten (s : State) (sp : Space) (j : Nat) : Prop :=
  s.byteOf sp j = none ∧ ∀ k, k < j → s.byteOf sp k ≠ none

/-- A host action is refused: the spec gives it no meaning and its refusal no name (60_exceptions.md R206, log 8). -/
def Refused (fw : Nat) (a : HostAction) (s : State) : Prop := ∃ r, hostAct fw a s = .refused r

/-- A host action returns a value and changes nothing else (20_memory.md R67). -/
def Returns (fw : Nat) (a : HostAction) (s : State) (v : Nat) : Prop :=
  hostAct fw a s = .next { s with returned := v :: s.returned }

/-- A row RW of 10_state.md R37: register `r` has number `n` and width `w`, a read shows `shown`, and a write of an allowed
value `v` leads to `put v`. -/
def ReadWriteRow (fw : Nat) (s : State) (r : Reg) (n w shown : Nat) (put : Nat → State) : Prop :=
  (r.number = n ∧ r.width fw = w ∧ r.access = .readWrite) ∧ Returns fw (.read n) s shown ∧
  (∀ v, v < 2 ^ w → hostAct fw (.write n v) s = .next (put v)) ∧ ∀ v, 2 ^ w ≤ v → Refused fw (.write n v) s

/-- A row R of R37: a read shows `shown`, which fits the width, and no value can be written. -/
def ReadOnlyRow (fw : Nat) (s : State) (r : Reg) (n w shown : Nat) : Prop :=
  (r.number = n ∧ r.width fw = w ∧ r.access = .readOnly) ∧ Returns fw (.read n) s shown ∧ shown < 2 ^ w ∧
  ∀ v, Refused fw (.write n v) s

/-- A row R (HV=1 only) of R37: a read shows `shown` of the record in the slot, which fits the width, and is refused with an
empty slot; no value can be written. -/
def RecordPortRow (fw : Nat) (s : State) (r : Reg) (n w : Nat) (shown : Header → Nat) : Prop :=
  (r.number = n ∧ r.width fw = w ∧ r.access = .readRecord) ∧
  (∀ h, s.hdr = some h → Returns fw (.read n) s (shown h) ∧ (h.wf = true → shown h < 2 ^ w)) ∧
  (s.hdr = none → Refused fw (.read n) s) ∧ ∀ v, Refused fw (.write n v) s

/-- A view HOPT or HPAY of R38 with number `n` and capacity `cap` on the byte sequence `bytes` of the record in the slot
(10_state.md R36): a read below its length returns its byte; at or beyond it, beyond the capacity, or with an empty slot it is
refused; nothing can be written; a well-formed record fits the capacity. -/
def RecordViewRow (fw : Nat) (s : State) (q : Space) (n cap : Nat) (bytes : Header → List Byte) : Prop :=
  (q.number = n ∧ q.capacity = cap) ∧
  (∀ h, s.hdr = some h →
    (∀ i b, i < cap → (bytes h)[i]? = some b → Returns fw (.bufRead n i) s b.toNat) ∧
    (∀ i, (bytes h).length ≤ i → Refused fw (.bufRead n i) s) ∧ (h.wf = true → (bytes h).length ≤ cap)) ∧
  (s.hdr = none → ∀ i, Refused fw (.bufRead n i) s) ∧ (∀ i, cap ≤ i → Refused fw (.bufRead n i) s) ∧
  ∀ i b, Refused fw (.bufWrite n i b) s

/-- The reads of a storage space of R38 with number `n`, capacity `cap` and contents `m`: a read of a written byte inside the
capacity returns it, every other read is refused. -/
def StorageReads (fw : Nat) (s : State) (q : Space) (n cap : Nat) (m : Memory) : Prop :=
  (q.number = n ∧ q.capacity = cap) ∧
  (∀ i b, i < cap → m.read i = some b → Returns fw (.bufRead n i) s b.toNat) ∧
  (∀ i, cap ≤ i ∨ m.read i = none → Refused fw (.bufRead n i) s)

/-- The writes of a space RW of R38 with contents `m`: a byte inside the capacity goes to its index, every other write is
refused; `put` is the state with other contents. -/
def StorageWrites (fw : Nat) (s : State) (n cap : Nat) (m : Memory) (put : Memory → State) : Prop :=
  (∀ i b, i < cap → b < 256 → hostAct fw (.bufWrite n i b) s = .next (put (m.write i (BitVec.ofNat 8 b)))) ∧
  ∀ i b, cap ≤ i ∨ 256 ≤ b → Refused fw (.bufWrite n i b) s

end Sys2Proof.Rules

open Sys2Proof.Rules

/-! ### The command word and the step -/

/-- 30_encoding.md R92: the seven command words and no others name the commands; the encoder gives the same words. -/
def Obligations.CommandWordsAreTheOpcodeMap : Prop :=
  (decode 0x01#8 = .ok .construct ∧ decode 0x02#8 = .ok .checksum ∧ decode 0x03#8 = .ok .encode ∧
    decode 0x04#8 = .ok .decode ∧ decode 0x05#8 = .ok .verify ∧ decode 0x06#8 = .ok .binstr ∧
    decode 0x07#8 = .ok .recompute) ∧
  (∀ i : Instr, decode (encode i) = .ok i) ∧
  ∀ (c : Byte) (i : Instr), decode c = .ok i → encode i = c

/-- R94: every illegal word raises IllegalCommand with the word as information and changes nothing else, and there are 249. -/
def Obligations.IllegalWordsRaiseIllegalCommand : Prop :=
  (∀ (s : State) (c : Byte),
    (c = 0x00#8 ∨ (0x08 ≤ c.toNat ∧ c.toNat ≤ 0x0F) ∨ c.extractLsb' 4 4 ≠ 0#4) →
      issueCommand c s = .next { s with err := some .illegalCommand, errInfo := c }) ∧
  ((List.range 256).filter (fun n =>
    decide (n = 0) || (decide (8 ≤ n) && decide (n ≤ 15)) || decide (n / 16 ≠ 0))).length = 249

/-- 10_state.md R34 and 30_encoding.md R91: a step whose next host action is the write of a command word runs the decoded
command, or raises IllegalCommand. The script that holds the host's actions is the model's choice (log 1); with none left a
step changes nothing, and any other action is performed as its rule says. step uses the default FW (log 5). -/
def Obligations.StepRunsTheNextHostAction : Prop :=
  (∀ (s : State) (rest : List HostAction) (c : Nat) (i : Instr),
    s.script = .write Reg.cmd.number c :: rest → c < 256 → decode (BitVec.ofNat 8 c) = .ok i →
      step s = exec i { s with script := rest }) ∧
  (∀ (s : State) (rest : List HostAction) (c : Nat) (e : DecodeError),
    s.script = .write Reg.cmd.number c :: rest → c < 256 → decode (BitVec.ofNat 8 c) = .error e →
      step s = .next { s with script := rest, err := some .illegalCommand, errInfo := BitVec.ofNat 8 c }) ∧
  (∀ s : State, s.script = [] → step s = .next s) ∧
  ∀ (s : State) (a : HostAction) (rest : List HostAction), s.script = a :: rest →
    step s = hostAct Config.fw a { s with script := rest }

/-- R91: a command that needs a header, issued with an empty slot, reports NoHeader and changes nothing else. -/
def Obligations.CommandsReportNoHeaderOnAnEmptySlot : Prop :=
  ∀ (i : Instr) (s : State), NeedsHeader i → s.hdr = none →
    exec i s = .next { s with err := some .noHeader, errInfo := 0 }

/-! ### CONSTRUCT -/

/-- 40_construct.md R110, R111: with the lengths consistent, every field in range and both addresses well formed, CONSTRUCT
completes and the slot holds the record of the operands. -/
def Obligations.ConstructStoresTheRecord : Prop :=
  ∀ (s : State) (st dt payload : List Byte) (src dst : Addr),
    s.ops.totalLength = 4 * s.ops.hlw + s.payLen.toNat → s.ops.version = 4 → 5 ≤ s.ops.hlw → s.ops.hlw ≤ 15 →
    s.ops.dscp ≤ 63 → s.ops.ecn ≤ 3 → s.ops.totalLength ≤ 65535 → s.ops.identification ≤ 65535 →
    s.ops.fragmentOffset ≤ 8191 → s.ops.ttl ≤ 255 → s.ops.protocol ≤ 255 → s.ops.headerChecksum ≤ 65535 →
    SrcText s st → dqParse st = some src → DstText s dt → dqParse dt = some dst → PayBytes s payload →
    ∃ h : Header, exec .construct s = .next (filled s h) ∧
      h.version.toNat = 4 ∧ h.headerLengthWords.toNat = s.ops.hlw ∧ h.dscp.toNat = s.ops.dscp ∧
      h.ecn.toNat = s.ops.ecn ∧ h.totalLength.toNat = s.ops.totalLength ∧
      h.identification.toNat = s.ops.identification ∧ h.dontFragment = s.ops.df ∧ h.moreFragments = s.ops.mf ∧
      h.fragmentOffset.toNat = s.ops.fragmentOffset ∧ h.ttl.toNat = s.ops.ttl ∧ h.protocol.toNat = s.ops.protocol ∧
      h.headerChecksum.toNat = s.ops.headerChecksum ∧ h.sourceAddress = src ∧ h.destinationAddress = dst ∧
      h.payload = payload ∧ h.rsv = false ∧ h.options = List.replicate (4 * s.ops.hlw - 20) 0#8

/-- R113: LengthMismatch comes before every other error of CONSTRUCT, whatever the other operands are. That it is reported
also where bytes of a text or of the payload were never written, which this check does not look at, is the model's reading
(log 4). -/
def Obligations.ConstructReportsLengthMismatchFirst : Prop :=
  ∀ s : State, s.ops.totalLength ≠ 4 * s.ops.hlw + s.payLen.toNat →
    exec .construct s = .next (emptied s .lengthMismatch 0)

/-- R112, R113: with the lengths consistent, the lowest attribute index out of range is reported. That it is reported also
where bytes of a text or of the payload were never written is the model's reading (log 4). -/
def Obligations.ConstructReportsTheLowestFieldOutOfRange : Prop :=
  ∀ (s : State) (k : Nat), s.ops.totalLength = 4 * s.ops.hlw + s.payLen.toNat →
    FieldOutOfRange s.ops k → (∀ j, j < k → ¬ FieldOutOfRange s.ops j) →
    exec .construct s = .next (emptied s .invalidFieldRange (BitVec.ofNat 8 k))

/-- R111 step 3, R113: with lengths and ranges in order, a malformed source address is reported with 0, and a malformed
destination address with 1 where the source is well formed. A length register above 16 is a malformed text (10_state.md
R27). That a text of length above 16 is reported also where its own bytes were never written, a malformed source also where
bytes of the destination text or the payload were never written, and a malformed destination also where bytes of the payload
were not, is the model's reading (log 4). -/
def Obligations.ConstructReportsMalformedAddresses : Prop :=
  ∀ s : State, s.ops.totalLength = 4 * s.ops.hlw + s.payLen.toNat → (∀ k, ¬ FieldOutOfRange s.ops k) →
    ((s.srcTxtLen.toNat > 16 ∨ ∃ t, SrcText s t ∧ dqParse t = none) →
      exec .construct s = .next (emptied s .invalidAddressFormat 0)) ∧
    ((∃ t src, SrcText s t ∧ dqParse t = some src) →
      (s.dstTxtLen.toNat > 16 ∨ ∃ t, DstText s t ∧ dqParse t = none) →
      exec .construct s = .next (emptied s .invalidAddressFormat 1))

/-- R118: the length law, totality, and what a successful construction gives. -/
def Obligations.ConstructLaws : Prop :=
  ∀ (o : OpRegs) (st dt payload : List Byte),
    (o.totalLength ≠ 4 * o.hlw + payload.length → construct o st dt payload = .error ⟨.lengthMismatch, 0⟩) ∧
    (((∃ h, construct o st dt payload = .ok h) ∧ ¬ ∃ e, construct o st dt payload = .error e) ∨
      ((∃ e, construct o st dt payload = .error e) ∧ ¬ ∃ h, construct o st dt payload = .ok h)) ∧
    ∀ h, construct o st dt payload = .ok h →
      h.wf = true ∧ h.rsv = false ∧ ∀ b ∈ h.options, b = 0#8

/-- R110: the command applies the function `construct` to the operand state. -/
def Obligations.ConstructCommandAppliesTheFunction : Prop :=
  ∀ (s : State) (st dt payload : List Byte), SrcText s st → DstText s dt → PayBytes s payload →
    (∀ h, construct s.ops st dt payload = .ok h → exec .construct s = .next (filled s h)) ∧
    ∀ e, construct s.ops st dt payload = .error e → exec .construct s = .next (emptied s e.kind e.info)

/-! ### The dotted-quad text -/

/-- 30_encoding.md R99: parsing the rendering of an address gives the address back. -/
def Obligations.ParsingARenderedAddressGivesItBack : Prop := ∀ x : Addr, dqParse (dqRender x) = some x

/-- R98: a text is accepted exactly when it is four parts of one to three digits joined by single separators, each of value
at most 255, and the octets are those values in reading order. The codes of the characters are general knowledge in the spec
itself (93_implementation_defined.md G2, log 12). -/
def Obligations.AcceptedAddressTextsAreDottedQuads : Prop :=
  ∀ (t : List Byte) (x : Addr),
    dqParse t = some x ↔
      ∃ p q r u : List Byte, t = p ++ [0x2E#8] ++ q ++ [0x2E#8] ++ r ++ [0x2E#8] ++ u ∧
        (∀ w ∈ [p, q, r, u], 1 ≤ w.length ∧ w.length ≤ 3 ∧ (∀ c ∈ w, 0x30 ≤ c.toNat ∧ c.toNat ≤ 0x39) ∧
          decimalValue w ≤ 255) ∧
        x.a.toNat = decimalValue p ∧ x.b.toNat = decimalValue q ∧ x.c.toNat = decimalValue r ∧
        x.d.toNat = decimalValue u

/-! ### ENCODE and the wire layout -/

/-- R95: where each attribute stands on the wire. -/
def Obligations.WireLayoutOfARecord : Prop :=
  ∀ h : Header, h.wf = true →
    let b := fun i => (byteAt (enc h) i).toNat
    b 0 = h.version.toNat * 16 + h.headerLengthWords.toNat ∧ b 1 = h.dscp.toNat * 4 + h.ecn.toNat ∧
    b 2 * 256 + b 3 = h.totalLength.toNat ∧ b 4 * 256 + b 5 = h.identification.toNat ∧
    b 6 * 256 + b 7 = h.rsv.toNat * 32768 + h.dontFragment.toNat * 16384 + h.moreFragments.toNat * 8192 +
      h.fragmentOffset.toNat ∧
    b 8 = h.ttl.toNat ∧ b 9 = h.protocol.toNat ∧ b 10 * 256 + b 11 = h.headerChecksum.toNat ∧
    [b 12, b 13, b 14, b 15] = [h.sourceAddress.a.toNat, h.sourceAddress.b.toNat, h.sourceAddress.c.toNat,
      h.sourceAddress.d.toNat] ∧
    [b 16, b 17, b 18, b 19] = [h.destinationAddress.a.toNat, h.destinationAddress.b.toNat,
      h.destinationAddress.c.toNat, h.destinationAddress.d.toNat] ∧
    h.options.length = 4 * h.headerLengthWords.toNat - 20 ∧
    (∀ k, k < h.options.length → (enc h)[20 + k]? = h.options[k]?) ∧
    h.payload.length = h.totalLength.toNat - 4 * h.headerLengthWords.toNat ∧
    (∀ k, k < h.payload.length → (enc h)[4 * h.headerLengthWords.toNat + k]? = h.payload[k]?) ∧
    (enc h).length = h.totalLength.toNat

/-- 42_encode.md R141: ENCODE completes, OUT[0:OUT_LEN] is the wire form, the bytes of OUT beyond it and everything else but
the status keep what they held. -/
def Obligations.EncodeWritesTheWireForm : Prop :=
  ∀ (s : State) (h : Header), s.hdr = some h → h.wf = true →
    ∃ t : State, exec .encode s = .next t ∧ t.outLen = h.totalLength ∧
      (∀ i, i < h.totalLength.toNat → t.out.read i = (enc h)[i]?) ∧
      (∀ i, h.totalLength.toNat ≤ i → t.out.read i = s.out.read i) ∧
      t = { s with out := t.out, outLen := t.outLen, err := none, errInfo := 0 }

/-- R144: the laws of `enc`. -/
def Obligations.EncodeLaws : Prop :=
  (∀ h : Header, h.wf = true →
    (enc h).length = h.totalLength.toNat ∧ 20 ≤ (enc h).length ∧ (enc h).length ≤ 65535 ∧
    (byteAt (enc h) 0).toNat / 16 = 4 ∧ wireBit (enc h) 48 = h.rsv) ∧
  (∀ h k : Header, h.wf = true → k.wf = true → enc h = enc k → h = k) ∧
  ∀ (o : OpRegs) (st dt payload : List Byte) (h : Header), construct o st dt payload = .ok h →
    wireBit (enc h) 48 = false

/-! ### DECODE -/

/-- 43_decode.md R150, R151: an input that passes the six checks is decoded; every field is read where the wire layout puts
it, bytes beyond the total length are not part of the record, and the command completes. -/
def Obligations.DecodeStoresTheRecord : Prop :=
  ∀ (s : State) (buf : List Byte), InBytes s buf →
    let b := fun i => (byteAt buf i).toNat
    let hlw := b 0 % 16
    let tl := b 2 * 256 + b 3
    let w := b 6 * 256 + b 7
    20 ≤ s.inLen.toNat → b 0 / 16 = 4 → 4 * hlw ≤ s.inLen.toNat → tl ≤ s.inLen.toNat → 5 ≤ hlw → 4 * hlw ≤ tl →
    ∃ h : Header, exec .decode s = .next (filled s h) ∧ h.wf = true ∧
      h.version.toNat = 4 ∧ h.headerLengthWords.toNat = hlw ∧ h.dscp.toNat = b 1 / 4 ∧ h.ecn.toNat = b 1 % 4 ∧
      h.totalLength.toNat = tl ∧ h.identification.toNat = b 4 * 256 + b 5 ∧
      h.rsv.toNat = w / 32768 ∧ h.dontFragment.toNat = w / 16384 % 2 ∧ h.moreFragments.toNat = w / 8192 % 2 ∧
      h.fragmentOffset.toNat = w % 8192 ∧ h.ttl.toNat = b 8 ∧ h.protocol.toNat = b 9 ∧
      h.headerChecksum.toNat = b 10 * 256 + b 11 ∧
      h.sourceAddress = ⟨byteAt buf 12, byteAt buf 13, byteAt buf 14, byteAt buf 15⟩ ∧
      h.destinationAddress = ⟨byteAt buf 16, byteAt buf 17, byteAt buf 18, byteAt buf 19⟩ ∧
      h.options = (buf.drop 20).take (4 * hlw - 20) ∧ h.payload = (buf.drop (4 * hlw)).take (tl - 4 * hlw)

/-- R150, R152: exactly one error is reported, the first of the six checks that fails. -/
def Obligations.DecodeReportsTheFirstFailingCheck : Prop :=
  ∀ (s : State) (buf : List Byte), InBytes s buf →
    let n := s.inLen.toNat
    let ver := (byteAt buf 0).toNat / 16
    let hlw := (byteAt buf 0).toNat % 16
    let tl := (byteAt buf 2).toNat * 256 + (byteAt buf 3).toNat
    (n < 20 → exec .decode s = .next (emptied s .bufferTooShort 0)) ∧
    (20 ≤ n → ver ≠ 4 → exec .decode s = .next (emptied s .invalidVersion (BitVec.ofNat 8 ver))) ∧
    (20 ≤ n → ver = 4 → n < 4 * hlw → exec .decode s = .next (emptied s .bufferTooShort 1)) ∧
    (20 ≤ n → ver = 4 → 4 * hlw ≤ n → n < tl → exec .decode s = .next (emptied s .bufferTooShort 2)) ∧
    (20 ≤ n → ver = 4 → 4 * hlw ≤ n → tl ≤ n → hlw < 5 → exec .decode s = .next (emptied s .lengthMismatch 1)) ∧
    (20 ≤ n → ver = 4 → 4 * hlw ≤ n → tl ≤ n → 5 ≤ hlw → tl < 4 * hlw →
      exec .decode s = .next (emptied s .lengthMismatch 2))

/-- R155 (a): decoding the wire form of a well-formed record gives the record back, in all seventeen attributes. -/
def Obligations.DecodingAnEncodedRecordGivesItBack : Prop := ∀ h : Header, h.wf = true → dec (enc h) = .ok h

/-- R155 (b): encoding a decoded record gives back the packet's bytes, and the record is well-formed. -/
def Obligations.EncodingADecodedPacketGivesItBack : Prop :=
  ∀ (buf : List Byte) (h : Header), dec buf = .ok h → h.wf = true ∧ enc h = buf.take h.totalLength.toNat

/-- R155 (c), R156: out-of-band bytes do not matter. -/
def Obligations.DecodeIgnoresTrailingBytes : Prop :=
  ∀ (buf : List Byte) (h : Header), dec buf = .ok h →
    (∀ t : List Byte, dec (buf ++ t) = .ok h) ∧ dec (buf.take h.totalLength.toNat) = .ok h

/-- 30_encoding.md R103, 43_decode.md R155 (a) on the machine: RELOAD from a state that holds a well-formed record ends with
the same record in the slot and no error. That the host copies what it reads is the model's reading (log 14). -/
def Obligations.ReloadKeepsTheRecord : Prop :=
  ∀ (fw : Nat) (s : State) (h : Header), s.hdr = some h → h.wf = true →
    ∃ t : State, reload fw s = .next t ∧ t.hdr = some h ∧ t.err = none ∧ t.errInfo = 0 ∧ t.ops = s.ops ∧ t.res = s.res

/-! ### The checksum -/

/-- 41_checksum.md R133: CHECKSUM completes; RES is the header checksum and only the status changes besides.
For a record that is not well-formed, which no run reaches, the value of `hcs` is the model's choice (log 7). -/
def Obligations.ChecksumWritesResOnly : Prop :=
  ∀ (s : State) (h : Header), s.hdr = some h →
    exec .checksum s = .next { s with res := hcs h, err := none, errInfo := 0 }

/-- R131 (b): the folded sum is the representative of the exact sum modulo 65535 in 1..65535, and 0 for the sum 0. -/
def Obligations.ChecksumIsTheComplementOfTheSumModulo65535 : Prop :=
  ∀ s : List Byte, ∃ f : Nat, (cksum16 s).toNat = 0xFFFF - f ∧
    (exactSum s = 0 → f = 0) ∧ (exactSum s > 0 → 1 ≤ f ∧ f ≤ 65535 ∧ f % 65535 = exactSum s % 65535)

/-- R131 (c): adding each word with end-around carry into a 16-bit register gives the same checksum. -/
def Obligations.EndAroundCarryGivesTheSameChecksum : Prop :=
  ∀ s : List Byte, (cksum16 s).toNat = 0xFFFF - endAroundSum s

/-- R132, R134: the header checksum does not depend on the stored checksum or on the payload's bytes, and is never 0xFFFF.
R132 gives `hcs` for well-formed records only: with a payload of another length the record is not well-formed, and that `hcs` is
the same there too is the model's choice (log 7). -/
def Obligations.HeaderChecksumIgnoresPayloadAndStoredValue : Prop :=
  (∀ (h : Header) (c : Word16) (p : List Byte), h.wf = true →
    hcs { h with headerChecksum := c, payload := p } = hcs h) ∧
  ∀ h : Header, h.wf = true → hcs h ≠ 0xFFFF#16

/-- R136: the sum-to-zero law, its converse up to the stored 0xFFFF, and that VERIFY distinguishes the two zeros. -/
def Obligations.HeaderWithItsChecksumSumsToZero : Prop :=
  ∀ h : Header, h.wf = true →
    (h.headerChecksum = hcs h → cksum16 ((enc h).take (4 * h.headerLengthWords.toNat)) = 0) ∧
    (cksum16 ((enc h).take (4 * h.headerLengthWords.toNat)) = 0 →
      h.headerChecksum = hcs h ∨ (h.headerChecksum = 0xFFFF#16 ∧ hcs h = 0)) ∧
    (hcs h = 0 → cksum16 ((enc { h with headerChecksum := 0xFFFF#16 }).take (4 * h.headerLengthWords.toNat)) = 0 ∧
      verify { h with headerChecksum := 0xFFFF#16 } = false)

/-! ### VERIFY and RECOMPUTE -/

/-- 44_verify.md R170, R171: VERIFY completes; RES is 1 exactly when the computed checksum equals the stored one.
For a record that is not well-formed, which no run reaches, the value of `hcs` is the model's choice (log 7). -/
def Obligations.VerifyComparesTheChecksums : Prop :=
  ∀ (s : State) (h : Header), s.hdr = some h →
    exec .verify s =
      .next { s with res := if hcs h = h.headerChecksum then 1 else 0, err := none, errInfo := 0 }

/-- R172: RECOMPUTE completes; the computed checksum goes to the record and to RES, and the stream is closed. For a
record that is not well-formed, which no run reaches, the value of `hcs` is the model's choice (log 7). -/
def Obligations.RecomputeAttachesTheChecksum : Prop :=
  ∀ (s : State) (h : Header), s.hdr = some h →
    exec .recompute s =
      .next { s with hdr := some { h with headerChecksum := hcs h }, res := hcs h, bsActive := false, bsPos := 0,
                     err := none, errInfo := 0 }

/-- R174 (a): VERIFY directly after RECOMPUTE writes 1. -/
def Obligations.VerifyAfterRecomputeSucceeds : Prop :=
  ∀ (s : State) (h : Header), s.hdr = some h → h.wf = true →
    ∃ t u : State, exec .recompute s = .next t ∧ exec .verify t = .next u ∧ u.res = 1 ∧ u.hdr = t.hdr

/-- R173: RECOMPUTE is idempotent and does not depend on the old checksum. -/
def Obligations.RecomputeIsIdempotent : Prop :=
  (∀ (s : State) (h : Header), s.hdr = some h → h.wf = true →
    ∃ t u : State, exec .recompute s = .next t ∧ exec .recompute t = .next u ∧ u.hdr = t.hdr ∧ u.res = t.res) ∧
  ∀ (s : State) (h : Header) (c : Word16), s.hdr = some h → h.wf = true →
    exec .recompute { s with hdr := some { h with headerChecksum := c } } = exec .recompute s

/-- R174 (b), the rows for the checksum field and for every other header bit that is not in the version or a length: the
flipped packet decodes, and no longer verifies. -/
def Obligations.FlippedHeaderBitFailsVerification : Prop :=
  ∀ (h : Header) (p : Nat), h.wf = true → verify h = true → 8 ≤ p → p < 32 * h.headerLengthWords.toNat →
    ¬ (16 ≤ p ∧ p < 32) →
    ∃ k : Header, dec (flipBit (enc h) p) = .ok k ∧ verify k = false

/-- R174 (b), the rows for the version, the header length and the total length, and the payload's exemption. -/
def Obligations.FlippedVersionOrLengthBitOutcomes : Prop :=
  ∀ (h : Header) (p : Nat), h.wf = true → verify h = true →
    (p < 4 → ∃ v, dec (flipBit (enc h) p) = .error ⟨.invalidVersion, v⟩) ∧
    (4 ≤ p → p < 8 → ∀ r, dec (flipBit (enc h) p) = r →
      r = .error ⟨.bufferTooShort, 1⟩ ∨ r = .error ⟨.lengthMismatch, 1⟩ ∨ r = .error ⟨.lengthMismatch, 2⟩ ∨
      ∃ k : Header, r = .ok k ∧ k.headerLengthWords ≠ h.headerLengthWords) ∧
    (16 ≤ p → p < 32 → wireBit (enc h) p = false → dec (flipBit (enc h) p) = .error ⟨.bufferTooShort, 2⟩) ∧
    (16 ≤ p → p < 32 → wireBit (enc h) p = true →
      (h.totalLength.toNat - 2 ^ (31 - p) < 4 * h.headerLengthWords.toNat →
        dec (flipBit (enc h) p) = .error ⟨.lengthMismatch, 2⟩) ∧
      (4 * h.headerLengthWords.toNat ≤ h.totalLength.toNat - 2 ^ (31 - p) →
        ∃ k : Header, dec (flipBit (enc h) p) = .ok k ∧ k.payload.length < h.payload.length ∧ verify k = false)) ∧
    (32 * h.headerLengthWords.toNat ≤ p → p < 8 * h.totalLength.toNat →
      ∃ k : Header, dec (flipBit (enc h) p) = .ok k ∧ verify k = true)

/-! ### BINSTR and the bit-string stream -/

/-- 45_binstr.md R182: BINSTR completes; the stream is open at position 0 and only the status changes besides. -/
def Obligations.BinstrOpensTheStreamAtZero : Prop :=
  ∀ (s : State) (h : Header), s.hdr = some h →
    exec .binstr s = .next { s with bsActive := true, bsPos := 0, err := none, errInfo := 0 }

/-- R183: the three cases of a read of BS_CHAR, on every state of the invariant (10_state.md R43 (b): an open stream has a
record). It is legal in every one of them, changes no status, and no other host read changes the machine. The list of
returned values is the model's choice (log 2); the codes of the characters are general knowledge in the spec itself
(93_implementation_defined.md G2, log 12). -/
def Obligations.BsCharReadReturnsTheNextCharacter : Prop :=
  (∀ (fw : Nat) (s : State), Inv fw s →
    (s.bsActive = false → hostAct fw (.read Reg.bsChar.number) s = .next { s with returned := 0 :: s.returned }) ∧
    (s.bsActive = true → ∃ h, s.hdr = some h ∧
      (8 * h.totalLength.toNat ≤ s.bsPos.toNat →
        hostAct fw (.read Reg.bsChar.number) s = .next { s with returned := 0 :: s.returned }) ∧
      (s.bsPos.toNat < 8 * h.totalLength.toNat →
        ∃ t, hostAct fw (.read Reg.bsChar.number) s = .next t ∧ t.bsPos.toNat = s.bsPos.toNat + 1 ∧
          t.returned = (0x30 + (if (byteAt (enc h) (s.bsPos.toNat / 8)).getLsbD (7 - s.bsPos.toNat % 8) then 1 else 0))
            :: s.returned ∧
          t = { s with bsPos := t.bsPos, returned := t.returned }))) ∧
  ∀ (fw r : Nat) (s t : State), r ≠ Reg.bsChar.number → hostAct fw (.read r) s = .next t →
    ∃ v, t = { s with returned := v :: s.returned }

/-- R185 (a), (c), (d): BINSTR and `8 * total_length` reads of BS_CHAR return every character of the string, each 0x30 or
0x31, from whatever position the stream stood at before, and every further read returns 0x00. That the values read stand in
a list, the latest first, is the model's choice (log 2); the codes of the characters are general knowledge in the spec
itself (93_implementation_defined.md G2, log 12). -/
def Obligations.TheStreamYieldsEveryBitThenZero : Prop :=
  ∀ (fw k : Nat) (s : State) (h : Header), s.hdr = some h → h.wf = true →
    ∃ t : State,
      runActions fw (cmdAction .binstr :: List.replicate (8 * h.totalLength.toNat + k) (.read Reg.bsChar.number)) s =
        .next t ∧
      t.returned = List.replicate k 0 ++ ((binstr h).map BitVec.toNat).reverse ++ s.returned ∧
      (binstr h).length = 8 * h.totalLength.toNat ∧ (∀ c ∈ binstr h, c = 0x30#8 ∨ c = 0x31#8) ∧
      t.bsActive = true ∧ t.bsPos.toNat = 8 * h.totalLength.toNat ∧ t.hdr = some h

/-- R185 (b): the characters taken eight at a time as binary numerals, most significant first, are the encoded bytes. For a
record that is not well-formed, which no run reaches, `enc` and `binstr` are the model's choice (log 7). The codes of the
characters are general knowledge in the spec itself (93_implementation_defined.md G2, log 12). -/
def Obligations.TheBitStringSpellsTheEncodedBytes : Prop :=
  ∀ (h : Header) (k : Nat), k < (enc h).length →
    (((List.range 8).map (fun j => (byteAt (binstr h) (8 * k + j)).toNat - 0x30)).foldl (fun v d => v * 2 + d) 0) =
      (byteAt (enc h) k).toNat

/-- R184: CONSTRUCT and DECODE, successful or failing, and a successful RECOMPUTE close the stream; BINSTR restarts it; every
other command, an illegal word, a refused header and every other host action leave it where it was, but for the BS_CHAR
read's advance. -/
def Obligations.WhatClosesTheStream : Prop :=
  (∀ (i : Instr) (s t : State), exec i s = .next t →
    ((i = .construct ∨ i = .decode ∨ (i = .recompute ∧ s.hdr ≠ none)) → t.bsActive = false ∧ t.bsPos = 0) ∧
    (i = .binstr ∧ s.hdr ≠ none → t.bsActive = true ∧ t.bsPos = 0) ∧
    ((i = .checksum ∨ i = .encode ∨ i = .verify ∨ (NeedsHeader i ∧ s.hdr = none)) →
      t.bsActive = s.bsActive ∧ t.bsPos = s.bsPos)) ∧
  (∀ (c : Byte) (s t : State) (e : DecodeError), decode c = .error e → issueCommand c s = .next t →
    t.bsActive = s.bsActive ∧ t.bsPos = s.bsPos) ∧
  ∀ (fw : Nat) (a : HostAction) (s t : State), ¬ IssuesCommand a → a ≠ .reset → a ≠ .read Reg.bsChar.number →
    hostAct fw a s = .next t → t.bsActive = s.bsActive ∧ t.bsPos = s.bsPos

/-! ### Frames and errors -/

/-- 10_state.md R45, R25 to R29: no command, successful or failing, changes an operand register, an operand length, or a
byte of IN, PAY, SRC_TXT or DST_TXT; the host's script and what it has read stay too. The script and the list of values read
are the model's choices (logs 1, 2). -/
def Obligations.CommandsLeaveTheOperandsAlone : Prop :=
  ∀ (i : Instr) (s t : State), exec i s = .next t →
    t.ops = s.ops ∧ t.srcTxtLen = s.srcTxtLen ∧ t.dstTxtLen = s.dstTxtLen ∧ t.payLen = s.payLen ∧ t.inLen = s.inLen ∧
    (∀ (sp : Space) (a : Nat), sp ≠ .out → t.byteOf sp a = s.byteOf sp a) ∧
    t.script = s.script ∧ t.returned = s.returned

/-- 10_state.md R30, R31, R45: OUT and OUT_LEN change by a successful ENCODE only, and of OUT only the bytes it stores from
index 0; RES changes by a successful CHECKSUM, VERIFY or RECOMPUTE only. How many bytes ENCODE stores of a record that is
not well-formed, which no run reaches, is the model's choice (log 7). -/
def Obligations.CommandsLeaveOtherResultsAlone : Prop :=
  ∀ (i : Instr) (s t : State), exec i s = .next t →
    (i ≠ .encode ∨ t.err ≠ none → t.outLen = s.outLen ∧ ∀ a, t.byteOf .out a = s.byteOf .out a) ∧
    (∀ h, i = .encode → s.hdr = some h → ∀ a, (enc h).length ≤ a → t.byteOf .out a = s.byteOf .out a) ∧
    ((i ≠ .checksum ∧ i ≠ .verify ∧ i ≠ .recompute) ∨ t.err ≠ none → t.res = s.res)

/-- R24: no action but a command CONSTRUCT, DECODE or RECOMPUTE, or reset, changes the slot, and RECOMPUTE changes the
checksum only. For a record that is not well-formed, which no run reaches, the value of `hcs` is the model's choice (log 7). -/
def Obligations.TheRecordIsImmutable : Prop :=
  (∀ (fw : Nat) (a : HostAction) (s t : State), hostAct fw a s = .next t → a ≠ .reset →
    (∀ i ∈ [Instr.construct, .decode, .recompute], a ≠ cmdAction i) → t.hdr = s.hdr) ∧
  ∀ (s t : State), exec .recompute s = .next t →
    t.hdr = s.hdr.map (fun h => { h with headerChecksum := hcs h })

/-- 60_exceptions.md R195: what an error does to the state, for every command word. -/
def Obligations.AnErrorChangesTheStatusOnly : Prop :=
  ∀ (c : Byte) (s t : State) (k : ErrorKind), issueCommand c s = .next t → t.err = some k →
    ((decode c = .ok .construct ∨ decode c = .ok .decode) → t = emptied s k t.errInfo) ∧
    (¬ (decode c = .ok .construct ∨ decode c = .ok .decode) → t = { s with err := some k, errInfo := t.errInfo })

/-- R191, R192: which command can raise which kind, and the information recorded with each; 0 on success. -/
def Obligations.ErrorKindsAndInformationOfEachCommand : Prop :=
  ∀ (i : Instr) (s t : State), exec i s = .next t →
    (∀ k, t.err = some k → MayRaise i k t.errInfo.toNat) ∧ (t.err = none → t.errInfo = 0)

/-- R198: issuing a failed command word again at once, its operands unchanged, fails again with the same kind and information
and changes nothing. -/
def Obligations.AFailedCommandFailsAgain : Prop :=
  ∀ (c : Byte) (s t : State) (k : ErrorKind), issueCommand c s = .next t → t.err = some k → issueCommand c t = .next t

/-- R10: the outcome of a command, every register and buffer it writes with its error, is a function of the state its rule
names as read: two states that agree on it end alike. What a command makes of a record that is not well-formed, which no run
reaches, is the model's choice (log 7). Bytes never written agree where both hold no value (log 3), and that a command may
complete with such bytes inside its operands is the model's reading (log 4). -/
def Obligations.CommandResultsDependOnTheirOperandsOnly : Prop :=
  (∀ (i : Instr) (s t s' t' : State), NeedsHeader i → s.hdr = s'.hdr → exec i s = .next t → exec i s' = .next t' →
    t.hdr = t'.hdr ∧ t.err = t'.err ∧ t.errInfo = t'.errInfo ∧ t.status.extractLsb' 0 5 = t'.status.extractLsb' 0 5 ∧
    (t.err = none → i = .checksum ∨ i = .verify ∨ i = .recompute → t.res = t'.res) ∧
    (t.err = none → i = .binstr ∨ i = .recompute →
      t.bsActive = t'.bsActive ∧ t.bsPos = t'.bsPos ∧ t.status = t'.status) ∧
    (t.err = none → i = .encode → t.outLen = t'.outLen ∧
      ∀ h, s.hdr = some h → ∀ a, a < (enc h).length → t.byteOf .out a = t'.byteOf .out a)) ∧
  (∀ (s t s' : State), s.inLen = s'.inLen → (∀ a, a < s.inLen.toNat → s.byteOf .input a = s'.byteOf .input a) →
    exec .decode s = .next t →
    ∃ t', exec .decode s' = .next t' ∧ t.hdr = t'.hdr ∧ t.err = t'.err ∧ t.errInfo = t'.errInfo ∧
      t.bsActive = t'.bsActive ∧ t.bsPos = t'.bsPos ∧ t.status = t'.status) ∧
  ∀ (s t s' : State), s.ops = s'.ops → s.srcTxtLen = s'.srcTxtLen → s.dstTxtLen = s'.dstTxtLen →
    s.payLen = s'.payLen → (∀ a, a < s.srcTxtLen.toNat → s.byteOf .srcTxt a = s'.byteOf .srcTxt a) →
    (∀ a, a < s.dstTxtLen.toNat → s.byteOf .dstTxt a = s'.byteOf .dstTxt a) →
    (∀ a, a < s.payLen.toNat → s.byteOf .pay a = s'.byteOf .pay a) →
    exec .construct s = .next t →
    ∃ t', exec .construct s' = .next t' ∧ t.hdr = t'.hdr ∧ t.err = t'.err ∧ t.errInfo = t'.errInfo ∧
      t.bsActive = t'.bsActive ∧ t.bsPos = t'.bsPos ∧ t.status = t'.status

/-! ### The host interface -/

/-- 20_memory.md R66, 60_exceptions.md R206: an action other than a command is performed exactly when it meets its
`requires` line (and, for a BufRead of a storage space, its byte has been written), and is refused otherwise; a value of 256
or more written to CMD is refused too. R66's line for a BufRead does not ask for a written byte: that a byte never written
holds no value, so that its read is refused, is the model's choice between R76's two treatments (log 3). That a violation is
a refusal with a name of its own is the model's reading (log 8). -/
def Obligations.HostActionsArePerformedExactlyWhenAllowed : Prop :=
  ∀ (fw : Nat) (a : HostAction) (s : State), ¬ IssuesCommand a →
    (MeetsRequires fw s a → ∃ t, hostAct fw a s = .next t) ∧
    (¬ MeetsRequires fw s a → ∃ r, hostAct fw a s = .refused r) ∧
    ∀ c, 256 ≤ c → hostAct fw (.write Reg.cmd.number c) s = .refused (.valueTooWide .cmd c)

/-- R66, R63: a write of a read-write register stores the value whole and changes nothing else, for every FW. The script and
the list of values read, which stay, are the model's choices (logs 1, 2). -/
def Obligations.HostWriteStoresTheRegisterOnly : Prop :=
  ∀ (fw : Nat) (s : State) (r : Reg) (v : Nat), r.access = .readWrite → v < 2 ^ r.width fw →
    ∃ t, hostAct fw (.write r.number v) s = .next t ∧ t.regValue r = some v ∧
      (∀ q, q ≠ r → t.regValue q = s.regValue q) ∧ (∀ sp a, t.byteOf sp a = s.byteOf sp a) ∧ t.hdr = s.hdr ∧
      t.script = s.script ∧ t.returned = s.returned

/-- R66, R70: a buffer write stores one byte and changes nothing else; a read of that byte then returns it. That the values
read stand in a list, the latest first, is the model's choice (log 2), as is the script that stays (log 1). -/
def Obligations.BufWriteStoresOneByteOnly : Prop :=
  ∀ (fw : Nat) (s : State) (sp : Space) (i b : Nat),
    (sp = .input ∨ sp = .pay ∨ sp = .srcTxt ∨ sp = .dstTxt) → i < sp.capacity → b < 256 →
    ∃ t, hostAct fw (.bufWrite sp.number i b) s = .next t ∧ t.byteOf sp i = some (BitVec.ofNat 8 b) ∧
      hostAct fw (.bufRead sp.number i) t = .next { t with returned := b :: t.returned } ∧
      (∀ q a, ¬ (q = sp ∧ a = i) → t.byteOf q a = s.byteOf q a) ∧ (∀ q, t.regValue q = s.regValue q) ∧ t.hdr = s.hdr ∧
      t.script = s.script ∧ t.returned = s.returned

/-- R66, R67: a read returns the register's or the byte's value; apart from the BS_CHAR read it changes nothing; and no host
action but a command and reset changes the status, the results or the operands of another register. The list of returned
values, and what is read of a record that is not well-formed, which no run reaches, are the model's choices (logs 2, 7). -/
def Obligations.HostReadsReturnTheValueAndChangeNothing : Prop :=
  (∀ (fw : Nat) (s : State) (r : Reg) (v : Nat), r ≠ .bsChar → s.regValue r = some v →
    hostAct fw (.read r.number) s = .next { s with returned := v :: s.returned }) ∧
  (∀ (fw : Nat) (s : State) (sp : Space) (i : Nat) (b : Byte), i < sp.capacity → s.byteOf sp i = some b →
    hostAct fw (.bufRead sp.number i) s = .next { s with returned := b.toNat :: s.returned }) ∧
  (∀ (fw : Nat) (s : State) (h : Header) (i : Nat) (b : Byte), s.hdr = some h → i < 40 → h.options[i]? = some b →
    hostAct fw (.bufRead 5 i) s = .next { s with returned := b.toNat :: s.returned }) ∧
  (∀ (fw : Nat) (s : State) (h : Header) (i : Nat) (b : Byte), s.hdr = some h → i < 65515 → h.payload[i]? = some b →
    hostAct fw (.bufRead 6 i) s = .next { s with returned := b.toNat :: s.returned }) ∧
  ∀ (fw : Nat) (a : HostAction) (s t : State), ¬ IssuesCommand a → a ≠ .reset → hostAct fw a s = .next t →
    t.err = s.err ∧ t.errInfo = s.errInfo ∧ t.res = s.res ∧ t.out = s.out ∧ t.outLen = s.outLen

/-- R61, R76: a command consumes only bytes inside its operand's length: with every such byte written, every command
completes. That a text of length above 16 consumes no byte is the model's reading (log 4). -/
def Obligations.CommandsCompleteOnWrittenOperands : Prop :=
  ∀ (i : Instr) (s : State),
    (∀ a, a < s.inLen.toNat → s.byteOf .input a ≠ none) → (∀ a, a < s.payLen.toNat → s.byteOf .pay a ≠ none) →
    (s.srcTxtLen.toNat ≤ 16 → ∀ a, a < s.srcTxtLen.toNat → s.byteOf .srcTxt a ≠ none) →
    (s.dstTxtLen.toNat ≤ 16 → ∀ a, a < s.dstTxtLen.toNat → s.byteOf .dstTxt a ≠ none) →
    ∃ t, exec i s = .next t

/-- R76, 60_exceptions.md R206: a command whose outcome needs a byte never written is refused, and so is a BufRead of one.
DECODE of an input of at least 20 bytes needs byte 0; once the version and the header length pass, bytes 2 and 3; once all
six checks pass, every byte below the total length. CONSTRUCT, with the lengths and ranges in order, needs the source text;
where that parses, the destination text; where that parses too, the payload. The refusal names the first byte of those
needed that holds no value. Which bytes an outcome needs is the model's reading (log 4). That a byte never written holds no
value is R76's preferred treatment (log 3), and that the refusal has a name is the model's reading (log 8). -/
def Obligations.ConsumingAnUnwrittenByteIsRefused : Prop :=
  (∀ s : State, 20 ≤ s.inLen.toNat → s.byteOf .input 0 = none →
    exec .decode s = .refused (.unwrittenByte .input 0)) ∧
  (∀ (s : State) (b0 : Byte), 20 ≤ s.inLen.toNat → s.byteOf .input 0 = some b0 → b0.toNat / 16 = 4 →
    4 * (b0.toNat % 16) ≤ s.inLen.toNat →
    (s.byteOf .input 2 = none → exec .decode s = .refused (.unwrittenByte .input 2)) ∧
    (s.byteOf .input 2 ≠ none → s.byteOf .input 3 = none → exec .decode s = .refused (.unwrittenByte .input 3))) ∧
  (∀ (s : State) (b0 b2 b3 : Byte) (a : Nat), 20 ≤ s.inLen.toNat →
    s.byteOf .input 0 = some b0 → s.byteOf .input 2 = some b2 → s.byteOf .input 3 = some b3 → b0.toNat / 16 = 4 →
    5 ≤ b0.toNat % 16 → 4 * (b0.toNat % 16) ≤ b2.toNat * 256 + b3.toNat →
    b2.toNat * 256 + b3.toNat ≤ s.inLen.toNat → a < b2.toNat * 256 + b3.toNat → s.byteOf .input a = none →
    ∃ j, j ≤ a ∧ FirstUnwritten s .input j ∧ exec .decode s = .refused (.unwrittenByte .input j)) ∧
  (∀ (s : State), s.ops.totalLength = 4 * s.ops.hlw + s.payLen.toNat → (∀ k, ¬ FieldOutOfRange s.ops k) →
    (∀ a, s.srcTxtLen.toNat ≤ 16 → a < s.srcTxtLen.toNat → s.byteOf .srcTxt a = none →
      ∃ j, j ≤ a ∧ FirstUnwritten s .srcTxt j ∧ exec .construct s = .refused (.unwrittenByte .srcTxt j)) ∧
    ∀ (st : List Byte) (src : Addr), SrcText s st → dqParse st = some src →
      (∀ a, s.dstTxtLen.toNat ≤ 16 → a < s.dstTxtLen.toNat → s.byteOf .dstTxt a = none →
        ∃ j, j ≤ a ∧ FirstUnwritten s .dstTxt j ∧ exec .construct s = .refused (.unwrittenByte .dstTxt j)) ∧
      ∀ (dt : List Byte) (dst : Addr), DstText s dt → dqParse dt = some dst →
        ∀ a, a < s.payLen.toNat → s.byteOf .pay a = none →
          ∃ j, j ≤ a ∧ FirstUnwritten s .pay j ∧ exec .construct s = .refused (.unwrittenByte .pay j)) ∧
  ∀ (fw : Nat) (s : State) (sp : Space) (i : Nat), sp ≠ .hOpt → sp ≠ .hPay → i < sp.capacity →
    s.byteOf sp i = none → hostAct fw (.bufRead sp.number i) s = .refused (.unwrittenByte sp i)

/-- 10_state.md R32: the fields of STATUS; 60_exceptions.md R190: the codes of its field ERR. -/
def Obligations.StatusRegisterFields : Prop :=
  (∀ s : State, s.regValue .status =
    some ((errCode s.err).toNat + (if s.hdr = none then 0 else 16) + (if s.bsActive then 32 else 0))) ∧
  [none, some .invalidFieldRange, some .lengthMismatch, some .invalidAddressFormat, some .bufferTooShort,
    some .invalidVersion, some .noHeader, some .illegalCommand].map (fun e => (errCode e).toNat) =
    [0, 1, 2, 3, 4, 5, 6, 7]

/-- 10_state.md R36: what each H_* port and each view HOPT and HPAY shows of the record in the slot, at the numbers, widths
and capacities of R37 and R38; 20_memory.md R66 and R67, 60_exceptions.md R206: a read with an empty slot, or at or beyond a
view's length or capacity, is refused, and so is every write, since the host has no write access to the record (R24, R37,
R38); 20_memory.md R78: the ports agree with the wire bytes of the record. That the values read stand in a list is the
model's choice (log 2), and that a violation is a refusal with a name of its own is the model's reading (log 8). What a read
shows of a record that is not well-formed, which no run reaches, also where it exceeds the port's width, is the model's
choice (log 7). The octet order of an address is general knowledge in the spec itself (93_implementation_defined.md G1, log
12). -/
def Obligations.RecordPortsAgreeWithTheWire : Prop :=
  (∀ (fw : Nat) (s : State),
    RecordPortRow fw s .hVersion 0x30 4 (fun h => h.version.toNat) ∧
    RecordPortRow fw s .hHlw 0x31 4 (fun h => h.headerLengthWords.toNat) ∧
    RecordPortRow fw s .hDscp 0x32 6 (fun h => h.dscp.toNat) ∧
    RecordPortRow fw s .hEcn 0x33 2 (fun h => h.ecn.toNat) ∧
    RecordPortRow fw s .hTotalLength 0x34 16 (fun h => h.totalLength.toNat) ∧
    RecordPortRow fw s .hIdentification 0x35 16 (fun h => h.identification.toNat) ∧
    RecordPortRow fw s .hDf 0x36 1 (fun h => if h.dontFragment then 1 else 0) ∧
    RecordPortRow fw s .hMf 0x37 1 (fun h => if h.moreFragments then 1 else 0) ∧
    RecordPortRow fw s .hFragmentOffset 0x38 13 (fun h => h.fragmentOffset.toNat) ∧
    RecordPortRow fw s .hTtl 0x39 8 (fun h => h.ttl.toNat) ∧
    RecordPortRow fw s .hProtocol 0x3A 8 (fun h => h.protocol.toNat) ∧
    RecordPortRow fw s .hHeaderChecksum 0x3B 16 (fun h => h.headerChecksum.toNat) ∧
    RecordPortRow fw s .hSrc 0x3C 32 (fun h => h.sourceAddress.a.toNat * 2 ^ 24 + h.sourceAddress.b.toNat * 2 ^ 16 +
      h.sourceAddress.c.toNat * 2 ^ 8 + h.sourceAddress.d.toNat) ∧
    RecordPortRow fw s .hDst 0x3D 32 (fun h => h.destinationAddress.a.toNat * 2 ^ 24 +
      h.destinationAddress.b.toNat * 2 ^ 16 + h.destinationAddress.c.toNat * 2 ^ 8 + h.destinationAddress.d.toNat) ∧
    RecordPortRow fw s .hPayLen 0x3E 16 (fun h => h.payload.length) ∧
    RecordPortRow fw s .hRsv 0x3F 1 (fun h => if h.rsv then 1 else 0) ∧
    RecordPortRow fw s .hOptLen 0x40 6 (fun h => h.options.length) ∧
    RecordViewRow fw s .hOpt 5 40 (fun h => h.options) ∧
    RecordViewRow fw s .hPay 6 65515 (fun h => h.payload)) ∧
  ∀ (s : State) (h : Header), s.hdr = some h → h.wf = true →
    let w := fun i => (byteAt (enc h) i).toNat
    s.regValue .hTotalLength = some (w 2 * 256 + w 3) ∧ s.regValue .hIdentification = some (w 4 * 256 + w 5) ∧
    s.regValue .hHeaderChecksum = some (w 10 * 256 + w 11) ∧
    s.regValue .hSrc = some (w 12 * 2 ^ 24 + w 13 * 2 ^ 16 + w 14 * 2 ^ 8 + w 15) ∧
    s.regValue .hDst = some (w 16 * 2 ^ 24 + w 17 * 2 ^ 16 + w 18 * 2 ^ 8 + w 19)

/-- 30_encoding.md R104: a trace line stands for exactly the host action it was written from. The letter case and the
spacing of a line are the model's reading (log 14). -/
def Obligations.TraceLinesReadBack : Prop :=
  ∀ (a : HostAction) (l : List Char), traceLine a = some l → parseTrace l = some a

/-- 20_memory.md R75: actions on different instances commute. That the instances stand in a list, and that a refused action
leads to none, is the model's choice (log 11). -/
def Obligations.ActionsOnDifferentInstancesCommute : Prop :=
  ∀ (fw j k : Nat) (a b : HostAction) (xs : Instances), j ≠ k →
    (actOn fw j a xs).bind (actOn fw k b) = (actOn fw k b xs).bind (actOn fw j a)

/-! ### Reset and the invariant -/

/-- 10_state.md R44: the reset values. That the unspecified contents of a byte are no value is 20_memory.md R76's
treatment (log 3). -/
def Obligations.ResetValues : Prop :=
  State.reset.hdr = none ∧ State.reset.regValue .status = some 0 ∧ State.reset.errInfo = 0 ∧ State.reset.res = 0 ∧
  State.reset.inLen = 0 ∧ State.reset.outLen = 0 ∧ State.reset.payLen = 0 ∧ State.reset.srcTxtLen = 0 ∧
  State.reset.dstTxtLen = 0 ∧ State.reset.bsActive = false ∧ State.reset.bsPos = 0 ∧
  (∀ r ∈ [Reg.opVersion, .opHlw, .opDscp, .opEcn, .opTotalLength, .opIdentification, .opDf, .opMf, .opFragmentOffset,
    .opTtl, .opProtocol, .opHeaderChecksum], State.reset.regValue r = some 0) ∧
  ∀ sp i, State.reset.byteOf sp i = none

/-- 70_reset_and_hazards.md R220: the reset event puts every element of the codec at its reset value from any state, and is
idempotent. That it leaves the host's script and what the host has read is the model's choice (log 9). That the buffers'
bytes hold no value again is R76's treatment (logs 3, 9). -/
def Obligations.ResetPutsEveryElementAtItsResetValue : Prop :=
  ∀ (fw : Nat) (s : State),
    hostAct fw .reset s = .next { State.reset with script := s.script, returned := s.returned } ∧
    ∀ t, hostAct fw .reset s = .next t → hostAct fw .reset t = .next t

/-- The invariant holds after reset, for every FW. Operand registers as natural numbers and the buffers' canonical form are
the model's (logs 3, 6). -/
def Obligations.ResetMeetsTheInvariant : Prop := ∀ fw, Inv fw State.reset

/-- 10_state.md R43 with R25 and the buffers' form: every step keeps the invariant, for every FW. step is the case of the
default FW (log 5); the script it reads, operand registers as natural numbers and the buffers' canonical form are the
model's (logs 1, 3, 6). -/
def Obligations.EveryStepKeepsTheInvariant : Prop :=
  (∀ (fw : Nat) (s t : State), Inv fw s → stepWith fw s = .next t → Inv fw t) ∧
  ∀ s t : State, Inv Config.fw s → step s = .next t → Inv Config.fw t

/-! ### The register map and the space map -/

/-- 10_state.md R37: the number, width, access, shown value and stored field of every register that is no view of the record
(those are in `RecordPortsAgreeWithTheWire`); CMD reads 0 and executes what is written (R34); the read of BS_CHAR returns
one byte (its value is 45_binstr.md R183's, `BsCharReadReturnsTheNextCharacter`); a number that is not listed is refused
(R66, R206). The list of returned values, operand registers as natural numbers and the refusals are the model's (logs 2, 6,
8). -/
def Obligations.RegisterMap : Prop :=
  (∀ (fw : Nat) (s : State),
    ReadWriteRow fw s .inLen 0x04 16 s.inLen.toNat (fun v => { s with inLen := BitVec.ofNat 16 v }) ∧
    ReadWriteRow fw s .opVersion 0x10 fw s.ops.version (fun v => { s with ops := { s.ops with version := v } }) ∧
    ReadWriteRow fw s .opHlw 0x11 fw s.ops.hlw (fun v => { s with ops := { s.ops with hlw := v } }) ∧
    ReadWriteRow fw s .opDscp 0x12 fw s.ops.dscp (fun v => { s with ops := { s.ops with dscp := v } }) ∧
    ReadWriteRow fw s .opEcn 0x13 fw s.ops.ecn (fun v => { s with ops := { s.ops with ecn := v } }) ∧
    ReadWriteRow fw s .opTotalLength 0x14 fw s.ops.totalLength
      (fun v => { s with ops := { s.ops with totalLength := v } }) ∧
    ReadWriteRow fw s .opIdentification 0x15 fw s.ops.identification
      (fun v => { s with ops := { s.ops with identification := v } }) ∧
    ReadWriteRow fw s .opDf 0x16 1 (if s.ops.df then 1 else 0)
      (fun v => { s with ops := { s.ops with df := decide (v = 1) } }) ∧
    ReadWriteRow fw s .opMf 0x17 1 (if s.ops.mf then 1 else 0)
      (fun v => { s with ops := { s.ops with mf := decide (v = 1) } }) ∧
    ReadWriteRow fw s .opFragmentOffset 0x18 fw s.ops.fragmentOffset
      (fun v => { s with ops := { s.ops with fragmentOffset := v } }) ∧
    ReadWriteRow fw s .opTtl 0x19 fw s.ops.ttl (fun v => { s with ops := { s.ops with ttl := v } }) ∧
    ReadWriteRow fw s .opProtocol 0x1A fw s.ops.protocol (fun v => { s with ops := { s.ops with protocol := v } }) ∧
    ReadWriteRow fw s .opHeaderChecksum 0x1B fw s.ops.headerChecksum
      (fun v => { s with ops := { s.ops with headerChecksum := v } }) ∧
    ReadWriteRow fw s .srcTxtLen 0x1C 5 s.srcTxtLen.toNat (fun v => { s with srcTxtLen := BitVec.ofNat 5 v }) ∧
    ReadWriteRow fw s .dstTxtLen 0x1D 5 s.dstTxtLen.toNat (fun v => { s with dstTxtLen := BitVec.ofNat 5 v }) ∧
    ReadWriteRow fw s .payLen 0x1E 16 s.payLen.toNat (fun v => { s with payLen := BitVec.ofNat 16 v }) ∧
    ReadOnlyRow fw s .status 0x01 8 s.status.toNat ∧ ReadOnlyRow fw s .errInfo 0x02 8 s.errInfo.toNat ∧
    ReadOnlyRow fw s .res 0x03 16 s.res.toNat ∧ ReadOnlyRow fw s .outLen 0x05 16 s.outLen.toNat ∧
    ReadOnlyRow fw s .bsPos 0x06 19 s.bsPos.toNat) ∧
  (∀ (fw : Nat) (s : State),
    (Reg.cmd.number = 0x00 ∧ Reg.cmd.width fw = 8 ∧ Reg.cmd.access = .writeOnly) ∧ Returns fw (.read 0x00) s 0 ∧
    (∀ c, c < 2 ^ 8 → hostAct fw (.write 0x00 c) s = issueCommand (BitVec.ofNat 8 c) s) ∧
    ∀ c, 2 ^ 8 ≤ c → Refused fw (.write 0x00 c) s) ∧
  (∀ (fw : Nat) (s : State),
    (Reg.bsChar.number = 0x07 ∧ Reg.bsChar.width fw = 8 ∧ Reg.bsChar.access = .readOnly) ∧
    (∃ t c, hostAct fw (.read 0x07) s = .next t ∧ t.returned = c :: s.returned ∧ c < 2 ^ 8) ∧
    ∀ v, Refused fw (.write 0x07 v) s) ∧
  ∀ (fw n : Nat) (s : State), (0x08 ≤ n ∧ n ≤ 0x0F) ∨ (0x1F ≤ n ∧ n ≤ 0x2F) ∨ 0x41 ≤ n →
    Refused fw (.read n) s ∧ ∀ v, Refused fw (.write n v) s

/-- 10_state.md R38: the number, capacity, access, contents and length register of every space (the reads of the views HOPT
and HPAY are in `RecordPortsAgreeWithTheWire`); OUT cannot be written; a number that is not listed is refused (R66, R206).
The list of returned values, that a byte never written holds no value, and the refusals are the model's (logs 2, 3, 8). -/
def Obligations.SpaceMap : Prop :=
  (∀ (fw : Nat) (s : State),
    (StorageReads fw s .input 0 65535 s.input ∧ StorageWrites fw s 0 65535 s.input (fun m => { s with input := m })) ∧
    (StorageReads fw s .out 1 65535 s.out ∧ ∀ i b, Refused fw (.bufWrite 1 i b) s) ∧
    (StorageReads fw s .pay 2 65535 s.pay ∧ StorageWrites fw s 2 65535 s.pay (fun m => { s with pay := m })) ∧
    (StorageReads fw s .srcTxt 3 16 s.srcTxt ∧ StorageWrites fw s 3 16 s.srcTxt (fun m => { s with srcTxt := m })) ∧
    StorageReads fw s .dstTxt 4 16 s.dstTxt ∧ StorageWrites fw s 4 16 s.dstTxt (fun m => { s with dstTxt := m })) ∧
  (∀ (fw n i b : Nat) (s : State), 7 ≤ n → Refused fw (.bufRead n i) s ∧ Refused fw (.bufWrite n i b) s) ∧
  [Space.input, .out, .pay, .srcTxt, .dstTxt, .hOpt, .hPay].map (fun q => (q.number, q.lengthReg.number)) =
    [(0, 0x04), (1, 0x05), (2, 0x1E), (3, 0x1C), (4, 0x1D), (5, 0x40), (6, 0x3E)]
end

