-- ==== Sys2Proof/Laws/Wire.lean ====
section
/-! SUPPORT. The wire form of a record: its lengths, its bytes, and the words of its header. -/

namespace Sys2Proof.Machine

/-- The clauses of `WF(H)` (10_state.md R23). -/
theorem Header.wf_iff (h : Header) : h.wf = true ↔
    h.version = 4#4 ∧ 5 ≤ h.headerLengthWords.toNat ∧
    h.totalLength.toNat = h.length + h.payload.length ∧ h.options.length + 20 = h.length := by
  have := h.headerLengthWords.isLt
  have h5 : Config.minHlw = 5 := rfl
  have h15 : Config.maxHlw = 15 := rfl
  simp only [Header.wf, Bool.and_eq_true, decide_eq_true_eq, h5, h15]
  constructor
  · rintro ⟨⟨⟨⟨h1, h2⟩, -⟩, h4⟩, h5⟩; exact ⟨h1, h2, h4, h5⟩
  · rintro ⟨h1, h2, h4, h5⟩; exact ⟨⟨⟨⟨h1, h2⟩, by omega⟩, h4⟩, h5⟩

@[simp] theorem be16_length (v : Word16) : (be16 v).length = 2 := rfl
@[simp] theorem Addr.bytes_length (x : Addr) : x.bytes.length = 4 := rfl
@[simp] theorem Header.fixedBytes_length (h : Header) : h.fixedBytes.length = 20 := rfl

theorem enc_length (h : Header) : (enc h).length = 20 + h.options.length + h.payload.length := by
  simp [enc]; omega

/-- The twenty fixed bytes, written out. -/
theorem Header.fixedBytes_eq (h : Header) : h.fixedBytes =
    [h.version ++ h.headerLengthWords, h.dscp ++ h.ecn, h.totalLength.extractLsb' 8 8, h.totalLength.extractLsb' 0 8,
     h.identification.extractLsb' 8 8, h.identification.extractLsb' 0 8, h.fragmentWord.extractLsb' 8 8,
     h.fragmentWord.extractLsb' 0 8, h.ttl, h.protocol, h.headerChecksum.extractLsb' 8 8,
     h.headerChecksum.extractLsb' 0 8, h.sourceAddress.a, h.sourceAddress.b, h.sourceAddress.c, h.sourceAddress.d,
     h.destinationAddress.a, h.destinationAddress.b, h.destinationAddress.c, h.destinationAddress.d] := rfl

/-- A fixed byte of the wire form. -/
theorem byteAt_enc_fixed (h : Header) {i : Nat} (hi : i < 20) : byteAt (enc h) i = byteAt h.fixedBytes i := by
  simp only [byteAt, enc, List.getD_eq_getElem?_getD]
  rw [List.append_assoc, List.getElem?_append_left (by simpa using hi)]

/-- A byte of a sequence is one of its elements below its length. -/
theorem byteAt_eq_getElem {s : List Byte} {i : Nat} (hi : i < s.length) : byteAt s i = s[i] := by
  simp [byteAt, hi]

/-- The two bytes of a word put together again. -/
theorem word_of_bytes (v : Word16) : (v.extractLsb' 8 8 ++ v.extractLsb' 0 8 : Word16) = v := by
  rw [BitVec.extractLsb'_append_extractLsb'_eq_extractLsb' (by omega)]
  simp

/-- The header bytes of a well-formed record: the fixed bytes and the options. -/
theorem Header.headerBytes_eq {h : Header} (hw : h.wf = true) : h.headerBytes = h.fixedBytes ++ h.options := by
  obtain ⟨-, -, -, h4⟩ := (Header.wf_iff h).mp hw
  unfold Header.headerBytes enc
  rw [List.take_append_of_le_length (by simp; omega), List.take_of_length_le (by simp; omega)]

/-! ### Words, bytes and bits as numbers -/

theorem append_toNat {m n : Nat} (a : BitVec m) (b : BitVec n) : (a ++ b).toNat = a.toNat * 2 ^ n + b.toNat := by
  rw [BitVec.toNat_append, Nat.shiftLeft_eq, Nat.mul_comm, Nat.two_pow_add_eq_or_of_lt b.isLt]

theorem word_bytes_toNat (v : Word16) : (v.extractLsb' 8 8 : Byte).toNat * 256 + (v.extractLsb' 0 8 : Byte).toNat = v.toNat := by
  have := v.isLt
  simp [BitVec.extractLsb'_toNat, Nat.shiftRight_eq_div_pow]; omega

theorem high_nibble_toNat (b : Byte) : (b.extractLsb' 4 4).toNat = b.toNat / 16 := by
  have := b.isLt
  simp [BitVec.extractLsb'_toNat, Nat.shiftRight_eq_div_pow]; omega

theorem low_nibble_toNat (b : Byte) : (b.extractLsb' 0 4).toNat = b.toNat % 16 := by simp [BitVec.extractLsb'_toNat]

theorem u16_toNat (s : List Byte)
    (i : Nat) : (u16 s i).toNat = (byteAt s i).toNat * 256 + (byteAt s (i+1)).toNat := append_toNat _ _

theorem word_bit_toNat (w : Word16) (k : Nat) : (w.getLsbD k).toNat = w.toNat / 2^k % 2 := by
  rw [BitVec.getLsbD, Nat.testBit_eq_decide_div_mod_eq]
  rcases Nat.mod_two_eq_zero_or_one (w.toNat / 2^k) with h | h <;> simp [h]

theorem bool_toNat_inj : ∀ {a b : Bool}, a.toNat = b.toNat → a = b := by decide

theorem byteAt_take {a : List Byte} {k i} (h : i < k) : byteAt (a.take k) i = byteAt a i := by
  simp [byteAt, List.getElem?_take_of_lt h]

theorem byteAt_append {a b : List Byte} {i} (h : i < a.length) : byteAt (a ++ b) i = byteAt a i := by
  simp [byteAt, List.getElem?_append_left h]

theorem byteAt_set_other (l : List Byte) (k i : Nat) (v : Byte) (h : k ≠ i) : byteAt (l.set k v) i = byteAt l i := by
  simp [byteAt, List.getElem?_set_ne h]

theorem byteAt_set_same (l : List Byte) (k : Nat) (v : Byte) (h : k < l.length) : byteAt (l.set k v) k = v := by
  simp [byteAt, h]

theorem enc_length_of_wf {h : Header} (hw : h.wf = true) : (enc h).length = h.totalLength.toNat := by
  obtain ⟨_, _, h3, h4⟩ := (Header.wf_iff h).mp hw
  rw [enc_length]; omega

theorem fragmentWord_toNat (h : Header) : h.fragmentWord.toNat = h.rsv.toNat * 32768 + h.dontFragment.toNat * 16384 + h.moreFragments.toNat * 8192 +
      h.fragmentOffset.toNat := by
  have := h.fragmentOffset.isLt
  unfold Header.fragmentWord
  simp only [append_toNat]
  cases h.rsv <;> cases h.dontFragment <;> cases h.moreFragments <;> simp

theorem fragmentWord_rsv (h : Header) : h.fragmentWord.getLsbD 15 = h.rsv := by
    have fw := fragmentWord_toNat h
    have fo := h.fragmentOffset.isLt
    apply bool_toNat_inj; rw [word_bit_toNat, fw]
    cases h.rsv <;> cases h.dontFragment <;> cases h.moreFragments <;> simp <;> omega

theorem headerBytes_length {h : Header} (hw : h.wf = true) : h.headerBytes.length = h.length ∧ 20 ≤ h.length := by
  obtain ⟨_, w2, w3, w4⟩ := (Header.wf_iff h).mp hw
  rw [Header.headerBytes_eq hw]; simp; omega

theorem binstr_length (h : Header) : (binstr h).length = 8 * (enc h).length := by simp [binstr]

theorem two_pow_le_of_bit {b : Byte} {m : Nat} (_hm : m < 8) (h : b.getLsbD m = true) : 2^m ≤ b.toNat := by
  rw [BitVec.getLsbD] at h; exact Nat.ge_two_pow_of_testBit h

set_option maxRecDepth 100000 in
theorem flip_bit_toNat_aux : ∀ (m : Fin 8) (b : Fin 256), ((⟨b⟩ : Byte) ^^^ BitVec.twoPow 8 m.val).toNat =
    if (⟨b⟩ : Byte).getLsbD m.val then b.val - 2 ^ m.val else b.val + 2 ^ m.val := by
  decide

theorem flip_bit_toNat (b : Byte) (m : Nat) (hm : m < 8) : (b ^^^ BitVec.twoPow 8 m).toNat =
    if b.getLsbD m then b.toNat - 2 ^ m else b.toNat + 2 ^ m :=
  flip_bit_toNat_aux ⟨m, hm⟩ b.toFin

end Sys2Proof.Machine
end

