-- ==== Sys2Proof/Laws/Checksum.lean ====
section
/-! SUPPORT. The arithmetic of the one's-complement sum (41_checksum.md R130, R131). -/

namespace Sys2Proof.Machine

/-- A fold pass keeps the residue modulo 65535 and never grows. -/
theorem foldPass_mod (n : Nat) : foldPass n % 65535 = n % 65535 := by unfold foldPass; omega

theorem foldPass_lt {n : Nat} (h : 0xFFFF < n) : foldPass n < n := by unfold foldPass; omega

theorem foldPass_pos {n : Nat} (h : 0 < n) : 0 < foldPass n := by unfold foldPass; omega

/-- What any number of passes keeps, and what enough of them reach. -/
theorem foldUpTo_spec (k n : Nat) :
    foldUpTo k n % 65535 = n % 65535 ∧ (n = 0 → foldUpTo k n = 0) ∧ (0 < n → 0 < foldUpTo k n) ∧
    (n ≤ k → foldUpTo k n ≤ 0xFFFF) := by
  induction k generalizing n with
  | zero => simp only [foldUpTo]; refine ⟨trivial, fun h => h, fun h => h, fun h => by omega⟩
  | succ k ih =>
    simp only [foldUpTo]
    split
    · next h =>
      obtain ⟨h1, -, h3, h4⟩ := ih (foldPass n)
      have hl := foldPass_lt h
      exact ⟨by rw [h1, foldPass_mod], by omega, fun hp => h3 (foldPass_pos hp), fun hn => h4 (by omega)⟩
    · next h => exact ⟨rfl, fun h => h, fun h => h, fun _ => by omega⟩

theorem foldCarries_mod (n : Nat) : foldCarries n % 65535 = n % 65535 := (foldUpTo_spec n n).1

theorem foldCarries_le (n : Nat) : foldCarries n ≤ 0xFFFF := (foldUpTo_spec n n).2.2.2 (le_refl n)

theorem foldCarries_zero : foldCarries 0 = 0 := rfl

theorem foldCarries_pos {n : Nat} (h : 0 < n) : 0 < foldCarries n := (foldUpTo_spec n n).2.2.1 h

/-- The checksum as a number. -/
theorem cksum16_toNat (s : List Byte) : (cksum16 s).toNat = 0xFFFF - foldCarries (wordSum s) := by
  have := foldCarries_le (wordSum s)
  simp only [cksum16, BitVec.toNat_ofNat]
  omega

/-- The sum of an even-length front and a rest. -/
theorem wordSum_append {s t : List Byte} (h : s.length % 2 = 0) : wordSum (s ++ t) = wordSum s + wordSum t := by
  induction s using wordSum.induct with
  | case1 => simp [wordSum]
  | case2 b => simp at h
  | case3 b c s ih =>
    simp only [List.length_cons] at h
    simp only [List.cons_append, wordSum, ih (by omega)]
    omega

theorem foldCarries_eq_zero_iff {n} : foldCarries n = 0 ↔ n = 0 := by
  constructor
  · intro h; by_contra hc; have := foldCarries_pos (show 0 < n by omega); omega
  · rintro rfl; rfl

theorem wordSum_set_even (l : List Byte) (k : Nat) (v : Byte) (hk : k < l.length) (he : k % 2 = 0) :
   wordSum (l.set k v) + (byteAt l k).toNat * 256 = wordSum l + v.toNat * 256 := by
  induction l using wordSum.induct generalizing k with
  | case1 => simp at hk
  | case2 b => simp at hk; subst hk; simp [wordSum, byteAt]; omega
  | case3 b c l ih =>
    match k with
    | 0 => simp [wordSum, byteAt]; omega
    | 1 => omega
    | k+2 =>
      have := ih k (by simp at hk; omega) (by omega)
      simp only [List.set_cons_succ, wordSum]
      have e : byteAt (b :: c :: l) (k+2) = byteAt l k := by simp [byteAt]
      rw [e]; omega

theorem wordSum_set_odd (l : List Byte) (k : Nat) (v : Byte) (hk : k < l.length) (he : k % 2 = 1) :
   wordSum (l.set k v) + (byteAt l k).toNat = wordSum l + v.toNat := by
  induction l using wordSum.induct generalizing k with
  | case1 => simp at hk
  | case2 b => simp at hk; omega
  | case3 b c l ih =>
    match k with
    | 0 => omega
    | 1 => simp [wordSum, byteAt]; omega
    | k+2 =>
      have := ih k (by simp at hk; omega) (by omega)
      simp only [List.set_cons_succ, wordSum]
      have e : byteAt (b :: c :: l) (k+2) = byteAt l k := by simp [byteAt]
      rw [e]; omega

end Sys2Proof.Machine
end

