-- ==== Sys2Proof/Laws/Memory.lean ====
section
/-! SUPPORT. The laws of the buffers: a read after a write, the canonical form, and the multi-byte forms. -/

namespace Sys2Proof.Machine.Memory

/-- A write reads back at its own index and nowhere else. -/
theorem read_write (m : Memory) (i j : Nat) (b : Byte) :
    (m.write i b).read j = if i = j then some b else m.read j := by
  induction m with
  | nil => simp [write, read]
  | cons c m ih =>
    obtain ⟨a, x⟩ := c
    simp only [write]
    split
    · simp only [read]
    · split
      · subst i; simp only [read]; split <;> simp_all
      · simp only [read, ih]
        split <;> split <;> simp_all

theorem read_write_same (m : Memory) (i : Nat) (b : Byte) : (m.write i b).read i = some b := by simp [read_write]

theorem read_write_other (m : Memory) {i j : Nat} (b : Byte) (h : i ≠ j) : (m.write i b).read j = m.read j := by
  simp [read_write, h]

/-- The listed indexes after a write. -/
theorem mem_write {m : Memory} {i : Nat} {b : Byte} {c : Host.Cell} (h : c ∈ m.write i b) : c = (i, b) ∨ c ∈ m := by
  induction m with
  | nil => simp_all [write]
  | cons d m ih =>
    obtain ⟨a, x⟩ := d
    simp only [write] at h
    split at h
    · simp_all
    · split at h
      · simp at h ⊢; tauto
      · simp only [List.mem_cons] at h ⊢
        rcases h with h | h
        · exact .inr (.inl h)
        · rcases ih h with h | h
          · exact .inl h
          · exact .inr (.inr h)

/-- Every write keeps the canonical form. -/
theorem wf_write {m : Memory} (h : m.wf) (i : Nat) (b : Byte) : (m.write i b).wf := by
  induction m with
  | nil => simp [write, wf]
  | cons d m ih =>
    obtain ⟨a, x⟩ := d
    simp only [wf, List.pairwise_cons] at h
    simp only [write]
    split
    · next hi =>
      refine List.pairwise_cons.mpr ⟨?_, List.pairwise_cons.mpr h⟩
      intro c hc
      rcases List.mem_cons.mp hc with rfl | hc
      · exact hi
      · exact lt_trans hi (h.1 c hc)
    · split
      · next hi => subst hi; exact List.pairwise_cons.mpr h
      · next h1 h2 =>
        refine List.pairwise_cons.mpr ⟨?_, ih h.2⟩
        intro c hc
        rcases mem_write hc with rfl | hc
        · change a < i; omega
        · exact h.1 c hc

/-- Every write below the capacity keeps the contents inside it. -/
theorem within_write {m : Memory} {cap : Nat} (h : m.within cap) {i : Nat} (hi : i < cap) (b : Byte) :
    (m.write i b).within cap := by
  intro c hc
  rcases mem_write hc with rfl | hc
  · exact hi
  · exact h c hc

theorem read_writeBytes (m : Memory) (i : Nat) (bs : List Byte) (j : Nat) :
    (m.writeBytes i bs).read j = if i ≤ j ∧ j < i + bs.length then bs[j - i]? else m.read j := by
  induction bs generalizing m i with
  | nil => simp [writeBytes]
  | cons b bs ih =>
    simp only [writeBytes, ih, read_write, List.length_cons]
    by_cases hij : i = j
    · subst hij; simp
    · by_cases h1 : i + 1 ≤ j ∧ j < i + 1 + bs.length
      · rw [if_pos h1, if_pos (by omega)]
        rw [show j - i = (j - (i + 1)) + 1 by omega]
        simp
      · rw [if_neg h1, if_neg hij, if_neg (by omega)]

theorem wf_writeBytes {m : Memory} (h : m.wf) (i : Nat) (bs : List Byte) : (m.writeBytes i bs).wf := by
  induction bs generalizing m i with
  | nil => exact h
  | cons b bs ih => exact ih (wf_write h i b) (i + 1)

theorem within_writeBytes {m : Memory} {cap : Nat} (h : m.within cap) {i : Nat} {bs : List Byte}
    (hi : i + bs.length ≤ cap) : (m.writeBytes i bs).within cap := by
  induction bs generalizing m i with
  | nil => exact h
  | cons b bs ih =>
    simp only [List.length_cons] at hi
    exact ih (within_write h (by omega) b) (by omega)

/-- What a multi-byte read gives: every byte of the range holds the value read. -/
theorem readBytes_ok_iff {m : Memory} {i n : Nat} {bs : List Byte} :
    m.readBytes i n = .ok bs ↔ bs.length = n ∧ ∀ k, k < n → m.read (i + k) = bs[k]? := by
  induction n generalizing i bs with
  | zero =>
    simp only [readBytes, Except.ok.injEq]
    constructor
    · rintro rfl; simp
    · rintro ⟨h, -⟩; exact (List.length_eq_zero_iff.mp h).symm
  | succ n ih =>
    simp only [readBytes]
    cases hr : m.read i with
    | none =>
      simp only [reduceCtorEq, false_iff, not_and]
      intro hl h
      have := h 0 (by omega)
      rw [Nat.add_zero, hr] at this
      have h0 : 0 < bs.length := by omega
      simp [List.getElem?_eq_getElem h0] at this
    | some b =>
      constructor
      · intro h
        cases ht : m.readBytes (i + 1) n with
        | error e => rw [ht] at h; simp [Except.map] at h
        | ok cs =>
          rw [ht] at h
          simp only [Except.map, Except.ok.injEq] at h
          subst h
          obtain ⟨hl, hk⟩ := ih.mp ht
          refine ⟨by simp [hl], fun k hk' => ?_⟩
          cases k with
          | zero => simp [hr]
          | succ k => rw [show i + (k + 1) = i + 1 + k by omega, hk k (by omega)]; simp
      · rintro ⟨hl, hk⟩
        cases bs with
        | nil => simp at hl
        | cons c cs =>
          have h0 := hk 0 (by omega)
          simp [hr] at h0
          subst h0
          have : m.readBytes (i + 1) n = .ok cs := by
            refine ih.mpr ⟨by simpa using hl, fun k hk' => ?_⟩
            have := hk (k + 1) (by omega)
            rw [show i + (k + 1) = i + 1 + k by omega] at this
            simpa using this
          rw [this]; rfl

/-- A multi-byte read fails at the first index of its range that holds no value. -/
theorem readBytes_error {m : Memory} {i n j : Nat} (h : m.readBytes i n = .error j) :
    i ≤ j ∧ j < i + n ∧ m.read j = none ∧ ∀ k, i ≤ k → k < j → m.read k ≠ none := by
  induction n generalizing i with
  | zero => simp [readBytes] at h
  | succ n ih =>
    simp only [readBytes] at h
    cases hr : m.read i with
    | none =>
      rw [hr] at h
      simp only [Except.error.injEq] at h
      subst h
      exact ⟨le_refl _, by omega, hr, fun k h1 h2 => by omega⟩
    | some b =>
      rw [hr] at h
      cases ht : m.readBytes (i + 1) n with
      | ok cs => rw [ht] at h; simp [Except.map] at h
      | error e =>
        rw [ht] at h
        simp only [Except.map, Except.error.injEq] at h
        subst h
        obtain ⟨h1, h2, h3, h4⟩ := ih ht
        refine ⟨by omega, by omega, h3, fun k hk1 hk2 => ?_⟩
        rcases Nat.eq_or_lt_of_le hk1 with rfl | hk1
        · simp [hr]
        · exact h4 k (by omega) hk2

/-- Reading a prefix of a readable range gives the prefix. -/
theorem readBytes_take {m : Memory} {i n k : Nat} {bs : List Byte} (h : m.readBytes i n = .ok bs) (hk : k ≤ n) :
    m.readBytes i k = .ok (bs.take k) := by
  obtain ⟨hl, hr⟩ := readBytes_ok_iff.mp h
  refine readBytes_ok_iff.mpr ⟨by simp [hl, hk], fun j hj => ?_⟩
  rw [hr j (by omega), List.getElem?_take_of_lt hj]

/-- Reading a part of a readable range gives that part. -/
theorem readBytes_part {m : Memory} {n d k : Nat} {bs : List Byte} (h : m.readBytes 0 n = .ok bs) (hk : d + k ≤ n) :
    m.readBytes d k = .ok ((bs.drop d).take k) := by
  obtain ⟨hl, hr⟩ := readBytes_ok_iff.mp h
  refine readBytes_ok_iff.mpr ⟨by simp [hl]; omega, fun j hj => ?_⟩
  have := hr (d + j) (by omega)
  rw [Nat.zero_add] at this
  rw [this, List.getElem?_take_of_lt hj, List.getElem?_drop]

/-- With every byte of a range written, the range reads. -/
theorem readBytes_of_written {m : Memory} {i n : Nat} (h : ∀ k, i ≤ k → k < i + n → m.read k ≠ none) :
    ∃ bs, m.readBytes i n = .ok bs := by
  cases hr : m.readBytes i n with
  | ok bs => exact ⟨bs, rfl⟩
  | error j => obtain ⟨h1, h2, h3, -⟩ := readBytes_error hr; exact absurd h3 (h j h1 h2)

/-- A multi-byte read depends only on the bytes of its range. -/
theorem readBytes_congr {m m' : Memory} {i n : Nat} (h : ∀ k, i ≤ k → k < i + n → m.read k = m'.read k) :
    m.readBytes i n = m'.readBytes i n := by
  induction n generalizing i with
  | zero => rfl
  | succ n ih =>
    simp only [readBytes, ih (i := i + 1) (fun k h1 h2 => h k (by omega) (by omega))]
    rw [h i (le_refl _) (by omega)]

/-- Writing bytes and reading the same range gives them back. -/
theorem readBytes_writeBytes (m : Memory) (i : Nat) (bs : List Byte) :
    (m.writeBytes i bs).readBytes i bs.length = .ok bs := by
  refine readBytes_ok_iff.mpr ⟨rfl, fun k hk => ?_⟩
  rw [read_writeBytes, if_pos (by omega), Nat.add_sub_cancel_left]

/-- A multi-byte read over a byte that holds no value stops at the first such byte. -/
theorem readBytes_stops {m : Memory} {a n : Nat} (ha : a < n) (h : m.read a = none) :
    ∃ j, j ≤ a ∧ m.readBytes 0 n = .error j ∧ m.read j = none ∧ ∀ k, k < j → m.read k ≠ none := by
  cases hr : m.readBytes 0 n with
  | ok bs =>
    obtain ⟨hl, hb⟩ := readBytes_ok_iff.mp hr
    have := hb a ha
    rw [Nat.zero_add, h, List.getElem?_eq_getElem (by omega)] at this
    cases this
  | error j =>
    obtain ⟨-, -, h1, h2⟩ := readBytes_error hr
    refine ⟨j, ?_, rfl, h1, fun k hk => h2 k (by omega) hk⟩
    by_contra hj
    exact h2 a (by omega) (by omega) h

end Sys2Proof.Machine.Memory
end

