-- ==== Sys2Proof/Laws/State.lean ====
section
/-! SUPPORT. What each named update does to each field of the state,
    so that no later proof unfolds a record update. -/

namespace Sys2Proof.Machine

variable (s : State)


/-! ### closeStream -/

@[simp] theorem closeStream_hdr : s.closeStream.hdr = s.hdr := rfl
@[simp] theorem closeStream_ops : s.closeStream.ops = s.ops := rfl
@[simp] theorem closeStream_srcTxt : s.closeStream.srcTxt = s.srcTxt := rfl
@[simp] theorem closeStream_srcTxtLen : s.closeStream.srcTxtLen = s.srcTxtLen := rfl
@[simp] theorem closeStream_dstTxt : s.closeStream.dstTxt = s.dstTxt := rfl
@[simp] theorem closeStream_dstTxtLen : s.closeStream.dstTxtLen = s.dstTxtLen := rfl
@[simp] theorem closeStream_pay : s.closeStream.pay = s.pay := rfl
@[simp] theorem closeStream_payLen : s.closeStream.payLen = s.payLen := rfl
@[simp] theorem closeStream_input : s.closeStream.input = s.input := rfl
@[simp] theorem closeStream_inLen : s.closeStream.inLen = s.inLen := rfl
@[simp] theorem closeStream_out : s.closeStream.out = s.out := rfl
@[simp] theorem closeStream_outLen : s.closeStream.outLen = s.outLen := rfl
@[simp] theorem closeStream_res : s.closeStream.res = s.res := rfl
@[simp] theorem closeStream_err : s.closeStream.err = s.err := rfl
@[simp] theorem closeStream_errInfo : s.closeStream.errInfo = s.errInfo := rfl
@[simp] theorem closeStream_bsActive : s.closeStream.bsActive = false := rfl
@[simp] theorem closeStream_bsPos : s.closeStream.bsPos = 0 := rfl
@[simp] theorem closeStream_script : s.closeStream.script = s.script := rfl
@[simp] theorem closeStream_returned : s.closeStream.returned = s.returned := rfl

/-! ### complete -/

@[simp] theorem complete_hdr : (complete s).hdr = s.hdr := rfl
@[simp] theorem complete_ops : (complete s).ops = s.ops := rfl
@[simp] theorem complete_srcTxt : (complete s).srcTxt = s.srcTxt := rfl
@[simp] theorem complete_srcTxtLen : (complete s).srcTxtLen = s.srcTxtLen := rfl
@[simp] theorem complete_dstTxt : (complete s).dstTxt = s.dstTxt := rfl
@[simp] theorem complete_dstTxtLen : (complete s).dstTxtLen = s.dstTxtLen := rfl
@[simp] theorem complete_pay : (complete s).pay = s.pay := rfl
@[simp] theorem complete_payLen : (complete s).payLen = s.payLen := rfl
@[simp] theorem complete_input : (complete s).input = s.input := rfl
@[simp] theorem complete_inLen : (complete s).inLen = s.inLen := rfl
@[simp] theorem complete_out : (complete s).out = s.out := rfl
@[simp] theorem complete_outLen : (complete s).outLen = s.outLen := rfl
@[simp] theorem complete_res : (complete s).res = s.res := rfl
@[simp] theorem complete_err : (complete s).err = none := rfl
@[simp] theorem complete_errInfo : (complete s).errInfo = 0 := rfl
@[simp] theorem complete_bsActive : (complete s).bsActive = s.bsActive := rfl
@[simp] theorem complete_bsPos : (complete s).bsPos = s.bsPos := rfl
@[simp] theorem complete_script : (complete s).script = s.script := rfl
@[simp] theorem complete_returned : (complete s).returned = s.returned := rfl

/-! ### give -/

@[simp] theorem give_hdr (v : Nat) : (s.give v).hdr = s.hdr := rfl
@[simp] theorem give_ops (v : Nat) : (s.give v).ops = s.ops := rfl
@[simp] theorem give_srcTxt (v : Nat) : (s.give v).srcTxt = s.srcTxt := rfl
@[simp] theorem give_srcTxtLen (v : Nat) : (s.give v).srcTxtLen = s.srcTxtLen := rfl
@[simp] theorem give_dstTxt (v : Nat) : (s.give v).dstTxt = s.dstTxt := rfl
@[simp] theorem give_dstTxtLen (v : Nat) : (s.give v).dstTxtLen = s.dstTxtLen := rfl
@[simp] theorem give_pay (v : Nat) : (s.give v).pay = s.pay := rfl
@[simp] theorem give_payLen (v : Nat) : (s.give v).payLen = s.payLen := rfl
@[simp] theorem give_input (v : Nat) : (s.give v).input = s.input := rfl
@[simp] theorem give_inLen (v : Nat) : (s.give v).inLen = s.inLen := rfl
@[simp] theorem give_out (v : Nat) : (s.give v).out = s.out := rfl
@[simp] theorem give_outLen (v : Nat) : (s.give v).outLen = s.outLen := rfl
@[simp] theorem give_res (v : Nat) : (s.give v).res = s.res := rfl
@[simp] theorem give_err (v : Nat) : (s.give v).err = s.err := rfl
@[simp] theorem give_errInfo (v : Nat) : (s.give v).errInfo = s.errInfo := rfl
@[simp] theorem give_bsActive (v : Nat) : (s.give v).bsActive = s.bsActive := rfl
@[simp] theorem give_bsPos (v : Nat) : (s.give v).bsPos = s.bsPos := rfl
@[simp] theorem give_script (v : Nat) : (s.give v).script = s.script := rfl
@[simp] theorem give_returned (v : Nat) : (s.give v).returned = v :: s.returned := rfl

/-! ### applyReset -/

@[simp] theorem applyReset_hdr : (applyReset s).hdr = State.reset.hdr := rfl
@[simp] theorem applyReset_ops : (applyReset s).ops = State.reset.ops := rfl
@[simp] theorem applyReset_srcTxt : (applyReset s).srcTxt = State.reset.srcTxt := rfl
@[simp] theorem applyReset_srcTxtLen : (applyReset s).srcTxtLen = State.reset.srcTxtLen := rfl
@[simp] theorem applyReset_dstTxt : (applyReset s).dstTxt = State.reset.dstTxt := rfl
@[simp] theorem applyReset_dstTxtLen : (applyReset s).dstTxtLen = State.reset.dstTxtLen := rfl
@[simp] theorem applyReset_pay : (applyReset s).pay = State.reset.pay := rfl
@[simp] theorem applyReset_payLen : (applyReset s).payLen = State.reset.payLen := rfl
@[simp] theorem applyReset_input : (applyReset s).input = State.reset.input := rfl
@[simp] theorem applyReset_inLen : (applyReset s).inLen = State.reset.inLen := rfl
@[simp] theorem applyReset_out : (applyReset s).out = State.reset.out := rfl
@[simp] theorem applyReset_outLen : (applyReset s).outLen = State.reset.outLen := rfl
@[simp] theorem applyReset_res : (applyReset s).res = State.reset.res := rfl
@[simp] theorem applyReset_err : (applyReset s).err = State.reset.err := rfl
@[simp] theorem applyReset_errInfo : (applyReset s).errInfo = State.reset.errInfo := rfl
@[simp] theorem applyReset_bsActive : (applyReset s).bsActive = State.reset.bsActive := rfl
@[simp] theorem applyReset_bsPos : (applyReset s).bsPos = State.reset.bsPos := rfl
@[simp] theorem applyReset_script : (applyReset s).script = s.script := rfl
@[simp] theorem applyReset_returned : (applyReset s).returned = s.returned := rfl

/-! ### raiseError -/

@[simp] theorem raiseError_ops (c : Option Instr) (e : CodecError) : (raiseError c e s).ops = s.ops := by
  rcases c with _ | i <;> [rfl; cases i <;> rfl]
@[simp] theorem raiseError_srcTxt (c : Option Instr) (e : CodecError) : (raiseError c e s).srcTxt = s.srcTxt := by
  rcases c with _ | i <;> [rfl; cases i <;> rfl]
@[simp] theorem raiseError_srcTxtLen (c : Option Instr)
    (e : CodecError) : (raiseError c e s).srcTxtLen = s.srcTxtLen := by
  rcases c with _ | i <;> [rfl; cases i <;> rfl]
@[simp] theorem raiseError_dstTxt (c : Option Instr) (e : CodecError) : (raiseError c e s).dstTxt = s.dstTxt := by
  rcases c with _ | i <;> [rfl; cases i <;> rfl]
@[simp] theorem raiseError_dstTxtLen (c : Option Instr)
    (e : CodecError) : (raiseError c e s).dstTxtLen = s.dstTxtLen := by
  rcases c with _ | i <;> [rfl; cases i <;> rfl]
@[simp] theorem raiseError_pay (c : Option Instr) (e : CodecError) : (raiseError c e s).pay = s.pay := by
  rcases c with _ | i <;> [rfl; cases i <;> rfl]
@[simp] theorem raiseError_payLen (c : Option Instr) (e : CodecError) : (raiseError c e s).payLen = s.payLen := by
  rcases c with _ | i <;> [rfl; cases i <;> rfl]
@[simp] theorem raiseError_input (c : Option Instr) (e : CodecError) : (raiseError c e s).input = s.input := by
  rcases c with _ | i <;> [rfl; cases i <;> rfl]
@[simp] theorem raiseError_inLen (c : Option Instr) (e : CodecError) : (raiseError c e s).inLen = s.inLen := by
  rcases c with _ | i <;> [rfl; cases i <;> rfl]
@[simp] theorem raiseError_out (c : Option Instr) (e : CodecError) : (raiseError c e s).out = s.out := by
  rcases c with _ | i <;> [rfl; cases i <;> rfl]
@[simp] theorem raiseError_outLen (c : Option Instr) (e : CodecError) : (raiseError c e s).outLen = s.outLen := by
  rcases c with _ | i <;> [rfl; cases i <;> rfl]
@[simp] theorem raiseError_res (c : Option Instr) (e : CodecError) : (raiseError c e s).res = s.res := by
  rcases c with _ | i <;> [rfl; cases i <;> rfl]
@[simp] theorem raiseError_err (c : Option Instr) (e : CodecError) : (raiseError c e s).err = some e.kind := by
  rcases c with _ | i <;> [rfl; cases i <;> rfl]
@[simp] theorem raiseError_errInfo (c : Option Instr) (e : CodecError) : (raiseError c e s).errInfo = e.info := by
  rcases c with _ | i <;> [rfl; cases i <;> rfl]
@[simp] theorem raiseError_script (c : Option Instr) (e : CodecError) : (raiseError c e s).script = s.script := by
  rcases c with _ | i <;> [rfl; cases i <;> rfl]
@[simp] theorem raiseError_returned (c : Option Instr)
    (e : CodecError) : (raiseError c e s).returned = s.returned := by
  rcases c with _ | i <;> [rfl; cases i <;> rfl]

/-- An error in CONSTRUCT or DECODE also empties the slot and closes the stream (60_exceptions.md R195). -/
theorem raiseError_slot (c : Instr) (e : CodecError) (h : c = .construct ∨ c = .decode) :
    raiseError (some c) e s =
      { s with hdr := none, bsActive := false, bsPos := 0, err := some e.kind, errInfo := e.info } := by
  rcases h with rfl | rfl <;> rfl

/-- An error in any other command records itself and nothing else (R195). -/
theorem raiseError_status (c : Option Instr) (e : CodecError) (h : c ≠ some .construct ∧ c ≠ some .decode) :
    raiseError c e s = { s with err := some e.kind, errInfo := e.info } := by
  rcases c with _ | i
  · rfl
  · cases i <;> first | rfl | exact absurd rfl h.1 | exact absurd rfl h.2

/-! ### storeReg -/

@[simp] theorem storeReg_hdr (r : Reg) (v : Nat) : (s.storeReg r v).hdr = s.hdr := by cases r <;> rfl
@[simp] theorem storeReg_srcTxt (r : Reg) (v : Nat) : (s.storeReg r v).srcTxt = s.srcTxt := by cases r <;> rfl
@[simp] theorem storeReg_dstTxt (r : Reg) (v : Nat) : (s.storeReg r v).dstTxt = s.dstTxt := by cases r <;> rfl
@[simp] theorem storeReg_pay (r : Reg) (v : Nat) : (s.storeReg r v).pay = s.pay := by cases r <;> rfl
@[simp] theorem storeReg_input (r : Reg) (v : Nat) : (s.storeReg r v).input = s.input := by cases r <;> rfl
@[simp] theorem storeReg_out (r : Reg) (v : Nat) : (s.storeReg r v).out = s.out := by cases r <;> rfl
@[simp] theorem storeReg_outLen (r : Reg) (v : Nat) : (s.storeReg r v).outLen = s.outLen := by cases r <;> rfl
@[simp] theorem storeReg_res (r : Reg) (v : Nat) : (s.storeReg r v).res = s.res := by cases r <;> rfl
@[simp] theorem storeReg_err (r : Reg) (v : Nat) : (s.storeReg r v).err = s.err := by cases r <;> rfl
@[simp] theorem storeReg_errInfo (r : Reg) (v : Nat) : (s.storeReg r v).errInfo = s.errInfo := by cases r <;> rfl
@[simp] theorem storeReg_bsActive (r : Reg) (v : Nat) : (s.storeReg r v).bsActive = s.bsActive := by cases r <;> rfl
@[simp] theorem storeReg_bsPos (r : Reg) (v : Nat) : (s.storeReg r v).bsPos = s.bsPos := by cases r <;> rfl
@[simp] theorem storeReg_script (r : Reg) (v : Nat) : (s.storeReg r v).script = s.script := by cases r <;> rfl
@[simp] theorem storeReg_returned (r : Reg) (v : Nat) : (s.storeReg r v).returned = s.returned := by cases r <;> rfl

/-! ### storeByte -/

@[simp] theorem storeByte_hdr (p : Space) (i : Nat) (b : Byte) : (s.storeByte p i b).hdr = s.hdr := by cases p <;> rfl
@[simp] theorem storeByte_ops (p : Space) (i : Nat) (b : Byte) : (s.storeByte p i b).ops = s.ops := by cases p <;> rfl
@[simp] theorem storeByte_srcTxtLen (p : Space) (i : Nat)
    (b : Byte) : (s.storeByte p i b).srcTxtLen = s.srcTxtLen := by cases p <;> rfl
@[simp] theorem storeByte_dstTxtLen (p : Space) (i : Nat)
    (b : Byte) : (s.storeByte p i b).dstTxtLen = s.dstTxtLen := by cases p <;> rfl
@[simp] theorem storeByte_payLen (p : Space) (i : Nat) (b : Byte) : (s.storeByte p i b).payLen = s.payLen := by
    cases p <;> rfl
@[simp] theorem storeByte_inLen (p : Space) (i : Nat) (b : Byte) : (s.storeByte p i b).inLen = s.inLen := by
    cases p <;> rfl
@[simp] theorem storeByte_out (p : Space) (i : Nat) (b : Byte) : (s.storeByte p i b).out = s.out := by cases p <;> rfl
@[simp] theorem storeByte_outLen (p : Space) (i : Nat) (b : Byte) : (s.storeByte p i b).outLen = s.outLen := by
    cases p <;> rfl
@[simp] theorem storeByte_res (p : Space) (i : Nat) (b : Byte) : (s.storeByte p i b).res = s.res := by cases p <;> rfl
@[simp] theorem storeByte_err (p : Space) (i : Nat) (b : Byte) : (s.storeByte p i b).err = s.err := by cases p <;> rfl
@[simp] theorem storeByte_errInfo (p : Space) (i : Nat) (b : Byte) : (s.storeByte p i b).errInfo = s.errInfo := by
    cases p <;> rfl
@[simp] theorem storeByte_bsActive (p : Space) (i : Nat)
    (b : Byte) : (s.storeByte p i b).bsActive = s.bsActive := by cases p <;> rfl
@[simp] theorem storeByte_bsPos (p : Space) (i : Nat) (b : Byte) : (s.storeByte p i b).bsPos = s.bsPos := by
    cases p <;> rfl
@[simp] theorem storeByte_script (p : Space) (i : Nat) (b : Byte) : (s.storeByte p i b).script = s.script := by
    cases p <;> rfl
@[simp] theorem storeByte_returned (p : Space) (i : Nat)
    (b : Byte) : (s.storeByte p i b).returned = s.returned := by cases p <;> rfl

/-! ### afterBsChar -/

@[simp] theorem afterBsChar_hdr : s.afterBsChar.hdr = s.hdr := by unfold State.afterBsChar; split <;> rfl
@[simp] theorem afterBsChar_ops : s.afterBsChar.ops = s.ops := by unfold State.afterBsChar; split <;> rfl
@[simp] theorem afterBsChar_srcTxt : s.afterBsChar.srcTxt = s.srcTxt := by unfold State.afterBsChar; split <;> rfl
@[simp] theorem afterBsChar_srcTxtLen : s.afterBsChar.srcTxtLen = s.srcTxtLen := by
    unfold State.afterBsChar; split <;> rfl
@[simp] theorem afterBsChar_dstTxt : s.afterBsChar.dstTxt = s.dstTxt := by unfold State.afterBsChar; split <;> rfl
@[simp] theorem afterBsChar_dstTxtLen : s.afterBsChar.dstTxtLen = s.dstTxtLen := by
    unfold State.afterBsChar; split <;> rfl
@[simp] theorem afterBsChar_pay : s.afterBsChar.pay = s.pay := by unfold State.afterBsChar; split <;> rfl
@[simp] theorem afterBsChar_payLen : s.afterBsChar.payLen = s.payLen := by unfold State.afterBsChar; split <;> rfl
@[simp] theorem afterBsChar_input : s.afterBsChar.input = s.input := by unfold State.afterBsChar; split <;> rfl
@[simp] theorem afterBsChar_inLen : s.afterBsChar.inLen = s.inLen := by unfold State.afterBsChar; split <;> rfl
@[simp] theorem afterBsChar_out : s.afterBsChar.out = s.out := by unfold State.afterBsChar; split <;> rfl
@[simp] theorem afterBsChar_outLen : s.afterBsChar.outLen = s.outLen := by unfold State.afterBsChar; split <;> rfl
@[simp] theorem afterBsChar_res : s.afterBsChar.res = s.res := by unfold State.afterBsChar; split <;> rfl
@[simp] theorem afterBsChar_err : s.afterBsChar.err = s.err := by unfold State.afterBsChar; split <;> rfl
@[simp] theorem afterBsChar_errInfo : s.afterBsChar.errInfo = s.errInfo := by unfold State.afterBsChar; split <;> rfl
@[simp] theorem afterBsChar_bsActive : s.afterBsChar.bsActive = s.bsActive := by
    unfold State.afterBsChar; split <;> rfl
@[simp] theorem afterBsChar_script : s.afterBsChar.script = s.script := by unfold State.afterBsChar; split <;> rfl
@[simp] theorem afterBsChar_returned : s.afterBsChar.returned = s.returned := by
    unfold State.afterBsChar; split <;> rfl

/-! ### Views of the state -/

/-- A byte of a storage space depends on that space's contents only. -/
theorem byteOf_congr {s t : State} (h1 : s.input = t.input) (h2 : s.out = t.out) (h3 : s.pay = t.pay)
    (h4 : s.srcTxt = t.srcTxt) (h5 : s.dstTxt = t.dstTxt) (p : Space) (i : Nat) : s.byteOf p i = t.byteOf p i := by
  cases p <;> simp [State.byteOf, State.buffer, h1, h2, h3, h4, h5]

@[simp] theorem byteOf_input (i : Nat) : s.byteOf .input i = s.input.read i := rfl
@[simp] theorem byteOf_out (i : Nat) : s.byteOf .out i = s.out.read i := rfl
@[simp] theorem byteOf_pay (i : Nat) : s.byteOf .pay i = s.pay.read i := rfl
@[simp] theorem byteOf_srcTxt (i : Nat) : s.byteOf .srcTxt i = s.srcTxt.read i := rfl
@[simp] theorem byteOf_dstTxt (i : Nat) : s.byteOf .dstTxt i = s.dstTxt.read i := rfl
@[simp] theorem byteOf_hOpt (i : Nat) : s.byteOf .hOpt i = none := rfl
@[simp] theorem byteOf_hPay (i : Nat) : s.byteOf .hPay i = none := rfl

/-! ### STATUS -/

theorem status_low_bits_aux : ∀ a b (e : BitVec 4),
    (0#2 ++ BitVec.ofBool a ++ BitVec.ofBool b ++ e).extractLsb' 0 5 = BitVec.ofBool b ++ e := by decide

theorem status_low_bits (s : State) : s.status.extractLsb' 0 5 = BitVec.ofBool s.hdr.isSome ++ errCode s.err := status_low_bits_aux _ _ _

end Sys2Proof.Machine
end

