-- ==== Sys2Proof/Laws/Exec.lean ====
section
/-! SUPPORT. What each shared operation of the commands, and each meaning that may be refused,
    can answer: one lemma each,
which later proofs cite instead of unfolding. -/

namespace Sys2Proof.Machine

variable {s : State}

theorem withHeader_none {i : Instr} {k : Header → Host.Outcome State Fault Refusal} (h : s.hdr = none) :
    withHeader i s k = .next (raiseError (some i) ⟨.noHeader, 0⟩ s) := by simp [withHeader, h]

theorem withHeader_some {i : Instr} {k : Header → Host.Outcome State Fault Refusal} {r : Header}
    (h : s.hdr = some r) : withHeader i s k = k r := by simp [withHeader, h]

theorem withBytes_ok {sp : Space} {m : Memory} {i n : Nat} {k : List Byte → Host.Outcome State Fault Refusal}
    {bs : List Byte} (h : m.readBytes i n = .ok bs) : withBytes sp m i n k = k bs := by simp [withBytes, h]

/-- Consuming bytes goes on with the bytes, all of them written, or is refused at the first that is not. -/
theorem withBytes_cases (sp : Space) (m : Memory) (i n : Nat) (k : List Byte → Host.Outcome State Fault Refusal) :
    (∃ bs, m.readBytes i n = .ok bs ∧ withBytes sp m i n k = k bs) ∨
    ∃ j, m.readBytes i n = .error j ∧ withBytes sp m i n k = .refused (.unwrittenByte sp j) := by
  cases h : m.readBytes i n with
  | ok bs => exact .inl ⟨bs, rfl, by simp [withBytes, h]⟩
  | error j => exact .inr ⟨j, rfl, by simp [withBytes, h]⟩

/-- The end of a successful CONSTRUCT or DECODE. -/
theorem fillSlot_ok (c : Instr) (h : Header) (s : State) :
    fillSlot c (.ok h) s =
      .next { s with hdr := some h, bsActive := false, bsPos := 0, err := none, errInfo := 0 } := rfl

/-- The end of a failing CONSTRUCT or DECODE. -/
theorem fillSlot_error {c : Instr} (hc : c = .construct ∨ c = .decode) (e : CodecError) (s : State) :
    fillSlot c (.error e) s =
      .next { s with hdr := none, bsActive := false, bsPos := 0, err := some e.kind, errInfo := e.info } := by
  simp only [fillSlot, raiseError_slot _ _ _ hc]; rfl

/-- The address operand of a text register: malformed, or the parse of a text every byte of which is written,
    or refused. -/
theorem withAddress_cases (sp : Space) (m : Memory) (len : Nat)
    (k : Option Addr → Host.Outcome State Fault Refusal) :
    (16 < len ∧ withAddress sp m len k = k none) ∨
    (∃ t, len ≤ 16 ∧ m.readBytes 0 len = .ok t ∧ withAddress sp m len k = k (dqParse t)) ∨
    ∃ j, len ≤ 16 ∧ m.readBytes 0 len = .error j ∧ withAddress sp m len k = .refused (.unwrittenByte sp j) := by
  unfold withAddress Config.addrTxtMax
  split
  · exact .inl ⟨by omega, rfl⟩
  · rcases withBytes_cases sp m 0 len (fun t => k (dqParse t)) with ⟨bs, h1, h2⟩ | ⟨j, h1, h2⟩
    · exact .inr (.inl ⟨bs, by omega, h1, h2⟩)
    · exact .inr (.inr ⟨j, by omega, h1, h2⟩)

/-- An address operand that yields an address: its text is inside the buffer, written, and well formed. -/
def AddressIs (m : Memory) (len : Nat) (x : Addr) : Prop :=
  len ≤ 16 ∧ ∃ t, m.readBytes 0 len = .ok t ∧ dqParse t = some x

/-- The errors the checks of CONSTRUCT give. -/
def ConstructError (s : State) (e : CodecError) : Prop :=
  checkLength s.ops s.payLen.toNat = .error e ∨
  (checkLength s.ops s.payLen.toNat = .ok () ∧ checkRanges s.ops = .error e) ∨
  (checkLength s.ops s.payLen.toNat = .ok () ∧ checkRanges s.ops = .ok () ∧
    (e = ⟨.invalidAddressFormat, 0⟩ ∨ e = ⟨.invalidAddressFormat, 1⟩))

/-- Everything CONSTRUCT can answer. -/
theorem execConstruct_cases (s : State) :
    (∃ e, ConstructError s e ∧ execConstruct s = fillSlot .construct (.error e) s) ∨
    (∃ src dst payload, checkLength s.ops s.payLen.toNat = .ok () ∧ checkRanges s.ops = .ok () ∧
      AddressIs s.srcTxt s.srcTxtLen.toNat src ∧ AddressIs s.dstTxt s.dstTxtLen.toNat dst ∧
      s.pay.readBytes 0 s.payLen.toNat = .ok payload ∧
      execConstruct s = fillSlot .construct (.ok (recordOf s.ops src dst payload)) s) ∨
    ∃ sp j, execConstruct s = .refused (.unwrittenByte sp j) := by
  unfold execConstruct
  cases h1 : checkLength s.ops s.payLen.toNat with
  | error e => exact .inl ⟨e, .inl h1, rfl⟩
  | ok u =>
    simp only
    cases h2 : checkRanges s.ops with
    | error e => exact .inl ⟨e, .inr (.inl ⟨h1, h2⟩), rfl⟩
    | ok u2 =>
      simp only
      rcases withAddress_cases .srcTxt s.srcTxt s.srcTxtLen.toNat _ with ⟨-, h⟩ | ⟨t, hl, ht, h⟩ | ⟨j, -, -, h⟩
      · rw [h]; exact .inl ⟨_, .inr (.inr ⟨h1, h2, .inl rfl⟩), rfl⟩
      · rw [h]
        cases hp : dqParse t with
        | none => exact .inl ⟨_, .inr (.inr ⟨h1, h2, .inl rfl⟩), rfl⟩
        | some src =>
          simp only
          rcases withAddress_cases .dstTxt s.dstTxt s.dstTxtLen.toNat _ with ⟨-, h'⟩ | ⟨t', hl', ht', h'⟩ | ⟨j, -,
              -, h'⟩
          · rw [h']; exact .inl ⟨_, .inr (.inr ⟨h1, h2, .inr rfl⟩), rfl⟩
          · rw [h']
            cases hp' : dqParse t' with
            | none => exact .inl ⟨_, .inr (.inr ⟨h1, h2, .inr rfl⟩), rfl⟩
            | some dst =>
              simp only
              rcases withBytes_cases .pay s.pay 0 s.payLen.toNat _ with ⟨bs, hb, h''⟩ | ⟨j, -, h''⟩
              · rw [h'']
                exact .inr (.inl ⟨src, dst, bs, trivial, trivial, ⟨hl, t, ht, hp⟩, ⟨hl', t', ht', hp'⟩, hb, rfl⟩)
              · rw [h'']; exact .inr (.inr ⟨_, _, rfl⟩)
          · rw [h']; exact .inr (.inr ⟨_, _, rfl⟩)
      · rw [h]; exact .inr (.inr ⟨_, _, rfl⟩)

/-- The errors `checkLength` and `checkRanges` give. -/
theorem checkLength_error {o : OpRegs} {n : Nat} {e : CodecError} (h : checkLength o n = .error e) :
    o.totalLength ≠ 4 * o.hlw + n ∧ e = ⟨.lengthMismatch, 0⟩ := by
  unfold checkLength at h; split at h <;> simp_all

theorem checkLength_ok {o : OpRegs} {n : Nat} (h : checkLength o n = .ok ()) : o.totalLength = 4 * o.hlw + n := by
  unfold checkLength at h; split at h <;> simp_all

/-- What the range checks establish. -/
theorem checkRanges_ok {o : OpRegs} : checkRanges o = .ok () ↔
    o.version = 4 ∧ 5 ≤ o.hlw ∧ o.hlw ≤ 15 ∧ o.dscp ≤ 63 ∧ o.ecn ≤ 3 ∧ o.totalLength ≤ 65535 ∧
    o.identification ≤ 65535 ∧ o.fragmentOffset ≤ 8191 ∧ o.ttl ≤ 255 ∧ o.protocol ≤ 255 ∧
    o.headerChecksum ≤ 65535 := by
  unfold checkRanges
  have h5 : Config.minHlw = 5 := rfl
  have h15 : Config.maxHlw = 15 := rfl
  have hmax : Config.maxTotalLength = 65535 := rfl
  repeat' split
  all_goals first | (constructor <;> intro h <;> [cases h; omega]) | (constructor <;> intro h <;> [omega; rfl])

theorem checkRanges_error {o : OpRegs} {e : CodecError} (h : checkRanges o = .error e) :
    e.kind = .invalidFieldRange ∧ e.info.toNat ∈ [0, 1, 2, 3, 4, 5, 8, 9, 10, 11] := by
  unfold checkRanges at h
  repeat' split at h
  all_goals first | (simp only [Except.error.injEq] at h; subst h; decide) | simp at h

/-- Everything DECODE can answer. -/
theorem execDecode_cases (s : State) :
    (∃ e, execDecode s = fillSlot .decode (.error e) s ∧
      ((s.inLen.toNat < 20 ∧ e = ⟨.bufferTooShort, 0⟩) ∨
       ∃ b0, s.input.read 0 = some b0 ∧ 20 ≤ s.inLen.toNat ∧
        (checkFirstByte s.inLen.toNat b0 = .error e ∨
         ∃ b2 b3, s.input.read 2 = some b2 ∧ s.input.read 3 = some b3 ∧ checkFirstByte s.inLen.toNat b0 = .ok () ∧
          checkTotal s.inLen.toNat b0 (b2 ++ b3) = .error e))) ∨
    (∃ b0 b2 b3 packet, s.input.read 0 = some b0 ∧ s.input.read 2 = some b2 ∧ s.input.read 3 = some b3 ∧
      20 ≤ s.inLen.toNat ∧ checkFirstByte s.inLen.toNat b0 = .ok () ∧
      checkTotal s.inLen.toNat b0 (b2 ++ b3) = .ok () ∧
      s.input.readBytes 0 (b2 ++ b3 : Word16).toNat = .ok packet ∧
      execDecode s = fillSlot .decode (.ok (fieldsOf packet)) s) ∨
    ∃ j, execDecode s = .refused (.unwrittenByte .input j) := by
  unfold execDecode checkFixed
  simp only
  by_cases hn : s.inLen.toNat < 20
  · rw [if_pos hn]; exact .inl ⟨_, rfl, .inl ⟨hn, rfl⟩⟩
  rw [if_neg hn]
  simp only
  rcases withBytes_cases .input s.input 0 1 _ with ⟨bs, hb, h⟩ | ⟨j, -, h⟩
  · rw [h]
    obtain ⟨hl, hr⟩ := Memory.readBytes_ok_iff.mp hb
    obtain ⟨b0, rfl⟩ : ∃ b, bs = [b] := List.length_eq_one_iff.mp hl
    have h0 : s.input.read 0 = some b0 := hr 0 (by omega)
    rw [show byteAt [b0] 0 = b0 from rfl]
    cases hf : checkFirstByte s.inLen.toNat b0 with
    | error e => exact .inl ⟨e, rfl, .inr ⟨b0, h0, by omega, .inl hf⟩⟩
    | ok u =>
      simp only
      rcases withBytes_cases .input s.input 2 2 _ with ⟨bs, hb2, h'⟩ | ⟨j, -, h'⟩
      · rw [h']
        obtain ⟨hl2, hr2⟩ := Memory.readBytes_ok_iff.mp hb2
        obtain ⟨b2, b3, rfl⟩ : ∃ b c, bs = [b, c] := List.length_eq_two.mp hl2
        have h2 : s.input.read 2 = some b2 := hr2 0 (by omega)
        have h3 : s.input.read 3 = some b3 := hr2 1 (by omega)
        rw [show u16 [b2, b3] 0 = b2 ++ b3 from rfl]
        cases ht : checkTotal s.inLen.toNat b0 (b2 ++ b3) with
        | error e => exact .inl ⟨e, rfl, .inr ⟨b0, h0, by omega, .inr ⟨b2, b3, h2, h3, hf, ht⟩⟩⟩
        | ok u2 =>
          simp only
          rcases withBytes_cases .input s.input 0 (b2 ++ b3 : Word16).toNat _ with ⟨packet, hp, h''⟩ | ⟨j, -, h''⟩
          · rw [h'']
            exact .inr (.inl ⟨b0, b2, b3, packet, h0, h2, h3, by omega, hf, ht, hp, rfl⟩)
          · rw [h'']; exact .inr (.inr ⟨_, rfl⟩)
      · rw [h']; exact .inr (.inr ⟨_, rfl⟩)
  · rw [h]; exact .inr (.inr ⟨_, rfl⟩)

theorem withAddress_of_text {sp m len t x k} (h1 : len ≤ 16) (h2 : Memory.readBytes m 0 len = .ok t)
    (h3 : dqParse t = x) :
   withAddress sp m len k = k x := by
  simp [withAddress, Config.addrTxtMax, show ¬ (16 < len) by omega, withBytes_ok h2, h3]

theorem withAddress_of_unwritten {sp : Space} {m : Memory} {len j : Nat}
    {k : Option Addr → Host.Outcome State Fault Refusal} (h1 : len ≤ 16) (h2 : m.readBytes 0 len = .error j) :
    withAddress sp m len k = .refused (.unwrittenByte sp j) := by
  simp [withAddress, withBytes, Config.addrTxtMax, show ¬ (16 < len) by omega, h2]

theorem withAddress_of_long {sp m len k} (h1 : 16 < len) : withAddress sp m len k = k none := by
  simp [withAddress, Config.addrTxtMax, h1]

theorem slot_cases (s : State) : s.hdr = none ∨ ∃ r, s.hdr = some r := by cases s.hdr <;> simp

end Sys2Proof.Machine
end

