-- ==== Sys2Proof/Laws/Construct.lean ====
section
/-! SUPPORT. What a successful `construct` establishes. -/

namespace Sys2Proof.Machine

theorem construct_ok_spec {o st dt p h} (hc : construct o st dt p = .ok h) :
   checkLength o p.length = .ok () ∧ checkRanges o = .ok () ∧ ∃ src dst, dqParse st = some src ∧
       dqParse dt = some dst ∧ h = recordOf o src dst p := by
  unfold construct at hc
  repeat' split at hc
  all_goals simp_all

theorem recordOf_wf {o : OpRegs} {src dst p} (h1 : o.totalLength = 4 * o.hlw + p.length)
    (h2 : checkRanges o = .ok ()) :
   (recordOf o src dst p).wf = true := by
  have h2 := checkRanges_ok.mp h2
  rw [Header.wf_iff]
  simp only [recordOf, Header.length, BitVec.toNat_ofNat, zeros, List.length_replicate]
  refine ⟨rfl, ?_, ?_, ?_⟩ <;> omega

end Sys2Proof.Machine
end

