-- ==== Sys2Proof/Laws/Parse.lean ====
section
/-! SUPPORT. When the checks of `dec` pass, and what its result depends on. -/

namespace Sys2Proof.Machine

theorem checkFirstByte_ok_iff {n b0} : checkFirstByte n b0 = .ok () ↔ b0.toNat / 16 = 4 ∧
    4 * (b0.toNat % 16) ≤ n := by
  unfold checkFirstByte
  simp only [← high_nibble_toNat, ← low_nibble_toNat]
  split
  · next h => simp only [reduceCtorEq, false_iff]; rintro ⟨h1, -⟩; exact h (BitVec.eq_of_toNat_eq h1)
  · next h =>
    have h := not_not.mp h
    have h' : (b0.extractLsb' 4 4).toNat = 4 := by rw [h]; rfl
    split
    · simp only [reduceCtorEq, false_iff]; omega
    · simp only [true_iff]; omega

theorem checkTotal_ok_iff {n b0 tl} : checkTotal n b0 tl = .ok () ↔ tl.toNat ≤ n ∧ 5 ≤ b0.toNat % 16 ∧
    4 * (b0.toNat % 16) ≤ tl.toNat := by
  unfold checkTotal
  simp only [← low_nibble_toNat]
  repeat' split
  all_goals simp only [reduceCtorEq, false_iff, true_iff]
  all_goals omega

theorem checkTotal_ok_le {n b0 tl} (h : checkTotal n b0 tl = .ok ()) : tl.toNat ≤ n := (checkTotal_ok_iff.mp h).1

theorem fieldsOf_congr {a b : List Byte} (h1 : ∀ i < 20, byteAt a i = byteAt b i)
  (h2 : a.take (u16 b 2).toNat = b.take (u16 b 2).toNat)
  (h3 : a.take (4 * ((byteAt b 0).extractLsb' 0 4).toNat) = b.take (4 * ((byteAt b 0).extractLsb' 0 4).toNat)) : fieldsOf a = fieldsOf b := by
  simp only [fieldsOf, u16, addrAt, h1 0 (by omega), h1 1 (by omega), h1 2 (by omega), h1 3 (by omega),
      h1 4 (by omega), h1 5 (by omega), h1 6 (by omega), h1 7 (by omega),
   h1 8 (by omega), h1 9 (by omega), h1 10 (by omega), h1 11 (by omega), h1 12 (by omega), h1 13 (by omega),
       h1 14 (by omega), h1 15 (by omega),
   h1 16 (by omega), h1 17 (by omega), h1 18 (by omega), h1 19 (by omega)] at *
  rw [h2, h3]

theorem fieldsOf_take {a : List Byte} {k} (h1 : 20 ≤ k) (h2 : (u16 a 2).toNat ≤ k)
    (h3 : 4 * ((byteAt a 0).extractLsb' 0 4).toNat ≤ k) :
   fieldsOf (a.take k) = fieldsOf a :=
  fieldsOf_congr (fun i hi => byteAt_take (by omega)) (by rw [List.take_take, Nat.min_eq_left h2])
      (by rw [List.take_take, Nat.min_eq_left h3])

theorem fieldsOf_append {a t : List Byte} (h1 : 20 ≤ a.length) (h2 : (u16 a 2).toNat ≤ a.length)
    (h3 : 4 * ((byteAt a 0).extractLsb' 0 4).toNat ≤ a.length) :
   fieldsOf (a ++ t) = fieldsOf a :=
  fieldsOf_congr (fun i hi => byteAt_append (by omega)) (List.take_append_of_le_length h2)
      (List.take_append_of_le_length h3)

theorem dec_ok_iff {buf : List Byte} {h : Header} : dec buf = .ok h ↔
   20 ≤ buf.length ∧ (byteAt buf 0).toNat / 16 = 4 ∧ 5 ≤ (byteAt buf 0).toNat % 16 ∧
       4 * ((byteAt buf 0).toNat % 16) ≤ (u16 buf 2).toNat ∧
     (u16 buf 2).toNat ≤ buf.length ∧ h = fieldsOf buf := by
  unfold dec checkFixed
  by_cases hn : buf.length < 20
  · simp [hn]
  rw [if_neg hn]
  simp only
  cases hf : checkFirstByte buf.length (byteAt buf 0) with
  | error e =>
    simp only [reduceCtorEq, false_iff]
    rintro ⟨h1, h2, h3, h4, h5, -⟩
    rw [checkFirstByte_ok_iff.mpr ⟨h2, by omega⟩] at hf; cases hf
  | ok u =>
    simp only
    cases ht : checkTotal buf.length (byteAt buf 0) (u16 buf 2) with
    | error e =>
      simp only [reduceCtorEq, false_iff]
      rintro ⟨h1, h2, h3, h4, h5, -⟩
      rw [checkTotal_ok_iff.mpr ⟨h5, h3, h4⟩] at ht; cases ht
    | ok u =>
      have h1 := checkFirstByte_ok_iff.mp hf
      have h2 := checkTotal_ok_iff.mp ht
      simp only [Except.ok.injEq]
      constructor
      · rintro rfl; exact ⟨by omega, h1.1, h2.2.1, h2.2.2, h2.1, rfl⟩
      · rintro ⟨_, _, _, _, _, h⟩; exact h.symm

theorem dec_ok_wf {buf : List Byte} {h} (hd : dec buf = .ok h) : h.wf = true := by
  obtain ⟨h1, h2, h3, h4, h5, rfl⟩ := dec_ok_iff.mp hd
  rw [Header.wf_iff]
  simp only [fieldsOf, Header.length, low_nibble_toNat, List.length_drop, List.length_take]
  refine ⟨BitVec.eq_of_toNat_eq (by rw [high_nibble_toNat]; exact h2), h3, ?_, ?_⟩ <;> omega

/-- With every byte of the input written, DECODE is `dec` applied to the input. -/
theorem execDecode_of_bytes {s : State} {buf : List Byte} (h : s.input.readBytes 0 s.inLen.toNat = .ok buf) :
    execDecode s = fillSlot .decode (dec buf) s := by
  obtain ⟨hl, hr⟩ := Memory.readBytes_ok_iff.mp h
  unfold dec
  simp only [execDecode, hl]
  by_cases hn : s.inLen.toNat < 20
  · simp only [checkFixed, if_pos hn]
  simp only [checkFixed, if_neg hn]
  rw [withBytes_ok (Memory.readBytes_take h (k := 1) (by omega))]
  rw [byteAt_take (show 0 < 1 by omega)]
  cases hf : checkFirstByte s.inLen.toNat (byteAt buf 0) with
  | error e => rfl
  | ok u =>
    simp only
    rw [withBytes_ok (Memory.readBytes_part h (d := 2) (k := 2) (by omega))]
    have hu : u16 ((buf.drop 2).take 2) 0 = u16 buf 2 := by
      simp [u16, byteAt, List.getElem?_take_of_lt, List.getElem?_drop]
    rw [hu]
    cases ht : checkTotal s.inLen.toNat (byteAt buf 0) (u16 buf 2) with
    | error e => rfl
    | ok u =>
      simp only
      have h1 := checkFirstByte_ok_iff.mp hf
      have h2 := checkTotal_ok_iff.mp ht
      rw [withBytes_ok (Memory.readBytes_take h (k := (u16 buf 2).toNat) (by omega))]
      rw [fieldsOf_take (by omega) (by omega) (by rw [low_nibble_toNat]; omega)]

end Sys2Proof.Machine
end

