-- ==== Sys2Proof/Laws/Command.lean ====
section
/-! SUPPORT. What any command can answer when it goes on: one lemma that later proofs cite instead of unfolding `exec`. -/

namespace Sys2Proof.Machine

/-- Everything a command that goes on can do. -/
theorem exec_next_cases {i : Instr} {s t : State} (h : exec i s = .next t) :
    ((i = .construct ∨ i = .decode) ∧
      ∃ k n, t = { s with hdr := none, bsActive := false, bsPos := 0, err := some k, errInfo := n }) ∨
    ((i = .construct ∨ i = .decode) ∧ ∃ r : Header, r.wf = true ∧
      t = { s with hdr := some r, bsActive := false, bsPos := 0, err := none, errInfo := 0 }) ∨
    ((i ≠ .construct ∧ i ≠ .decode) ∧ s.hdr = none ∧ t = { s with err := some .noHeader, errInfo := 0 }) ∨
    ∃ r, s.hdr = some r ∧
      ((i = .checksum ∧ t = { s with res := hcs r, err := none, errInfo := 0 }) ∨
       (i = .encode ∧ t = { s with out := s.out.writeBytes 0 (enc r), outLen := BitVec.ofNat 16 (enc r).length,
                                   err := none, errInfo := 0 }) ∨
       (i = .verify ∧ t = { s with res := if verify r then 1 else 0, err := none, errInfo := 0 }) ∨
       (i = .binstr ∧ t = { s with bsActive := true, bsPos := 0, err := none, errInfo := 0 }) ∨
       (i = .recompute ∧ t = { s with hdr := some { r with headerChecksum := hcs r }, res := hcs r, bsActive := false,
                                      bsPos := 0, err := none, errInfo := 0 })) := by
  cases i with
  | construct =>
    rcases execConstruct_cases s with ⟨e, he, hx⟩ | ⟨src, dst, p, h1, h2, h3, h4, h5, hx⟩ | ⟨sp, j, hx⟩
    · have hx' : exec .construct s = _ := hx
      rw [hx', fillSlot_error (.inl rfl)] at h
      exact .inl ⟨.inl rfl, e.kind, e.info, by cases h; rfl⟩
    · have hx' : exec .construct s = _ := hx
      rw [hx', fillSlot_ok] at h
      refine .inr (.inl ⟨.inl rfl, _, recordOf_wf ?_ h2, by cases h; rfl⟩)
      rw [checkLength_ok h1, (Memory.readBytes_ok_iff.mp h5).1]
    · have hx' : exec .construct s = _ := hx
      rw [hx'] at h; cases h
  | decode =>
    rcases execDecode_cases s with ⟨e, hx, he⟩ | ⟨b0, b2, b3, p, h0, h2, h3, hn, hf, ht, hp, hx⟩ | ⟨j, hx⟩
    · have hx' : exec .decode s = _ := hx
      rw [hx', fillSlot_error (.inr rfl)] at h
      exact .inl ⟨.inr rfl, e.kind, e.info, by cases h; rfl⟩
    · have hx' : exec .decode s = _ := hx
      rw [hx', fillSlot_ok] at h
      refine .inr (.inl ⟨.inr rfl, _, ?_, by cases h; rfl⟩)
      have hc := checkTotal_ok_iff.mp ht
      have hg := checkFirstByte_ok_iff.mp hf
      obtain ⟨hl, hr⟩ := Memory.readBytes_ok_iff.mp hp
      have g : ∀ k b, s.input.read k = some b → k < (b2 ++ b3 : Word16).toNat → byteAt p k = b := by
        intro k b hb hk
        have := hr k hk
        rw [Nat.zero_add, hb] at this
        simp [byteAt, List.getD_eq_getElem?_getD, ← this]
      have e0 := g 0 b0 h0 (by omega)
      have e2 := g 2 b2 h2 (by omega)
      have e3 := g 3 b3 h3 (by omega)
      apply dec_ok_wf (buf := p)
      have eu : u16 p 2 = b2 ++ b3 := by unfold u16; rw [e2, e3]
      rw [dec_ok_iff, e0, eu, hl]
      exact ⟨by omega, hg.1, by omega, hc.2.2, by omega, rfl⟩
    · have hx' : exec .decode s = _ := hx
      rw [hx'] at h; cases h
  | checksum =>
    have hx : exec .checksum s = execChecksum s := rfl
    rcases slot_cases s with hs | ⟨r, hs⟩
    · rw [hx, execChecksum, withHeader_none hs] at h
      exact .inr (.inr (.inl ⟨⟨by simp, by simp⟩, hs, by cases h; rfl⟩))
    · rw [hx, execChecksum, withHeader_some hs] at h
      refine .inr (.inr (.inr ⟨r, hs, .inl ⟨rfl, ?_⟩⟩))
      injection h with h; subst h; simp only [complete]
  | encode =>
    have hx : exec .encode s = execEncode s := rfl
    rcases slot_cases s with hs | ⟨r, hs⟩
    · rw [hx, execEncode, withHeader_none hs] at h
      exact .inr (.inr (.inl ⟨⟨by simp, by simp⟩, hs, by cases h; rfl⟩))
    · rw [hx, execEncode, withHeader_some hs] at h
      refine .inr (.inr (.inr ⟨r, hs, .inr (.inl ⟨rfl, ?_⟩)⟩))
      injection h with h; subst h; simp only [complete]
  | verify =>
    have hx : exec .verify s = execVerify s := rfl
    rcases slot_cases s with hs | ⟨r, hs⟩
    · rw [hx, execVerify, withHeader_none hs] at h
      exact .inr (.inr (.inl ⟨⟨by simp, by simp⟩, hs, by cases h; rfl⟩))
    · rw [hx, execVerify, withHeader_some hs] at h
      refine .inr (.inr (.inr ⟨r, hs, .inr (.inr (.inl ⟨rfl, ?_⟩))⟩))
      injection h with h; subst h; simp only [complete]
  | binstr =>
    have hx : exec .binstr s = execBinstr s := rfl
    rcases slot_cases s with hs | ⟨r, hs⟩
    · rw [hx, execBinstr, withHeader_none hs] at h
      exact .inr (.inr (.inl ⟨⟨by simp, by simp⟩, hs, by cases h; rfl⟩))
    · rw [hx, execBinstr, withHeader_some hs] at h
      refine .inr (.inr (.inr ⟨r, hs, .inr (.inr (.inr (.inl ⟨rfl, ?_⟩)))⟩))
      injection h with h; subst h; simp only [complete]
  | recompute =>
    have hx : exec .recompute s = execRecompute s := rfl
    rcases slot_cases s with hs | ⟨r, hs⟩
    · rw [hx, execRecompute, withHeader_none hs] at h
      exact .inr (.inr (.inl ⟨⟨by simp, by simp⟩, hs, by cases h; rfl⟩))
    · rw [hx, execRecompute, withHeader_some hs] at h
      refine .inr (.inr (.inr ⟨r, hs, .inr (.inr (.inr (.inr ⟨rfl, ?_⟩)))⟩))
      injection h with h; subst h; simp only [complete, State.closeStream]

end Sys2Proof.Machine
end

