-- ==== Sys2Proof/Laws/Decode.lean ====
section
/-! SUPPORT. The two fields of a command word as numbers. -/

namespace Sys2Proof.Machine

theorem zeroField_toNat (c : Byte) : (zeroField c).toNat = c.toNat / 16 := by
  have := c.isLt
  simp [zeroField, BitVec.extractLsb'_toNat, Nat.shiftRight_eq_div_pow]; omega

theorem opField_toNat (c : Byte) : (opField c).toNat = c.toNat % 16 := by simp [opField, BitVec.extractLsb'_toNat]

end Sys2Proof.Machine
end

