-- ==== Sys2Proof/Laws/HostPort.lean ====
section
/-! SUPPORT. The register and space maps, and what each host action can answer. -/

namespace Sys2Proof.Machine

theorem Reg.ofNumber_number (r : Reg) : Reg.ofNumber r.number = some r := by cases r <;> rfl

theorem Space.ofNumber_number (r : Space) : Space.ofNumber r.number = some r := by cases r <;> rfl

theorem Reg.number_of_ofNumber {n : Nat} {r : Reg} (h : Reg.ofNumber n = some r) : r.number = n := by
  have := List.find?_some h; simpa using this

theorem Space.number_of_ofNumber {n : Nat} {r : Space} (h : Space.ofNumber n = some r) : r.number = n := by
  have := List.find?_some h; simpa using this

theorem hostWrite_cmd_word (fw c : Nat) (s : State)
    (h : c < 256) : hostWrite fw 0 c s = issueCommand (BitVec.ofNat 8 c) s := by
  have : ¬ (c ≥ 256) := by omega
  simp [hostWrite, show Reg.ofNumber 0 = some .cmd from rfl, show Reg.cmd.writable = true from rfl, Reg.width, this]

theorem hostAct_cmdAction (fw : Nat) (i : Instr) (s : State) : hostAct fw (cmdAction i) s = exec i s := by
  cases i <;> rfl

theorem regValue_of_port (s : State) (r : Reg) (h : r.access ≠ .readRecord) : ∃ v, s.regValue r = some v := by
  cases r <;> first | exact ⟨_, rfl⟩ | exact absurd rfl h

theorem regValue_record_isSome (s : State) (r : Reg)
    (h : r.access = .readRecord) : (s.regValue r).isSome = s.hdr.isSome := by
  cases r <;> first | (cases h; done) | (cases hs : s.hdr <;> simp [State.regValue, hs, Header.port])

theorem hostAct_read {fw : Nat} {s : State} {r : Reg} {v} (h : s.regValue r = some v) :
    hostAct fw (.read r.number) s = .next ((if r = .bsChar then s.afterBsChar else s).give v) := by
  simp only [hostAct, hostRead, Reg.ofNumber_number, h]

theorem hostAct_bufRead_of_byte {fw : Nat} {s : State} {sp : Space} {i : Nat} {b : Byte} (hi : i < sp.capacity)
    (h : s.byteOf sp i = some b) :
    hostAct fw (.bufRead sp.number i) s = .next (s.give b.toNat) := by
  simp only [hostAct, bufRead, Space.ofNumber_number, ge_iff_le]
  rw [if_neg (by omega)]
  unfold State.byteOf at h
  cases hb : s.buffer sp with
  | none => rw [hb] at h; simp at h
  | some m => rw [hb] at h; simp only [Option.bind_some] at h; simp only [h]

theorem hostAct_bufWrite {fw : Nat} {s : State} {sp : Space} {i b : Nat} (hw : sp.writable = true)
    (hi : i < sp.capacity) (hb : b < 256) :
    hostAct fw (.bufWrite sp.number i b) s = .next (s.storeByte sp i (BitVec.ofNat 8 b)) := by
  simp only [hostAct, bufWrite, Space.ofNumber_number, ge_iff_le, hw]
  rw [if_neg (by simp), if_neg (by omega), if_neg (by omega)]

theorem hostAct_write {fw : Nat} {s : State} {r : Reg} {v : Nat} (hw : r.access = .readWrite)
    (hv : v < 2 ^ r.width fw) :
    hostAct fw (.write r.number v) s = .next (s.storeReg r v) := by
  simp only [hostAct, hostWrite, Reg.ofNumber_number, ge_iff_le, Reg.writable, hw]
  rw [if_neg (by decide), if_neg (by omega), if_neg (by rintro rfl; cases hw)]

theorem storeReg_frame (s : State) (r : Reg) (v : Nat) : (s.storeReg r v).bsActive = s.bsActive ∧
    (s.storeReg r v).bsPos = s.bsPos ∧ (s.storeReg r v).hdr = s.hdr ∧
   (s.storeReg r v).err = s.err ∧ (s.storeReg r v).errInfo = s.errInfo ∧ (s.storeReg r v).res = s.res ∧
       (s.storeReg r v).out = s.out ∧ (s.storeReg r v).outLen = s.outLen ∧
   (s.storeReg r v).script = s.script ∧ (s.storeReg r v).returned = s.returned ∧ (s.storeReg r v).input = s.input ∧
       (s.storeReg r v).pay = s.pay ∧ (s.storeReg r v).srcTxt = s.srcTxt ∧ (s.storeReg r v).dstTxt = s.dstTxt := by
  cases r <;> exact ⟨rfl, rfl, rfl, rfl, rfl, rfl, rfl, rfl, rfl, rfl, rfl, rfl, rfl, rfl⟩

theorem storeByte_frame (s : State) (sp : Space) (i : Nat)
    (b : Byte) : (s.storeByte sp i b).bsActive = s.bsActive ∧ (s.storeByte sp i b).bsPos = s.bsPos ∧
    (s.storeByte sp i b).hdr = s.hdr ∧
   (s.storeByte sp i b).err = s.err ∧ (s.storeByte sp i b).errInfo = s.errInfo ∧ (s.storeByte sp i b).res = s.res ∧
       (s.storeByte sp i b).out = s.out ∧ (s.storeByte sp i b).outLen = s.outLen ∧
   (s.storeByte sp i b).script = s.script ∧ (s.storeByte sp i b).returned = s.returned ∧
       (s.storeByte sp i b).ops = s.ops := by
  cases sp <;> exact ⟨rfl, rfl, rfl, rfl, rfl, rfl, rfl, rfl, rfl, rfl, rfl⟩

theorem afterBsChar_eq (s : State) : s.afterBsChar = { s with bsPos := s.afterBsChar.bsPos } := by
  unfold State.afterBsChar; split <;> rfl

/-- Everything an action that is no command and no reset can do. -/
theorem hostAct_next {fw : Nat} {a : HostAction} {s t : State} (hc : ∀ c, a ≠ .write Reg.cmd.number c)
    (hr : a ≠ .reset) (h : hostAct fw a s = .next t) :
    (∃ r v, a = .write r.number v ∧ r.access = .readWrite ∧ v < 2 ^ r.width fw ∧ t = s.storeReg r v) ∨
    (∃ sp i b, a = .bufWrite (Space.number sp) i b ∧ sp.writable = true ∧ i < sp.capacity ∧ b < 256 ∧
        t = s.storeByte sp i (BitVec.ofNat 8 b)) ∨
    (∃ r v, a = .read (Reg.number r) ∧ s.regValue r = some v ∧
        t = (if r = .bsChar then s.afterBsChar else s).give v) ∨
    (∃ sp i v, a = .bufRead (Space.number sp) i ∧ t = s.give v) := by
  cases a with
  | reset => exact absurd rfl hr
  | write r v =>
    simp only [hostAct, hostWrite] at h
    cases hq : Reg.ofNumber r with
    | none => rw [hq] at h; cases h
    | some q =>
      rw [hq] at h; simp only at h
      have hn := Reg.number_of_ofNumber hq
      split at h
      · cases h
      · split at h
        · cases h
        · split at h
          · next hcmd => subst hcmd; exact absurd (by rw [← hn]) (hc v)
          · next h1 h2 h3 =>
            refine .inl ⟨q, v, by rw [hn], ?_, by omega, by cases h; rfl⟩
            cases q <;> first | rfl | (exact absurd rfl h3) | (exact absurd rfl h1)
  | read r =>
    simp only [hostAct, hostRead] at h
    cases hq : Reg.ofNumber r with
    | none => rw [hq] at h; cases h
    | some q =>
      rw [hq] at h; simp only at h
      have hn := Reg.number_of_ofNumber hq
      cases hv : s.regValue q with
      | none => rw [hv] at h; cases h
      | some v => rw [hv] at h; exact .inr (.inr (.inl ⟨q, v, by rw [hn], hv, by cases h; rfl⟩))
  | bufWrite sp i b =>
    simp only [hostAct, bufWrite] at h
    cases hq : Space.ofNumber sp with
    | none => rw [hq] at h; cases h
    | some q =>
      rw [hq] at h; simp only at h
      have hn := Space.number_of_ofNumber hq
      split at h
      · cases h
      · split at h
        · cases h
        · split at h
          · cases h
          · next h1 h2 h3 =>
            exact .inr (.inl ⟨q, i, b, by rw [hn], by simpa using h1, by omega, by omega, by cases h; rfl⟩)
  | bufRead sp i =>
    simp only [hostAct, bufRead] at h
    cases hq : Space.ofNumber sp with
    | none => rw [hq] at h; cases h
    | some q =>
      rw [hq] at h; simp only at h
      have hn := Space.number_of_ofNumber hq
      split at h
      · cases h
      · refine .inr (.inr (.inr ⟨q, i, ?_⟩))
        rw [hn]
        split at h
        · unfold readView at h
          split at h
          · cases h
          · split at h
            · cases h
            · exact ⟨_, rfl, by cases h; rfl⟩
        · split at h
          · cases h
          · exact ⟨_, rfl, by cases h; rfl⟩

/-! ### Violations: the actions that are refused -/

theorem hostAct_write_read_only (fw v : Nat) (s : State) {r : Reg} (h : r.writable = false) :
    hostAct fw (.write r.number v) s = .refused (.readOnlyRegister r) := by
  simp only [hostAct, hostWrite, Reg.ofNumber_number, h, if_true]

theorem hostAct_write_too_wide (fw : Nat) {v : Nat} (s : State) {r : Reg} (hw : r.writable = true)
    (h : 2 ^ r.width fw ≤ v) : hostAct fw (.write r.number v) s = .refused (.valueTooWide r v) := by
  simp only [hostAct, hostWrite, Reg.ofNumber_number, hw, ge_iff_le, if_pos h]; rfl

theorem hostAct_read_no_record (fw : Nat) {s : State} {r : Reg} (h : s.regValue r = none) :
    hostAct fw (.read r.number) s = .refused (.noRecordPort r) := by
  simp only [hostAct, hostRead, Reg.ofNumber_number, h]

theorem hostAct_bufWrite_read_only (fw i b : Nat) (s : State) {q : Space} (h : q.writable = false) :
    hostAct fw (.bufWrite q.number i b) s = .refused (.readOnlySpace q) := by
  simp only [hostAct, bufWrite, Space.ofNumber_number, h, if_true]

theorem hostAct_bufRead_beyond (fw : Nat) {i : Nat} (s : State) {q : Space} (h : q.capacity ≤ i) :
    hostAct fw (.bufRead q.number i) s = .refused (.beyondCapacity q i) := by
  simp only [hostAct, bufRead, Space.ofNumber_number, ge_iff_le, if_pos h]

/-! ### Sequences of actions -/

theorem runActions_append (fw : Nat) (as bs : List HostAction) (s : State) : runActions fw (as ++ bs) s =
   match runActions fw as s with
   | .next t => runActions fw bs t
   | .fault f => .fault f
   | .refused r => .refused r := by
  induction as generalizing s with
  | nil => rfl
  | cons a as ih =>
    simp only [List.cons_append, runActions]
    cases hostAct fw a s with
    | next t => exact ih t
    | fault f => rfl
    | refused r => rfl

theorem runActions_bufReads (fw : Nat) (sp : Space) : ∀ (n j : Nat) (s : State), (∀ k, j ≤ k → k < j + n →
    k < sp.capacity ∧ s.byteOf sp k ≠ none) →
    ∃ rs, runActions fw (bufReads sp j n) s = .next { s with returned := rs } := by
  intro n
  induction n with
  | zero => intro j s _; exact ⟨s.returned, rfl⟩
  | succ n ih =>
    intro j s hk
    obtain ⟨h1, h2⟩ := hk j (by omega) (by omega)
    obtain ⟨b, hb⟩ := Option.ne_none_iff_exists'.mp h2
    have hcons : bufReads sp j (n+1) = .bufRead sp.number j :: bufReads sp (j+1) n := by simp [bufReads,
        List.range'_succ]
    rw [hcons, runActions, hostAct_bufRead_of_byte h1 hb]
    obtain ⟨rs, h⟩ := ih (j+1) (s.give b.toNat) (fun k hk1 hk2 => by
      have := hk k (by omega) (by omega)
      refine ⟨this.1, ?_⟩
      have e : (s.give b.toNat).byteOf sp k = s.byteOf sp k := by cases sp <;> rfl
      rw [e]; exact this.2)
    exact ⟨rs, h⟩

theorem runActions_bufWrites_input (fw : Nat) : ∀ (bs : List Byte) (j : Nat) (s : State), j + bs.length ≤ 65535 →
    runActions fw (bufWrites .input j bs) s = .next { s with input := s.input.writeBytes j bs } := by
  intro bs
  induction bs with
  | nil => intro j s _; rfl
  | cons b bs ih =>
    intro j s h
    simp only [List.length_cons] at h
    rw [bufWrites, runActions, hostAct_bufWrite rfl (show j < 65535 by omega) b.isLt]
    simp only
    rw [ih (j+1) _ (by omega)]
    simp [State.storeByte, Memory.writeBytes]

end Sys2Proof.Machine
end

