-- ==== Sys2Proof/Laws/PerInstr.lean ====
section
/-! SUPPORT. Statements made of every instruction, one lemma per constructor. -/

namespace Sys2Proof.Laws.RoundTrip

/-- The word of a command decodes to the command, and to no other (30_encoding.md R92). -/
def Statement (i : Instr) : Prop := decode (encode i) = .ok i ∧ ∀ j, encode j = encode i → j = i

theorem construct : Statement .construct := by unfold Statement; exact ⟨rfl, by intro j; cases j <;> decide⟩
theorem checksum : Statement .checksum := by unfold Statement; exact ⟨rfl, by intro j; cases j <;> decide⟩
theorem encode : Statement .encode := by unfold Statement; exact ⟨rfl, by intro j; cases j <;> decide⟩
theorem decode : Statement .decode := by unfold Statement; exact ⟨rfl, by intro j; cases j <;> decide⟩
theorem verify : Statement .verify := by unfold Statement; exact ⟨rfl, by intro j; cases j <;> decide⟩
theorem binstr : Statement .binstr := by unfold Statement; exact ⟨rfl, by intro j; cases j <;> decide⟩
theorem recompute : Statement .recompute := by unfold Statement; exact ⟨rfl, by intro j; cases j <;> decide⟩

end Sys2Proof.Laws.RoundTrip
end

