-- ==== Sys2Proof/Laws/Script.lean ====
section
/-! SUPPORT. The hexadecimal numbers of a trace line. -/

namespace Sys2Proof.Machine

theorem hexText_length (k n : Nat) : (hexText k n).length = k := by
  induction k generalizing n with
  | zero => rfl
  | succ k ih => simp [hexText, ih]

theorem hexDigits_spec : ∀ d : Fin 16, hexDigits.contains (hexDigits.getD d.val '0') = true ∧
    hexDigits.idxOf (hexDigits.getD d.val '0') = d.val ∧ hexDigits.getD d.val '0' ≠ ' ' := by decide

theorem hexText_mem (k n : Nat) : ∀ c ∈ hexText k n, hexDigits.contains c = true ∧ c ≠ ' ' := by
  induction k generalizing n with
  | zero => intro c h; cases h
  | succ k ih =>
    intro c h
    simp only [hexText, List.mem_append, List.mem_singleton] at h
    rcases h with h | rfl
    · exact ih _ c h
    · have := hexDigits_spec ⟨n % 16, by omega⟩
      exact ⟨this.1, this.2.2⟩

theorem hexText_value (k n : Nat)
    (h : n < 16 ^ k) : (hexText k n).foldl (fun v c => v * 16 + hexDigits.idxOf c) 0 = n := by
  induction k generalizing n with
  | zero => simp at h; subst h; rfl
  | succ k ih =>
    simp only [hexText, List.foldl_append, List.foldl_cons, List.foldl_nil]
    have hd : hexDigits.idxOf (hexDigits.getD (n % 16) '0') = n % 16 := (hexDigits_spec ⟨n % 16, by omega⟩).2.1
    rw [ih (n / 16) (by rw [Nat.pow_succ] at h; omega), hd]
    omega

theorem hexValue_hexText {k n : Nat} (h : n < 16 ^ k) : hexValue k (hexText k n) = some n := by
  unfold hexValue
  rw [if_pos, hexText_value k n h]
  exact ⟨hexText_length k n, List.all_eq_true.mpr (fun c hc => (hexText_mem k n c hc).1)⟩

theorem space_not_mem_hexText (k n : Nat) : ' ' ∉ hexText k n := fun h => (hexText_mem k n _ h).2 rfl

end Sys2Proof.Machine
end

