-- ==== Sys2Proof/Laws/Text.lean ====
section
/-! SUPPORT. Splitting a text at separators. -/

namespace Sys2Proof.Machine

variable {α : Type} [DecidableEq α]

/-- A text without separators is one part. -/
theorem splitSep_of_not_mem {sep : α} {p : List α} (h : sep ∉ p) : splitSep sep p = [p] := by
  induction p with
  | nil => rfl
  | cons c p ih =>
    simp only [List.mem_cons, not_or] at h
    simp only [splitSep, if_neg (Ne.symm h.1), ih h.2, consHead]

/-- A part without separators, before a separator, is the first part. -/
theorem splitSep_append {sep : α} {p : List α} (h : sep ∉ p) (t : List α) :
    splitSep sep (p ++ sep :: t) = p :: splitSep sep t := by
  induction p with
  | nil => simp [splitSep]
  | cons c p ih =>
    simp only [List.mem_cons, not_or] at h
    simp only [List.cons_append, splitSep, if_neg (Ne.symm h.1), ih h.2, consHead]

/-- Splitting always gives a part. -/
theorem splitSep_ne_nil (sep : α) (t : List α) : splitSep sep t ≠ [] := by
  cases t with
  | nil => simp [splitSep]
  | cons c t =>
    simp only [splitSep]
    split
    · simp
    · cases splitSep sep t <;> simp [consHead]

/-- The parts, joined by separators again, are the text, and no part holds a separator. -/
theorem splitSep_join (sep : α) (t : List α) :
    List.intercalate [sep] (splitSep sep t) = t ∧ ∀ p ∈ splitSep sep t, sep ∉ p := by
  induction t with
  | nil => simp [splitSep, List.intercalate]
  | cons c t ih =>
    obtain ⟨ih1, ih2⟩ := ih
    obtain ⟨p, ps, hp⟩ := List.exists_cons_of_ne_nil (splitSep_ne_nil sep t)
    simp only [splitSep]
    split
    · next hc =>
      subst hc
      rw [hp] at ih1 ih2 ⊢
      refine ⟨?_, ?_⟩
      · rw [List.intercalate_cons_cons]; simp [ih1]
      · intro q hq
        rcases List.mem_cons.mp hq with rfl | hq
        · simp
        · exact ih2 q hq
    · next hc =>
      rw [hp] at ih1 ih2 ⊢
      simp only [consHead]
      refine ⟨?_, ?_⟩
      · cases ps with
        | nil => simpa [List.intercalate] using ih1
        | cons q qs =>
          rw [List.intercalate_cons_cons] at ih1 ⊢
          simpa using ih1
      · intro q hq
        rcases List.mem_cons.mp hq with rfl | hq
        · have := ih2 p (by simp)
          simp only [List.mem_cons, not_or]
          exact ⟨fun h => hc h.symm, this⟩
        · exact ih2 q (by simp [hq])

set_option maxRecDepth 100000 in
theorem parseOctet_renderOctet : ∀ b : Byte, parseOctet (renderOctet b) = some b ∧ charDot ∉ renderOctet b ∧
    (renderOctet b).length ≤ 3 := by
  intro b
  have h : ∀ n : Fin 256, parseOctet (renderOctet ⟨n⟩) = some ⟨n⟩ ∧ charDot ∉ renderOctet ⟨n⟩ ∧
      (renderOctet ⟨n⟩).length ≤ 3 := by decide
  exact h b.toFin

theorem parseOctet_eq_some_iff {p : List Byte} {b : Byte} : parseOctet p = some b ↔
   1 ≤ p.length ∧ p.length ≤ 3 ∧ (∀ c ∈ p, 0x30 ≤ c.toNat ∧ c.toNat ≤ 0x39) ∧ decimalValue p ≤ 255 ∧
       b.toNat = decimalValue p := by
  unfold parseOctet
  have hd : p.all isDigit = true ↔ ∀ c ∈ p, 0x30 ≤ c.toNat ∧ c.toNat ≤ 0x39 := by
    simp [List.all_eq_true, isDigit]
  rw [← hd]
  split
  · simp; omega
  · split
    · simp_all
    · split
      · simp; omega
      · next h1 h2 h3 =>
        simp only [Option.some.injEq]
        constructor
        · rintro rfl; refine ⟨by omega, by omega, by simpa using h2, by omega, ?_⟩; simp; omega
        · rintro ⟨-, -, -, h, h'⟩; apply BitVec.eq_of_toNat_eq; simp [h']; omega

theorem dot_not_mem_of_digits {p : List Byte} (h : ∀ c ∈ p, 0x30 ≤ c.toNat ∧ c.toNat ≤ 0x39) : charDot ∉ p := by
  intro hm; have := h _ hm; simp [charDot] at this

end Sys2Proof.Machine
end

