-- ==== Sys2Proof/Tests/Slice0.lean ====
section
/-! SUPPORT. Our own tests. Expected values come from the spec: the encodings of 30_encoding.md R90 and R92, and the vectors
of 95_test_vectors.md, whose ids (S1, T1, T20e, ...) each test names. -/

open Sys2Proof Sys2Proof.Machine Sys2Proof.Safety Sys2Proof.Rules

namespace Sys2Proof.Tests

/-! ### Small states and records -/

/-- What `f` says of the next state, if there is one. -/
def onNext {α : Type} (o : Host.Outcome State Fault Refusal) (f : State → α) : Option α :=
  match o with
  | .next t => some (f t)
  | .fault _ => none
  | .refused _ => none

/-- Why an action is refused, if it is. -/
def whyRefused (o : Host.Outcome State Fault Refusal) : Option Refusal :=
  match o with
  | .next _ => none
  | .fault _ => none
  | .refused r => some r

/-- A buffer filled from index 0. -/
def filledWith (bs : List Byte) : Memory := Memory.writeBytes [] 0 bs

/-- "192.168.1.10" -/
def srcText : List Byte := [0x31, 0x39, 0x32, 0x2E, 0x31, 0x36, 0x38, 0x2E, 0x31, 0x2E, 0x31, 0x30]

/-- "192.168.1.20" -/
def dstText : List Byte := [0x31, 0x39, 0x32, 0x2E, 0x31, 0x36, 0x38, 0x2E, 0x31, 0x2E, 0x32, 0x30]

/-- The payload of S1. -/
def ahoj : List Byte := [0x61, 0x68, 0x6F, 0x6A]

/-- The operand registers of S1 (95_test_vectors.md section 2). -/
def opsS1 : OpRegs :=
  { OpRegs.reset with version := 4, hlw := 5, totalLength := 24, identification := 12345, df := true, ttl := 64, protocol := 6 }

/-- Reset, with the operands of CONSTRUCT. -/
def withOps (o : OpRegs) (st dt payload : List Byte) : State :=
  { State.reset with
    ops := o
    srcTxt := filledWith st, srcTxtLen := BitVec.ofNat 5 st.length
    dstTxt := filledWith dt, dstTxtLen := BitVec.ofNat 5 dt.length
    pay := filledWith payload, payLen := BitVec.ofNat 16 payload.length }

/-- The operand state of S1. -/
def sS1 : State := withOps opsS1 srcText dstText ahoj

/-- Reset, with a packet in IN. -/
def withInput (bs : List Byte) : State :=
  { State.reset with input := filledWith bs, inLen := BitVec.ofNat 16 bs.length }

/-- Reset, with a record in the slot. -/
def withRecord (h : Header) : State := { State.reset with hdr := some h }

/-- The record of T1, with the stored checksum as an argument. -/
def recS1 (c : Word16) : Header where
  version := 4
  headerLengthWords := 5
  dscp := 0
  ecn := 0
  totalLength := 24
  identification := 12345
  dontFragment := true
  moreFragments := false
  fragmentOffset := 0
  ttl := 64
  protocol := 6
  headerChecksum := c
  sourceAddress := ⟨0xC0, 0xA8, 0x01, 0x0A⟩
  destinationAddress := ⟨0xC0, 0xA8, 0x01, 0x14⟩
  payload := ahoj
  rsv := false
  options := []

/-- The bytes of T21e (T20e with the checksum in place). -/
def bytesT40 : List Byte :=
  [0x45, 0x00, 0x00, 0x18, 0x30, 0x39, 0x40, 0x00, 0x40, 0x06, 0x87, 0x38] ++
  [0xC0, 0xA8, 0x01, 0x0A, 0xC0, 0xA8, 0x01, 0x14, 0x61, 0x68, 0x6F, 0x6A]

/-- The bytes of T41. -/
def bytesT41 : List Byte :=
  [0x46, 0xB9, 0x00, 0x1A, 0xBE, 0xEF, 0x20, 0xB9, 0x01, 0x11, 0xEB, 0x74, 0x0A] ++
  [0x00, 0x00, 0x01, 0xE0, 0x00, 0x00, 0xFB, 0x01, 0x01, 0x01, 0x00, 0xDE, 0xAD]

/-- The record of T41, as its row of 95_test_vectors.md gives it. -/
def recT41 : Header where
  version := 4
  headerLengthWords := 6
  dscp := 46
  ecn := 1
  totalLength := 26
  identification := 0xBEEF
  dontFragment := false
  moreFragments := true
  fragmentOffset := 185
  ttl := 1
  protocol := 17
  headerChecksum := 0xEB74
  sourceAddress := ⟨0x0A, 0x00, 0x00, 0x01⟩
  destinationAddress := ⟨0xE0, 0x00, 0x00, 0xFB⟩
  payload := [0xDE, 0xAD]
  rsv := false
  options := [0x01, 0x01, 0x01, 0x00]

/-! ### The words, written out bit by bit from R90 (`zero` in bits 7:4, `op` in bits 3:0) and R92 -/

theorem test_word_construct : decode 0b0000_0001#8 = .ok .construct := by decide
theorem test_word_checksum : decode 0b0000_0010#8 = .ok .checksum := by decide
theorem test_word_encode : decode 0b0000_0011#8 = .ok .encode := by decide
theorem test_word_decode : decode 0b0000_0100#8 = .ok .decode := by decide
theorem test_word_verify : decode 0b0000_0101#8 = .ok .verify := by decide
theorem test_word_binstr : decode 0b0000_0110#8 = .ok .binstr := by decide
theorem test_word_recompute : decode 0b0000_0111#8 = .ok .recompute := by decide
/-- Section 2.8: CONSTRUCT's `op` under a non-zero high nibble is illegal. -/
theorem test_word_illegal : decode 0x11#8 = .error (.illegalCommand 0x11) := by decide
/-- A command is its first byte; the rest of the bytes are no part of it (R101). -/
theorem test_decode_bytes : decodeBytes [0x05, 0xFF] = .ok (.verify, [0xFF]) ∧ decodeBytes [] = .error .noWord := by
  decide
theorem test_table_word : decodeTableWord 8 7 = some .recompute ∧ decodeTableWord 8 0x10 = none := by decide
/-- A command word placed for the next step is what the step runs: VERIFY on an empty slot is NoHeader. -/
theorem test_fetch_word : onNext (step (State.reset.withFetchWord 8 5)) (fun t => (t.err, t.script)) =
    some (some .noHeader, []) := by decide

/-! ### Ill-formed host actions: one for each check of R66, refused -/

theorem test_wf_unassigned_register : HostAction.wellFormed 32 (.read 0x41) = false := by decide
theorem test_wf_read_only_register : HostAction.wellFormed 32 (.write Reg.res.number 0) = false := by decide
theorem test_wf_value_too_wide : HostAction.wellFormed 32 (.write Reg.opTtl.number (2 ^ 32)) = false := by decide
theorem test_wf_unassigned_space : HostAction.wellFormed 32 (.bufRead 7 0) = false := by decide
theorem test_wf_read_only_space : HostAction.wellFormed 32 (.bufWrite Space.out.number 0 0) = false := by decide
theorem test_wf_beyond_capacity : HostAction.wellFormed 32 (.bufWrite Space.srcTxt.number 16 0) = false := by decide
theorem test_wf_byte_too_wide : HostAction.wellFormed 32 (.bufWrite Space.pay.number 0 256) = false := by decide
theorem test_wf_legal : HostAction.wellFormed 32 (.bufWrite Space.pay.number 65534 255) = true := by decide
theorem test_wf_every_command : Instr.wellFormed .construct && Instr.wellFormed .recompute = true := by decide

/-- R206: the same violations are refused when performed. -/
theorem test_violations_refused :
    whyRefused (hostAct 32 (.read 0x41) State.reset) = some (.unassignedRegister 0x41) ∧
    whyRefused (hostAct 32 (.write Reg.res.number 0) State.reset) = some (.readOnlyRegister .res) ∧
    whyRefused (hostAct 32 (.write 0 256) State.reset) = some (.valueTooWide .cmd 256) ∧
    whyRefused (hostAct 32 (.read Reg.hVersion.number) State.reset) = some (.noRecordPort .hVersion) ∧
    whyRefused (hostAct 32 (.bufRead 5 0) State.reset) = some (.noRecordSpace .hOpt) ∧
    whyRefused (hostAct 32 (.bufRead 6 2) (withRecord recT41)) = some (.beyondRecord .hPay 2) := by decide

/-! ### The instructions, one step each -/

/-- T1. -/
theorem test_construct : onNext (exec .construct sS1) (fun t => (t.status, t.errInfo, t.hdr)) =
    some (0x10, 0, some (recS1 0)) := by decide
/-- T20: the source address is reported before the destination. -/
theorem test_construct_error : onNext
    (exec .construct (withOps opsS1 [0x31, 0x2E, 0x2E, 0x33, 0x2E, 0x34] [0x78] ahoj)) (fun t => (t.status, t.errInfo)) =
    some (0x03, 0) := by decide
/-- T35c. -/
theorem test_checksum : onNext (exec .checksum (withRecord (recS1 0))) (fun t => (t.res, t.status)) =
    some (0x8738, 0x10) := by decide
/-- T5B's checksum covers the options: T3Cc. -/
theorem test_checksum_options : onNext (exec .checksum (withRecord recT41)) (fun t => t.res) = some 0xEB74 := by decide
/-- T21e. -/
theorem test_encode : onNext (exec .encode (withRecord (recS1 0x8738))) (fun t => (t.out, t.outLen)) =
    some (filledWith bytesT40, 24) := by decide
/-- T26e: `rsv` is emitted as wire bit 48. -/
theorem test_encode_rsv : onNext (exec .encode (withRecord { recS1 0 with rsv := true })) (fun t => t.out.read 6) =
    some (some 0xC0) := by decide
/-- T41. -/
theorem test_decode : onNext (exec .decode (withInput bytesT41)) (fun t => (t.status, t.hdr)) =
    some (0x10, some recT41) := by decide
/-- T3A: the total length is checked before the least header length. -/
theorem test_decode_error : onNext (exec .decode (withInput ([0x44, 0x00, 0x00, 0x18] ++ zeros 16)))
    (fun t => (t.status, t.errInfo)) = some (0x04, 2) := by decide
/-- T50 and T51. -/
theorem test_verify : onNext (exec .verify (withRecord (recS1 0x8738))) (fun t => t.res) = some 1 ∧
    onNext (exec .verify (withRecord (recS1 0))) (fun t => (t.res, t.status)) = some (0, 0x10) := by decide
/-- T63 and the status of an open stream. -/
theorem test_binstr : onNext (exec .binstr (withRecord (recS1 0x8738))) (fun t => (t.status, t.bsPos)) =
    some (0x30, 0) ∧ onNext (exec .binstr State.reset) (fun t => t.status) = some 0x06 := by decide
/-- T66: character 5 of the stream of T40 is '1'. -/
theorem test_bs_char : onNext
    (hostAct 32 (.read Reg.bsChar.number) { withRecord (recS1 0x8738) with bsActive := true, bsPos := 5 })
    (fun t => (t.returned, t.bsPos)) = some ([0x31], 6) := by decide
/-- T52 and T65. -/
theorem test_recompute : onNext
    (exec .recompute { withRecord (recS1 0) with bsActive := true, bsPos := 5 })
    (fun t => (t.res, t.hdr, t.bsActive, t.bsPos)) = some (0x8738, some (recS1 0x8738), false, 0) := by decide

/-! ### The functions -/

/-- T30c to T34c. -/
theorem test_cksum16 : cksum16 [] = 0xFFFF ∧ cksum16 [0xFF, 0xFF] = 0 ∧ cksum16 [0x01, 0x02, 0x03] = 0xFBFD ∧
    cksum16 [0x00, 0x01, 0xF2, 0x03, 0xF4, 0xF5, 0xF6, 0xF7] = 0x220D := by decide
/-- T39c: two folds. -/
theorem test_cksum16_two_folds : cksum16 ([0x45, 0x00, 0x00, 0x14] ++ zeros 8 ++ [0xFF, 0xFF, 0xBA, 0xEC] ++ zeros 4) = 0xFFFE := by
  decide
/-- Section 2.7: "001.02.3.4", "1.2.3.0004" and "1.2.3.". -/
theorem test_dq_parse :
    dqParse [0x30, 0x30, 0x31, 0x2E, 0x30, 0x32, 0x2E, 0x33, 0x2E, 0x34] = some ⟨1, 2, 3, 4⟩ ∧
    dqParse [0x31, 0x2E, 0x32, 0x2E, 0x33, 0x2E, 0x30, 0x30, 0x30, 0x34] = none ∧
    dqParse [0x31, 0x2E, 0x32, 0x2E, 0x33, 0x2E] = none := by decide
/-- Program P1's trace lines. -/
theorem test_trace : parseTrace ['W', ' ', '1', '5', ' ', '0', '0', '0', '0', '3', '0', '3', '9'] =
      some (.write Reg.opIdentification.number 12345) ∧
    traceLine (.bufWrite 3 11 0x30) = some ['B', 'W', ' ', '3', ' ', '0', '0', '0', 'B', ' ', '3', '0'] := by decide

/-! ### Witnesses: states and operands that meet the hypotheses of each statement, clause by clause -/

/-- A state that satisfies the invariant, with a record and an open stream. -/
def streaming (p : BitVec 19) : State := { withRecord (recS1 0x8738) with bsActive := true, bsPos := p }

theorem witness_CommandWordsAreTheOpcodeMap : ∃ c i, decode c = .ok i := ⟨0x07, .recompute, by decide⟩

theorem witness_IllegalWordsRaiseIllegalCommand :
    ((0x00#8 : Byte) = 0x00#8) ∧ (0x08 ≤ (0x0F#8 : Byte).toNat ∧ (0x0F#8 : Byte).toNat ≤ 0x0F) ∧
    (0x10#8 : Byte).extractLsb' 4 4 ≠ 0#4 ∧ (0xFF#8 : Byte).extractLsb' 4 4 ≠ 0#4 := by decide

theorem witness_StepRunsTheNextHostAction :
    (∃ s rest c i, State.script s = .write Reg.cmd.number c :: rest ∧ c < 256 ∧ decode (BitVec.ofNat 8 c) = .ok i) ∧
    (∃ s rest c e, State.script s = .write Reg.cmd.number c :: rest ∧ c < 256 ∧ decode (BitVec.ofNat 8 c) = .error e) ∧
    State.reset.script = [] ∧ ∃ s a rest, State.script s = a :: rest :=
  ⟨⟨State.reset.withFetchWord 8 1, [], 1, .construct, by decide⟩,
   ⟨State.reset.withFetchWord 8 255, [], 255, .illegalCommand 255, by decide⟩, rfl,
   { State.reset with script := [.reset] }, .reset, [], rfl⟩

theorem witness_CommandsReportNoHeaderOnAnEmptySlot : NeedsHeader .encode ∧ State.reset.hdr = none :=
  ⟨.inr (.inl rfl), rfl⟩

/-- Every operand at its greatest value, but for the length, with 40 option bytes. -/
def opsMax : OpRegs :=
  { version := 4, hlw := 15, dscp := 63, ecn := 3, totalLength := 64, identification := 65535, df := true, mf := true,
    fragmentOffset := 8191, ttl := 255, protocol := 255, headerChecksum := 65535 }

theorem witness_ConstructStoresTheRecord :
    let s := withOps opsMax srcText dstText ahoj
    s.ops.totalLength = 4 * s.ops.hlw + s.payLen.toNat ∧ s.ops.version = 4 ∧ 5 ≤ s.ops.hlw ∧ s.ops.hlw ≤ 15 ∧
    s.ops.dscp ≤ 63 ∧ s.ops.ecn ≤ 3 ∧ s.ops.totalLength ≤ 65535 ∧ s.ops.identification ≤ 65535 ∧
    s.ops.fragmentOffset ≤ 8191 ∧ s.ops.ttl ≤ 255 ∧ s.ops.protocol ≤ 255 ∧ s.ops.headerChecksum ≤ 65535 ∧
    (s.srcTxtLen.toNat ≤ 16 ∧ s.srcTxt.readBytes 0 s.srcTxtLen.toNat = .ok srcText) ∧
    dqParse srcText = some ⟨0xC0, 0xA8, 0x01, 0x0A⟩ ∧
    (s.dstTxtLen.toNat ≤ 16 ∧ s.dstTxt.readBytes 0 s.dstTxtLen.toNat = .ok dstText) ∧
    dqParse dstText = some ⟨0xC0, 0xA8, 0x01, 0x14⟩ ∧ s.pay.readBytes 0 s.payLen.toNat = .ok ahoj := by
  decide

/-- T3. -/
theorem witness_ConstructReportsLengthMismatchFirst :
    let s := withOps { opsS1 with totalLength := 25 } srcText dstText ahoj
    s.ops.totalLength ≠ 4 * s.ops.hlw + s.payLen.toNat := by decide

/-- The hypotheses of `ConstructReportsTheLowestFieldOutOfRange` for index `k`. -/
abbrev LowestIs (o : OpRegs) (payLen : Word16) (k : Nat) : Prop :=
  o.totalLength = 4 * o.hlw + payLen.toNat ∧ FieldOutOfRange o k ∧ ∀ j, j < k → ¬ FieldOutOfRange o j

/-- S1's operands with the lengths consistent and one field out of range by one (T5, T6, T7, T9, T10, T12 to T16). -/
theorem witness_ConstructReportsTheLowestFieldOutOfRange :
    LowestIs { opsS1 with version := 5 } 4 0 ∧ LowestIs { opsS1 with hlw := 16, totalLength := 68 } 4 1 ∧
    LowestIs { opsS1 with hlw := 4, totalLength := 20 } 4 1 ∧ LowestIs { opsS1 with dscp := 64 } 4 2 ∧
    LowestIs { opsS1 with ecn := 4 } 4 3 ∧ LowestIs { opsS1 with totalLength := 65536 } 65516 4 ∧
    LowestIs { opsS1 with identification := 65536 } 4 5 ∧ LowestIs { opsS1 with fragmentOffset := 8192 } 4 8 ∧
    LowestIs { opsS1 with ttl := 256 } 4 9 ∧ LowestIs { opsS1 with protocol := 256 } 4 10 ∧
    LowestIs { opsS1 with headerChecksum := 65536 } 4 11 := by
  simp only [LowestIs, FieldOutOfRange, opsS1, OpRegs.reset]
  refine ⟨?_, ?_, ?_, ?_, ?_, ?_, ?_, ?_, ?_, ?_, ?_⟩ <;> exact ⟨by decide, by decide, fun j hj h => by omega⟩

theorem opsS1_in_range (k : Nat) : ¬ FieldOutOfRange opsS1 k := by
  intro h; unfold FieldOutOfRange opsS1 OpRegs.reset at h; simp only at h; omega

/-- T23 (a length of 17), T18 and T24 for the source; T19 and a length of 17 for the destination. -/
theorem witness_ConstructReportsMalformedAddresses :
    (sS1.ops.totalLength = 4 * sS1.ops.hlw + sS1.payLen.toNat ∧ ∀ k, ¬ FieldOutOfRange sS1.ops k) ∧
    (17#5 : BitVec 5).toNat > 16 ∧
    (∃ t, SrcText (withOps opsS1 [] dstText ahoj) t ∧ dqParse t = none) ∧
    (∃ t x, SrcText sS1 t ∧ dqParse t = some x) ∧
    ∃ t, DstText (withOps opsS1 srcText [0x31, 0x2E, 0x32, 0x2E, 0x33] ahoj) t ∧ dqParse t = none :=
  ⟨⟨by decide, opsS1_in_range⟩, by decide, ⟨[], ⟨by decide, by decide⟩, by decide⟩,
   ⟨srcText, _, ⟨by decide, by decide⟩, rfl⟩, [0x31, 0x2E, 0x32, 0x2E, 0x33], ⟨by decide, by decide⟩, by decide⟩

theorem witness_ConstructLaws :
    opsS1.totalLength ≠ 4 * opsS1.hlw + ([] : List Byte).length ∧
    construct opsS1 srcText dstText ahoj = .ok (recS1 0) := by decide

theorem witness_ConstructCommandAppliesTheFunction :
    (SrcText sS1 srcText ∧ DstText sS1 dstText ∧ PayBytes sS1 ahoj ∧
      construct sS1.ops srcText dstText ahoj = .ok (recS1 0)) ∧
    (SrcText State.reset [] ∧ DstText State.reset [] ∧ PayBytes State.reset [] ∧
      construct State.reset.ops [] [] [] = .error ⟨.invalidFieldRange, 0⟩) :=
  ⟨⟨⟨by decide, by decide⟩, ⟨by decide, by decide⟩, by unfold PayBytes; decide, by decide⟩,
   ⟨⟨by decide, by decide⟩, ⟨by decide, by decide⟩, by unfold PayBytes; decide, by decide⟩⟩

theorem witness_AcceptedAddressTextsAreDottedQuads :
    dqParse srcText = some ⟨0xC0, 0xA8, 0x01, 0x0A⟩ ∧ dqParse [0x78] = none := by decide

theorem witness_WireLayoutOfARecord : recT41.wf = true ∧ 3 < recT41.options.length ∧ 1 < recT41.payload.length := by decide

theorem witness_EncodeWritesTheWireForm :
    (withRecord recT41).hdr = some recT41 ∧ recT41.wf = true ∧ 25 < recT41.totalLength.toNat ∧
    recT41.totalLength.toNat ≤ 26 := by decide

theorem witness_EncodeLaws :
    (recS1 0).wf = true ∧ construct opsS1 srcText dstText ahoj = .ok (recS1 0) ∧ enc (recS1 0) = enc (recS1 0) := by
  decide

/-- The six checks pass on T41, and on the least packet, of 20 bytes, T43 without its trailing bytes. -/
theorem witness_DecodeStoresTheRecord :
    (InBytes (withInput bytesT41) bytesT41 ∧ 20 ≤ (withInput bytesT41).inLen.toNat ∧
      (byteAt bytesT41 0).toNat / 16 = 4 ∧ 4 * ((byteAt bytesT41 0).toNat % 16) ≤ (withInput bytesT41).inLen.toNat ∧
      (byteAt bytesT41 2).toNat * 256 + (byteAt bytesT41 3).toNat ≤ (withInput bytesT41).inLen.toNat ∧
      5 ≤ (byteAt bytesT41 0).toNat % 16 ∧
      4 * ((byteAt bytesT41 0).toNat % 16) ≤ (byteAt bytesT41 2).toNat * 256 + (byteAt bytesT41 3).toNat) ∧
    let small : List Byte := [0x45, 0x00, 0x00, 0x14] ++ zeros 16
    InBytes (withInput small) small ∧ (withInput small).inLen.toNat = 20 ∧ (byteAt small 0).toNat / 16 = 4 ∧
      (byteAt small 0).toNat % 16 = 5 ∧ (byteAt small 2).toNat * 256 + (byteAt small 3).toNat = 20 := by
  unfold InBytes; decide

/-- T31, T34, T35, T36, T37 and T38. -/
theorem witness_DecodeReportsTheFirstFailingCheck :
    let n := fun (b : List Byte) => (withInput b).inLen.toNat
    let ver := fun (b : List Byte) => (byteAt b 0).toNat / 16
    let hlw := fun (b : List Byte) => (byteAt b 0).toNat % 16
    let tl := fun (b : List Byte) => (byteAt b 2).toNat * 256 + (byteAt b 3).toNat
    let t31 : List Byte := [0x65] ++ zeros 18
    let t34 : List Byte := [0x05] ++ zeros 19
    let t35 : List Byte := [0x46, 0x00, 0x00, 0x18] ++ zeros 16
    let t36 : List Byte := [0x45, 0x00, 0x00, 0x18] ++ zeros 16
    let t37 : List Byte := [0x44, 0x00, 0x00, 0x14] ++ zeros 16
    let t38 : List Byte := [0x45, 0x00, 0x00, 0x13] ++ zeros 16
    (InBytes (withInput t31) t31 ∧ n t31 < 20) ∧
    (InBytes (withInput t34) t34 ∧ 20 ≤ n t34 ∧ ver t34 ≠ 4) ∧
    (InBytes (withInput t35) t35 ∧ 20 ≤ n t35 ∧ ver t35 = 4 ∧ n t35 < 4 * hlw t35) ∧
    (InBytes (withInput t36) t36 ∧ 20 ≤ n t36 ∧ ver t36 = 4 ∧ 4 * hlw t36 ≤ n t36 ∧ n t36 < tl t36) ∧
    (InBytes (withInput t37) t37 ∧ 20 ≤ n t37 ∧ ver t37 = 4 ∧ 4 * hlw t37 ≤ n t37 ∧ tl t37 ≤ n t37 ∧ hlw t37 < 5) ∧
    (InBytes (withInput t38) t38 ∧ 20 ≤ n t38 ∧ ver t38 = 4 ∧ 4 * hlw t38 ≤ n t38 ∧ tl t38 ≤ n t38 ∧
      5 ≤ hlw t38 ∧ tl t38 < 4 * hlw t38) := by
  unfold InBytes; decide

theorem witness_DecodingAnEncodedRecordGivesItBack : recT41.wf = true ∧ (recS1 0xFFFF).wf = true := by decide

/-- T41; with two more bytes, T42. -/
theorem witness_EncodingADecodedPacketGivesItBack : dec bytesT41 = .ok recT41 := by decide
theorem witness_DecodeIgnoresTrailingBytes : dec (bytesT41 ++ [0x99, 0x99]) = .ok recT41 := by decide

theorem witness_ReloadKeepsTheRecord : (withRecord recT41).hdr = some recT41 ∧ recT41.wf = true := by decide

theorem witness_ChecksumWritesResOnly : (withRecord recT41).hdr = some recT41 := rfl

theorem witness_ChecksumIsTheComplementOfTheSumModulo65535 :
    exactSum [] = 0 ∧ exactSum [0xFF, 0xFF] > 0 := by decide

theorem witness_HeaderChecksumIgnoresPayloadAndStoredValue : recT41.wf = true := by decide

/-- T37c's record: its computed checksum is 0; and T40, where the stored one is the computed one. -/
theorem witness_HeaderWithItsChecksumSumsToZero :
    ((recS1 0x8738).wf = true ∧ (recS1 0x8738).headerChecksum = hcs (recS1 0x8738)) ∧
    (cksum16 ((enc (recS1 0x8738)).take (4 * (recS1 0x8738).headerLengthWords.toNat)) = 0) ∧
    ∃ h : Header, h.wf = true ∧ hcs h = 0 := by
  refine ⟨by decide, by decide,
    { recS1 0xBAEB with
      totalLength := 20, identification := 0, dontFragment := false, ttl := 0, protocol := 0, payload := []
      sourceAddress := ⟨0xFF, 0xFF, 0xBA, 0xEB⟩, destinationAddress := ⟨0, 0, 0, 0⟩ }, by decide⟩

theorem witness_VerifyComparesTheChecksums : (withRecord (recS1 0)).hdr = some (recS1 0) := rfl
theorem witness_RecomputeAttachesTheChecksum : (withRecord (recS1 0)).hdr = some (recS1 0) := rfl
theorem witness_VerifyAfterRecomputeSucceeds : (withRecord (recS1 0)).hdr = some (recS1 0) ∧ (recS1 0).wf = true := by
  decide
theorem witness_RecomputeIsIdempotent : (withRecord (recS1 0)).hdr = some (recS1 0) ∧ (recS1 0).wf = true := by decide

/-- T53 (bit 64), T54 (bit 48), T55 (bit 95), and the ends of the ranges. -/
theorem witness_FlippedHeaderBitFailsVerification :
    (recS1 0x8738).wf = true ∧ verify (recS1 0x8738) = true ∧
    ∀ p ∈ [8, 15, 32, 48, 64, 95, 159], 8 ≤ p ∧ p < 32 * (recS1 0x8738).headerLengthWords.toNat ∧ ¬ (16 ≤ p ∧ p < 32) := by
  decide

/-- The rows of R174 at the ends of their ranges; T56 is the last. -/
theorem witness_FlippedVersionOrLengthBitOutcomes :
    ((recS1 0x8738).wf = true ∧ verify (recS1 0x8738) = true ∧ recT41.wf = true ∧ verify recT41 = true) ∧
    dec (flipBit (enc (recS1 0x8738)) 4) = .error ⟨.bufferTooShort, 1⟩ ∧
    (wireBit (enc (recS1 0x8738)) 16 = false ∧ wireBit (enc (recS1 0x8738)) 31 = false) ∧
    (wireBit (enc recT41) 27 = true ∧ recT41.totalLength.toNat - 2 ^ (31 - 27) < 4 * recT41.headerLengthWords.toNat) ∧
    (wireBit (enc recT41) 30 = true ∧ 4 * recT41.headerLengthWords.toNat ≤ recT41.totalLength.toNat - 2 ^ (31 - 30)) ∧
    (32 * (recS1 0x8738).headerLengthWords.toNat ≤ 191 ∧ 191 < 8 * (recS1 0x8738).totalLength.toNat) := by
  decide

theorem witness_BinstrOpensTheStreamAtZero : (withRecord recT41).hdr = some recT41 := rfl

theorem reset_with_record_inv (fw : Nat) (h : Header) (hw : h.wf = true) (p : BitVec 19)
    (hp : p.toNat ≤ 8 * h.totalLength.toNat) : Inv fw { withRecord h with bsActive := true, bsPos := p } := by
  have h0 : 0 < 2 ^ fw := Nat.two_pow_pos fw
  refine ⟨fun k hk => by cases hk; exact hw, fun _ => ⟨h, rfl, hp⟩, (fun h => by cases h), ⟨?_, ?_⟩,
    ⟨h0, h0, h0, h0, h0, h0, h0, h0, h0, h0⟩, ⟨?_, ?_⟩, ⟨?_, ?_⟩, ⟨?_, ?_⟩, ⟨?_, ?_⟩, ?_, ?_⟩
  all_goals simp [withRecord, State.reset, State.status, errCode]

/-- A closed stream, an open one before its last character, and one at the end (T67). -/
theorem witness_BsCharReadReturnsTheNextCharacter :
    (Inv 32 State.reset ∧ State.reset.bsActive = false) ∧
    (Inv 32 (streaming 191) ∧ (streaming 191).bsActive = true ∧ 191 < 8 * (recS1 0x8738).totalLength.toNat) ∧
    (Inv 32 (streaming 192) ∧ 8 * (recS1 0x8738).totalLength.toNat ≤ 192) ∧
    ∃ t, hostAct 32 (.read Reg.status.number) State.reset = .next t := by
  refine ⟨⟨⟨?_, ?_, ?_, ⟨by decide, by decide, by decide⟩, ?_, ?_⟩, rfl⟩,
    ⟨reset_with_record_inv 32 _ (by decide) _ (by decide), rfl, by decide⟩,
    ⟨reset_with_record_inv 32 _ (by decide) _ (by decide), by decide⟩, _, rfl⟩
  · intro h hh; cases hh
  · intro h; cases h
  · intro _; rfl
  · unfold OpsFit; decide
  · unfold BuffersFit; decide

theorem witness_TheStreamYieldsEveryBitThenZero : (withRecord recT41).hdr = some recT41 ∧ recT41.wf = true := by decide

theorem witness_TheBitStringSpellsTheEncodedBytes : 0 < (enc recT41).length ∧ 25 < (enc recT41).length := by decide

/-- Each clause: a failing CONSTRUCT, RECOMPUTE, BINSTR, a command that keeps the stream, a refused header, an illegal word,
another host action. -/
theorem witness_WhatClosesTheStream :
    (∃ t, exec .construct (streaming 5) = .next t) ∧
    ((∃ t, exec .recompute (streaming 5) = .next t) ∧ (streaming 5).hdr ≠ none) ∧
    ((∃ t, exec .binstr (streaming 5) = .next t) ∧ (streaming 5).hdr ≠ none) ∧
    (∃ t, exec .verify (streaming 5) = .next t) ∧
    ((∃ t, exec .binstr State.reset = .next t) ∧ NeedsHeader .binstr ∧ State.reset.hdr = none) ∧
    (∃ t e, decode 0xFF#8 = .error e ∧ issueCommand 0xFF#8 (streaming 5) = .next t) ∧
    ∃ t, hostAct 32 (.read Reg.bsPos.number) (streaming 5) = .next t ∧ ¬ IssuesCommand (.read Reg.bsPos.number) ∧
      (HostAction.read Reg.bsPos.number) ≠ .read Reg.bsChar.number := by
  refine ⟨⟨_, rfl⟩, ⟨⟨_, rfl⟩, by decide⟩, ⟨⟨_, rfl⟩, by decide⟩, ⟨_, rfl⟩, ⟨⟨_, rfl⟩, by simp [NeedsHeader], rfl⟩,
    ⟨_, .illegalCommand 0xFF, by decide, rfl⟩, _, rfl, ?_, by decide⟩
  rintro ⟨c, h⟩; cases h

theorem witness_CommandsLeaveTheOperandsAlone :
    (∃ t, exec .construct sS1 = .next t) ∧ ∃ t, exec .decode State.reset = .next t := ⟨⟨_, rfl⟩, _, rfl⟩

theorem witness_CommandsLeaveOtherResultsAlone :
    (∃ t, exec .encode State.reset = .next t ∧ t.err ≠ none) ∧ (∃ t, exec .verify State.reset = .next t ∧ t.err ≠ none) ∧
    (∃ t, exec .encode (withRecord recT41) = .next t ∧ (enc recT41).length ≤ 26) ∧
    ∃ t, exec .binstr (withRecord recT41) = .next t :=
  ⟨⟨_, rfl, by decide⟩, ⟨_, rfl, by decide⟩, ⟨_, rfl, by decide⟩, _, rfl⟩

theorem witness_TheRecordIsImmutable :
    (∃ t, hostAct 32 (cmdAction .checksum) (withRecord recT41) = .next t ∧
      ∀ i ∈ [Instr.construct, .decode, .recompute], cmdAction .checksum ≠ cmdAction i) ∧
    ∃ t, exec .recompute (withRecord recT41) = .next t := ⟨⟨_, rfl, by decide⟩, _, rfl⟩

theorem witness_AnErrorChangesTheStatusOnly :
    (∃ t, issueCommand 0x04 State.reset = .next t ∧ t.err = some .bufferTooShort ∧ decode 0x04#8 = .ok .decode) ∧
    (∃ t, issueCommand 0x02 State.reset = .next t ∧ t.err = some .noHeader) ∧
    ∃ t, issueCommand 0x00 State.reset = .next t ∧ t.err = some .illegalCommand :=
  ⟨⟨_, rfl, by decide, by decide⟩, ⟨_, rfl, by decide⟩, _, rfl, by decide⟩

theorem witness_ErrorKindsAndInformationOfEachCommand :
    (∃ t, exec .decode State.reset = .next t ∧ t.err = some .bufferTooShort) ∧
    ∃ t, exec .verify (withRecord recT41) = .next t ∧ t.err = none := ⟨⟨_, rfl, by decide⟩, _, rfl, by decide⟩

theorem witness_AFailedCommandFailsAgain :
    ∃ t, issueCommand 0x01 State.reset = .next t ∧ t.err = some .invalidFieldRange := ⟨_, rfl, by decide⟩

theorem witness_CommandResultsDependOnTheirOperandsOnly :
    (NeedsHeader .encode ∧ (withRecord (recS1 0x8738)).hdr = (streaming 5).hdr ∧
      (∃ t, exec .encode (withRecord (recS1 0x8738)) = .next t ∧ t.err = none) ∧ ∃ t, exec .encode (streaming 5) = .next t) ∧
    (NeedsHeader .binstr ∧ (∃ t, exec .binstr (withRecord (recS1 0x8738)) = .next t ∧ t.err = none) ∧
      ∃ t, exec .binstr (streaming 5) = .next t) ∧
    (NeedsHeader .recompute ∧ (∃ t, exec .recompute (withRecord (recS1 0x8738)) = .next t ∧ t.err = none) ∧
      ∃ t, exec .recompute (streaming 5) = .next t) ∧
    ((∃ t, exec .decode State.reset = .next t) ∧ State.reset.inLen = (streaming 5).inLen) ∧
    ∃ t, exec .construct sS1 = .next t :=
  ⟨⟨by simp [NeedsHeader], rfl, ⟨_, rfl, rfl⟩, _, rfl⟩, ⟨by simp [NeedsHeader], ⟨_, rfl, rfl⟩, _, rfl⟩,
    ⟨by simp [NeedsHeader], ⟨_, rfl, rfl⟩, _, rfl⟩, ⟨⟨_, rfl⟩, rfl⟩, _, rfl⟩

/-- Each action at an end of its range, and one that misses its `requires` line. -/
theorem witness_HostActionsArePerformedExactlyWhenAllowed :
    MeetsRequires 32 State.reset (.write Reg.opTtl.number (2 ^ 32 - 1)) ∧
    MeetsRequires 32 State.reset (.read Reg.status.number) ∧
    MeetsRequires 32 (withRecord recT41) (.read Reg.hOptLen.number) ∧
    MeetsRequires 32 State.reset (.bufWrite Space.input.number 65534 255) ∧
    MeetsRequires 32 (withRecord recT41) (.bufRead Space.hPay.number 1) ∧
    MeetsRequires 32 (withInput bytesT41) (.bufRead Space.input.number 25) ∧
    ¬ MeetsRequires 32 State.reset (.write Reg.opTtl.number (2 ^ 32)) ∧
    ¬ IssuesCommand (.write Reg.opTtl.number (2 ^ 32)) := by
  refine ⟨⟨.opTtl, rfl, rfl, by decide⟩, ⟨.status, rfl, by decide⟩, ⟨.hOptLen, rfl, by decide⟩,
    ⟨.input, rfl, by decide, by decide, by decide⟩,
    ⟨.hPay, rfl, by decide, by decide, fun _ => ⟨recT41, rfl, by decide⟩, fun _ h => absurd rfl h⟩,
    ⟨.input, rfl, by decide, by decide, by decide, fun _ _ => by decide⟩, ?_, ?_⟩
  · rintro ⟨q, h1, h2, h3⟩
    cases q <;> first | (cases h1; done) | exact absurd h3 (by decide)
  · rintro ⟨c, h⟩; cases h

theorem witness_HostWriteStoresTheRegisterOnly :
    (Reg.opTtl.access = .readWrite ∧ 2 ^ 32 - 1 < 2 ^ Reg.opTtl.width 32) ∧
    (Reg.opDf.access = .readWrite ∧ 1 < 2 ^ Reg.opDf.width 17) ∧
    Reg.srcTxtLen.access = .readWrite ∧ 31 < 2 ^ Reg.srcTxtLen.width 17 := by decide

theorem witness_BufWriteStoresOneByteOnly :
    15 < Space.srcTxt.capacity ∧ 65534 < Space.pay.capacity ∧ 255 < 256 := by decide

theorem witness_HostReadsReturnTheValueAndChangeNothing :
    (State.reset.regValue .status = some 0) ∧ (withInput bytesT41).byteOf .input 25 = some 0xAD ∧
    ((withRecord recT41).hdr = some recT41 ∧ recT41.options[3]? = some 0x00) ∧ recT41.payload[1]? = some 0xAD ∧
    (∃ t, hostAct 32 (.write Reg.inLen.number 65535) State.reset = .next t) ∧
    ¬ IssuesCommand (.write Reg.inLen.number 65535) :=
  ⟨rfl, by decide, ⟨rfl, by decide⟩, by decide, ⟨_, rfl⟩, by rintro ⟨c, h⟩; cases h⟩

theorem witness_CommandsCompleteOnWrittenOperands :
    (∀ a, a < State.reset.inLen.toNat → State.reset.byteOf .input a ≠ none) ∧
    (∀ a, a < sS1.payLen.toNat → sS1.byteOf .pay a ≠ none) ∧
    (sS1.srcTxtLen.toNat ≤ 16 → ∀ a, a < sS1.srcTxtLen.toNat → sS1.byteOf .srcTxt a ≠ none) ∧
    (sS1.dstTxtLen.toNat ≤ 16 → ∀ a, a < sS1.dstTxtLen.toNat → sS1.byteOf .dstTxt a ≠ none) ∧
    ∀ a, a < sS1.inLen.toNat → sS1.byteOf .input a ≠ none := by decide

/-- IN of length `n` with fewer bytes written than that. -/
def partly (n : Word16) (bs : List Byte) : State := { State.reset with inLen := n, input := filledWith bs }

/-- DECODE without byte 0; without IN[2]; without IN[3]; with the header's first four bytes only (the first and the last byte
below the total length). -/
theorem witness_ConsumingAnUnwrittenByteIsRefused_decode :
    (20 ≤ (partly 20 []).inLen.toNat ∧ (partly 20 []).byteOf .input 0 = none) ∧
    (0x45#8 : Byte).toNat / 16 = 4 ∧ 4 * ((0x45#8 : Byte).toNat % 16) ≤ (20#16 : Word16).toNat ∧
    ((partly 20 [0x45, 0]).byteOf .input 0 = some 0x45 ∧ (partly 20 [0x45, 0]).byteOf .input 2 = none) ∧
    ((partly 20 [0x45, 0, 0]).byteOf .input 0 = some 0x45 ∧ (partly 20 [0x45, 0, 0]).byteOf .input 2 ≠ none ∧
      (partly 20 [0x45, 0, 0]).byteOf .input 3 = none) ∧
    (let s := partly 20 [0x45, 0, 0, 20]
     s.byteOf .input 0 = some 0x45 ∧ s.byteOf .input 2 = some 0 ∧ s.byteOf .input 3 = some 20 ∧
      5 ≤ (0x45#8 : Byte).toNat % 16 ∧ 4 * ((0x45#8 : Byte).toNat % 16) ≤ (0#8 : Byte).toNat * 256 + (20#8 : Byte).toNat ∧
      (0#8 : Byte).toNat * 256 + (20#8 : Byte).toNat ≤ s.inLen.toNat ∧
      (4 < 20 ∧ s.byteOf .input 4 = none) ∧ 19 < 20 ∧ s.byteOf .input 19 = none) := by decide

/-- CONSTRUCT without the last byte of the source text, of the destination text, of the payload; a host read. -/
theorem witness_ConsumingAnUnwrittenByteIsRefused :
    (let s := { sS1 with srcTxt := filledWith (srcText.take 11) }
     s.ops.totalLength = 4 * s.ops.hlw + s.payLen.toNat ∧ (∀ k, ¬ FieldOutOfRange s.ops k) ∧
      s.srcTxtLen.toNat ≤ 16 ∧ 11 < s.srcTxtLen.toNat ∧ s.byteOf .srcTxt 11 = none) ∧
    (let s := { sS1 with dstTxt := filledWith (dstText.take 11) }
     s.ops.totalLength = 4 * s.ops.hlw + s.payLen.toNat ∧ (∀ k, ¬ FieldOutOfRange s.ops k) ∧ SrcText s srcText ∧
      dqParse srcText = some ⟨0xC0, 0xA8, 0x01, 0x0A⟩ ∧
      s.dstTxtLen.toNat ≤ 16 ∧ 11 < s.dstTxtLen.toNat ∧ s.byteOf .dstTxt 11 = none) ∧
    (let s := { sS1 with pay := filledWith [0x61, 0x68, 0x6F] }
     s.ops.totalLength = 4 * s.ops.hlw + s.payLen.toNat ∧ (∀ k, ¬ FieldOutOfRange s.ops k) ∧ SrcText s srcText ∧
      dqParse srcText = some ⟨0xC0, 0xA8, 0x01, 0x0A⟩ ∧ DstText s dstText ∧
      dqParse dstText = some ⟨0xC0, 0xA8, 0x01, 0x14⟩ ∧ 3 < s.payLen.toNat ∧ s.byteOf .pay 3 = none) ∧
    15 < Space.dstTxt.capacity ∧ State.reset.byteOf .dstTxt 15 = none :=
  ⟨⟨by decide, opsS1_in_range, by decide, by decide, by decide⟩,
    ⟨by decide, opsS1_in_range, ⟨by decide, by decide⟩, by decide, by decide, by decide, by decide⟩,
    ⟨by decide, opsS1_in_range, ⟨by decide, by decide⟩, by decide, ⟨by decide, by decide⟩, by decide, by decide, by decide⟩,
    by decide⟩

/-- A record (its last option and payload byte, and the first index past each), the empty slot, an index past each capacity. -/
theorem witness_RecordPortsAgreeWithTheWire :
    ((withRecord recT41).hdr = some recT41 ∧ recT41.wf = true) ∧ State.reset.hdr = none ∧
    (3 < 40 ∧ recT41.options[3]? = some 0x00 ∧ recT41.options.length ≤ 4) ∧
    (1 < 65515 ∧ recT41.payload[1]? = some 0xAD ∧ recT41.payload.length ≤ 2) ∧ 40 ≤ 40 ∧ 65515 ≤ 65515 := by decide

/-- Each side of every clause's bound. -/
theorem witness_RegisterMap :
    (65535 < 2 ^ 16 ∧ 2 ^ 16 ≤ 65536) ∧ (1 < 2 ^ 1 ∧ 2 ^ 1 ≤ 2) ∧ (31 < 2 ^ 5 ∧ 2 ^ 5 ≤ 32) ∧
    (2 ^ 32 - 1 < 2 ^ 32 ∧ 2 ^ 32 ≤ 2 ^ 32) ∧ (255 < 2 ^ 8 ∧ 2 ^ 8 ≤ 256) ∧
    ∀ n ∈ [0x08, 0x0F, 0x1F, 0x2F, 0x41, 0xFF], (0x08 ≤ n ∧ n ≤ 0x0F) ∨ (0x1F ≤ n ∧ n ≤ 0x2F) ∨ 0x41 ≤ n := by decide

/-- A written byte, one never written, the last index, the capacity, both sides of a byte's bound, the first free number. -/
theorem witness_SpaceMap :
    (25 < 65535 ∧ (withInput bytesT41).input.read 25 = some 0xAD ∧ (withInput bytesT41).input.read 26 = none) ∧
    (15 < 16 ∧ State.reset.dstTxt.read 15 = none) ∧ (65534 < 65535 ∧ 65535 ≤ 65535) ∧ (255 < 256 ∧ 256 ≤ 256) ∧
    7 ≤ 7 := by decide

theorem witness_TraceLinesReadBack :
    (traceLine (.write 0x3F (16 ^ 8 - 1))).isSome = true ∧ (traceLine (.read 0xFF)).isSome = true ∧
    (traceLine (.bufWrite 15 65535 255)).isSome = true ∧ (traceLine (.bufRead 6 0)).isSome = true := by decide

theorem witness_ActionsOnDifferentInstancesCommute :
    (0 : Nat) ≠ 1 ∧ (actOn 32 1 (.read 0) (Instances.reset 2)).isSome = true := by decide

theorem witness_ResetPutsEveryElementAtItsResetValue : ∃ t, hostAct 32 .reset (streaming 5) = .next t := ⟨_, rfl⟩

theorem witness_EveryStepKeepsTheInvariant :
    Inv 32 (streaming 191) ∧ ∃ t, step (streaming 191) = .next t :=
  ⟨reset_with_record_inv 32 _ (by decide) _ (by decide), _, rfl⟩

end Sys2Proof.Tests
end

section
/-! SUPPORT. R10: what a command makes of two states that agree on the operands its rule names (O44). The five header commands
are compared through one equation per command; DECODE and CONSTRUCT through `FillAlike`, a relation between their two outcomes
that every operation they are built of keeps. -/

namespace Sys2Proof.Machine

open Sys2Proof.Rules

/-! ### The header commands, one equation each -/

section
variable {s : State} {r : Header}

theorem exec_of_no_record {i : Instr} (hi : NeedsHeader i) (hs : s.hdr = none) :
    exec i s = .next { s with err := some .noHeader, errInfo := 0 } := by
  rcases hi with rfl | rfl | rfl | rfl | rfl <;> exact withHeader_none hs

theorem exec_checksum_of_record (hs : s.hdr = some r) :
    exec .checksum s = .next (complete { s with res := hcs r }) := withHeader_some hs

theorem exec_encode_of_record (hs : s.hdr = some r) :
    exec .encode s = .next (complete { s with
      out := s.out.writeBytes 0 (enc r), outLen := BitVec.ofNat 16 (enc r).length }) := withHeader_some hs

theorem exec_verify_of_record (hs : s.hdr = some r) :
    exec .verify s = .next (complete { s with res := if verify r then 1 else 0 }) := withHeader_some hs

theorem exec_binstr_of_record (hs : s.hdr = some r) :
    exec .binstr s = .next (complete { s with bsActive := true, bsPos := 0 }) := withHeader_some hs

theorem exec_recompute_of_record (hs : s.hdr = some r) :
    exec .recompute s = .next (complete { s.closeStream with
      hdr := some { r with headerChecksum := hcs r }, res := hcs r }) := withHeader_some hs

end

/-! ### Two states with the same slot -/

theorem status_congr {t t' : State} (ha : t.bsActive = t'.bsActive) (hh : t.hdr = t'.hdr) (he : t.err = t'.err) :
    t.status = t'.status := by
  unfold State.status; rw [ha, hh, he]

theorem status_low_bits_congr {t t' : State} (hh : t.hdr = t'.hdr) (he : t.err = t'.err) :
    t.status.extractLsb' 0 5 = t'.status.extractLsb' 0 5 := by
  rw [status_low_bits, status_low_bits, hh, he]

/-- The bytes written into a buffer are the same whatever the buffer held. -/
theorem Memory.read_writeBytes_congr (m m' : Memory) (bs : List Byte) {a : Nat} (ha : a < bs.length) :
    (m.writeBytes 0 bs).read a = (m'.writeBytes 0 bs).read a := by
  have hr : 0 ≤ a ∧ a < 0 + bs.length := by omega
  rw [read_writeBytes, read_writeBytes, if_pos hr, if_pos hr]

/-- The end states `t` and `t'` of a header command `i` agree on everything it writes; `slot` is what the slot held before. -/
def SameCommandResults (i : Instr) (slot : Option Header) (t t' : State) : Prop :=
  t.hdr = t'.hdr ∧ t.err = t'.err ∧ t.errInfo = t'.errInfo ∧
  (t.err = none → i = .checksum ∨ i = .verify ∨ i = .recompute → t.res = t'.res) ∧
  (t.err = none → i = .binstr ∨ i = .recompute → t.bsActive = t'.bsActive ∧ t.bsPos = t'.bsPos) ∧
  (t.err = none → i = .encode → t.outLen = t'.outLen ∧
    ∀ h, slot = some h → ∀ a, a < (enc h).length → t.byteOf .out a = t'.byteOf .out a)

/-- Without a record the command fails, and a failing command writes the error only. -/
theorem exec_same_of_no_record {i : Instr} {s t s' t' : State} (hi : NeedsHeader i) (hs : s.hdr = none)
    (hs' : s'.hdr = none) (h : exec i s = .next t) (h' : exec i s' = .next t') :
    SameCommandResults i s.hdr t t' := by
  rw [exec_of_no_record hi hs] at h
  rw [exec_of_no_record hi hs'] at h'
  cases h
  cases h'
  simp [SameCommandResults, hs, hs']

/-- With a record everything the command writes is a function of that record. -/
theorem exec_same_of_record {i : Instr} {s t s' t' : State} {r : Header} (hi : NeedsHeader i) (hs : s.hdr = some r)
    (hs' : s'.hdr = some r) (h : exec i s = .next t) (h' : exec i s' = .next t') :
    SameCommandResults i s.hdr t t' := by
  rcases hi with rfl | rfl | rfl | rfl | rfl
  case inl =>
    rw [exec_checksum_of_record hs] at h
    rw [exec_checksum_of_record hs'] at h'
    cases h; cases h'
    simp [SameCommandResults, hs, hs']
  case inr.inl =>
    rw [exec_encode_of_record hs] at h
    rw [exec_encode_of_record hs'] at h'
    cases h; cases h'
    have hout := fun a ha => Memory.read_writeBytes_congr s.out s'.out (enc r) (a := a) ha
    simpa [SameCommandResults, hs, hs'] using hout
  case inr.inr.inl =>
    rw [exec_verify_of_record hs] at h
    rw [exec_verify_of_record hs'] at h'
    cases h; cases h'
    simp [SameCommandResults, hs, hs']
  case inr.inr.inr.inl =>
    rw [exec_binstr_of_record hs] at h
    rw [exec_binstr_of_record hs'] at h'
    cases h; cases h'
    simp [SameCommandResults, hs, hs']
  case inr.inr.inr.inr =>
    rw [exec_recompute_of_record hs] at h
    rw [exec_recompute_of_record hs'] at h'
    cases h; cases h'
    simp [SameCommandResults]

theorem exec_same_of_same_slot {i : Instr} {s t s' t' : State} (hi : NeedsHeader i) (hss : s.hdr = s'.hdr)
    (h : exec i s = .next t) (h' : exec i s' = .next t') : SameCommandResults i s.hdr t t' := by
  rcases slot_cases s with hs | ⟨r, hs⟩
  · exact exec_same_of_no_record hi hs (hss ▸ hs) h h'
  · exact exec_same_of_record hi hs (hss ▸ hs) h h'

/-! ### Two runs of CONSTRUCT or DECODE -/

/-- Two outcomes of the command `c`, of the states `s` and `s'`: both fill the slot with the same record or raise the same
error, or both are refused for the same reason. -/
def FillAlike (c : Instr) (s s' : State) (o o' : Host.Outcome State Fault Refusal) : Prop :=
  (∃ r, o = fillSlot c r s ∧ o' = fillSlot c r s') ∨ ∃ x, o = .refused x ∧ o' = .refused x

section
variable {c : Instr} {s s' : State}

theorem fillSlot_alike (r : Except CodecError Header) : FillAlike c s s' (fillSlot c r s) (fillSlot c r s') :=
  .inl ⟨r, rfl, rfl⟩

theorem withBytes_alike {sp : Space} {m m' : Memory} {i n : Nat} {k k' : List Byte → Host.Outcome State Fault Refusal}
    (hm : ∀ a, i ≤ a → a < i + n → m.read a = m'.read a) (hk : ∀ bs, FillAlike c s s' (k bs) (k' bs)) :
    FillAlike c s s' (withBytes sp m i n k) (withBytes sp m' i n k') := by
  unfold withBytes
  rw [Memory.readBytes_congr hm]
  cases m'.readBytes i n with
  | ok bs => exact hk bs
  | error j => exact .inr ⟨_, rfl, rfl⟩

theorem withAddress_alike {sp : Space} {m m' : Memory} {len : Nat}
    {k k' : Option Addr → Host.Outcome State Fault Refusal}
    (hm : ∀ a, a < len → m.read a = m'.read a) (hk : ∀ x, FillAlike c s s' (k x) (k' x)) :
    FillAlike c s s' (withAddress sp m len k) (withAddress sp m' len k') := by
  unfold withAddress
  split
  · exact hk none
  · exact withBytes_alike (fun a _ ha => hm a (by omega)) fun t => hk (dqParse t)

/-- What alike outcomes say of the end states: a command that goes on in one state goes on in the other. -/
theorem FillAlike.next {o o' : Host.Outcome State Fault Refusal} {t : State} (hc : c = .construct ∨ c = .decode)
    (ho : FillAlike c s s' o o') (h : o = .next t) :
    ∃ t', o' = .next t' ∧ t.hdr = t'.hdr ∧ t.err = t'.err ∧ t.errInfo = t'.errInfo ∧
      t.bsActive = t'.bsActive ∧ t.bsPos = t'.bsPos ∧ t.status = t'.status := by
  rcases ho with ⟨r, rfl, rfl⟩ | ⟨x, rfl, -⟩
  · cases r with
    | ok r =>
      rw [fillSlot_ok] at h
      cases h
      exact ⟨_, fillSlot_ok .., rfl, rfl, rfl, rfl, rfl, rfl⟩
    | error e =>
      rw [fillSlot_error hc] at h
      cases h
      exact ⟨_, fillSlot_error hc .., rfl, rfl, rfl, rfl, rfl, rfl⟩
  · cases h

/-- Every byte DECODE consumes is below IN_LEN: its checks put bytes 0, 2 and 3 and the packet there before it reads them. -/
theorem execDecode_alike (hlen : s.inLen = s'.inLen)
    (hin : ∀ a, a < s.inLen.toNat → s.input.read a = s'.input.read a) :
    FillAlike .decode s s' (execDecode s) (execDecode s') := by
  unfold execDecode
  rw [← hlen]
  simp only [checkFixed]
  by_cases hn : s.inLen.toNat < 20
  · simp only [if_pos hn]
    exact fillSlot_alike _
  simp only [if_neg hn]
  refine withBytes_alike (fun a _ ha => hin a (by omega)) fun first => ?_
  cases checkFirstByte s.inLen.toNat (byteAt first 0) with
  | error e => exact fillSlot_alike _
  | ok _ =>
    refine withBytes_alike (fun a _ ha => hin a (by omega)) fun len => ?_
    cases ht : checkTotal s.inLen.toNat (byteAt first 0) (u16 len 0) with
    | error e => exact fillSlot_alike _
    | ok _ =>
      have htl : (u16 len 0).toNat ≤ s.inLen.toNat := checkTotal_ok_le ht
      exact withBytes_alike (fun a _ ha => hin a (by omega)) fun packet => fillSlot_alike _

/-- CONSTRUCT consumes its operand registers, and of each text and of the payload only the bytes below the length. -/
theorem execConstruct_alike (hops : s.ops = s'.ops) (hsl : s.srcTxtLen = s'.srcTxtLen)
    (hdl : s.dstTxtLen = s'.dstTxtLen) (hpl : s.payLen = s'.payLen)
    (hsrc : ∀ a, a < s.srcTxtLen.toNat → s.srcTxt.read a = s'.srcTxt.read a)
    (hdst : ∀ a, a < s.dstTxtLen.toNat → s.dstTxt.read a = s'.dstTxt.read a)
    (hpay : ∀ a, a < s.payLen.toNat → s.pay.read a = s'.pay.read a) :
    FillAlike .construct s s' (execConstruct s) (execConstruct s') := by
  unfold execConstruct
  rw [← hops, ← hsl, ← hdl, ← hpl]
  cases checkLength s.ops s.payLen.toNat with
  | error e => exact fillSlot_alike _
  | ok _ =>
    cases checkRanges s.ops with
    | error e => exact fillSlot_alike _
    | ok _ =>
      refine withAddress_alike hsrc fun src? => ?_
      cases src? with
      | none => exact fillSlot_alike _
      | some src =>
        refine withAddress_alike hdst fun dst? => ?_
        cases dst? with
        | none => exact fillSlot_alike _
        | some dst => exact withBytes_alike (fun a _ ha => hpay a (by omega)) fun payload => fillSlot_alike _

end

/-- Settles O44: the header commands by cases on the slot and the command; DECODE and CONSTRUCT because every operation they
are built of takes alike outcomes to alike outcomes. -/
theorem commandResultsDependOnTheirOperandsOnly : Obligations.CommandResultsDependOnTheirOperandsOnly := by
  unfold Obligations.CommandResultsDependOnTheirOperandsOnly
  refine ⟨fun i s t s' t' hi hss h h' => ?_, fun s t s' hlen hin h => ?_,
    fun s t s' hops hsl hdl hpl hsrc hdst hpay h => ?_⟩
  · obtain ⟨hhdr, herr, hinfo, hres, hstream, hout⟩ := exec_same_of_same_slot hi hss h h'
    refine ⟨hhdr, herr, hinfo, status_low_bits_congr hhdr herr, hres, fun hok hi' => ?_, hout⟩
    obtain ⟨hact, hpos⟩ := hstream hok hi'
    exact ⟨hact, hpos, status_congr hact hhdr herr⟩
  · exact (execDecode_alike hlen hin).next (.inr rfl) h
  · exact (execConstruct_alike hops hsl hdl hpl hsrc hdst hpay).next (.inl rfl) h

end Sys2Proof.Machine
end

section
/-! SUPPORT. What the host's actions and the commands can change: the inversion of a host action in one lemma, the frames of
the commands, and the invariant of 10_state.md R43 kept by every step (O58, O57, O38, O39, O40, O3). -/

namespace Sys2Proof.Machine

open Sys2Proof.Rules Sys2Proof.Safety

/-! ### The command port -/

theorem opOf_of_instrOfOp : ∀ {op : BitVec 4} {i : Instr}, instrOfOp op = some i → opOf i = op := by decide

/-- A word that decodes is the word of its command: a legal word has no other spelling (30_encoding.md R92). -/
theorem encode_of_decode {c : Byte} {i : Instr} (h : decode c = .ok i) : encode i = c := by
  unfold decode at h
  split at h
  · cases h
  · next hz =>
    split at h
    · next j hj =>
      cases h
      have hz0 : zeroField c = 0#4 := not_not.mp hz
      rw [encode, opOf_of_instrOfOp hj, ← hz0]
      unfold zeroField opField
      rw [BitVec.extractLsb'_append_extractLsb'_eq_extractLsb' (by omega)]
      simp
    · cases h

theorem issueCommand_of_decode {c : Byte} {i : Instr} {s : State} (h : decode c = .ok i) :
    issueCommand c s = exec i s := by
  simp only [issueCommand, h]

theorem issueCommand_of_illegal {c : Byte} {e : DecodeError} {s : State} (h : decode c = .error e) :
    issueCommand c s = .next { s with err := some .illegalCommand, errInfo := c } := by
  simp only [issueCommand, h]; rfl

theorem hostAct_write_cmd {fw c : Nat} {s : State} (h : c < 256) :
    hostAct fw (.write Reg.cmd.number c) s = issueCommand (BitVec.ofNat 8 c) s := hostWrite_cmd_word fw c s h

/-- A write to CMD that goes on runs the command whose word it writes, or records IllegalCommand. -/
theorem hostAct_write_cmd_next {fw c : Nat} {s t : State} (h : hostAct fw (.write Reg.cmd.number c) s = .next t) :
    (∃ i, HostAction.write Reg.cmd.number c = cmdAction i ∧ exec i s = .next t) ∨
    t = { s with err := some .illegalCommand, errInfo := BitVec.ofNat 8 c } := by
  by_cases hc : c < 256
  · rw [hostAct_write_cmd hc] at h
    cases hd : decode (BitVec.ofNat 8 c) with
    | ok i =>
      rw [issueCommand_of_decode hd] at h
      refine .inl ⟨i, ?_, h⟩
      rw [cmdAction, encode_of_decode hd, BitVec.toNat_ofNat, Nat.mod_eq_of_lt hc]
    | error e =>
      rw [issueCommand_of_illegal hd] at h
      cases h
      exact .inr rfl
  · rw [hostAct_write_too_wide fw s rfl (by simpa [Reg.width] using hc)] at h
    cases h

/-- Everything a host action that goes on can do. -/
theorem hostAct_cases {fw : Nat} {a : HostAction} {s t : State} (h : hostAct fw a s = .next t) :
    (a = .reset ∧ t = applyReset s) ∨
    (∃ i, a = cmdAction i ∧ exec i s = .next t) ∨
    (∃ c, t = { s with err := some .illegalCommand, errInfo := c }) ∨
    (∃ r v, v < 2 ^ Reg.width fw r ∧ t = s.storeReg r v) ∨
    (∃ q i b, Space.writable q = true ∧ i < q.capacity ∧ t = s.storeByte q i b) ∨
    (∃ v, t = s.afterBsChar.give v) ∨ ∃ v, t = s.give v := by
  by_cases hr : a = .reset
  · subst hr
    cases h
    exact .inl ⟨rfl, rfl⟩
  by_cases hc : ∃ c, a = .write Reg.cmd.number c
  · obtain ⟨c, rfl⟩ := hc
    rcases hostAct_write_cmd_next h with ⟨i, hi, hx⟩ | ht
    · exact .inr (.inl ⟨i, hi, hx⟩)
    · exact .inr (.inr (.inl ⟨_, ht⟩))
  refine .inr (.inr (.inr ?_))
  rcases hostAct_next (not_exists.mp hc) hr h with
    ⟨r, v, -, -, hv, ht⟩ | ⟨q, i, b, -, hw, hi, -, ht⟩ | ⟨r, v, -, -, ht⟩ | ⟨q, i, v, -, ht⟩
  · exact .inl ⟨r, v, hv, ht⟩
  · exact .inr (.inl ⟨q, i, _, hw, hi, ht⟩)
  · split at ht
    · exact .inr (.inr (.inl ⟨v, ht⟩))
    · exact .inr (.inr (.inr ⟨v, ht⟩))
  · exact .inr (.inr (.inr ⟨v, ht⟩))

/-! ### The step -/

theorem stepWith_nil {fw : Nat} {s : State} (h : s.script = []) : stepWith fw s = .next s := by
  simp only [stepWith, h]

theorem stepWith_cons {fw : Nat} {s : State} {a : HostAction} {rest : List HostAction} (h : s.script = a :: rest) :
    stepWith fw s = hostAct fw a { s with script := rest } := by
  simp only [stepWith, h]

/-- Settles O3: the step is the next action, and a write of a word to CMD issues the word. -/
theorem stepRunsTheNextHostAction : Obligations.StepRunsTheNextHostAction := by
  unfold Obligations.StepRunsTheNextHostAction
  refine ⟨fun s rest c i hs hc hd => ?_, fun s rest c e hs hc hd => ?_, fun s hs => stepWith_nil hs,
    fun s a rest hs => stepWith_cons hs⟩
  · rw [step, stepWith_cons hs, hostAct_write_cmd hc, issueCommand_of_decode hd]
  · rw [step, stepWith_cons hs, hostAct_write_cmd hc, issueCommand_of_illegal hd]

/-! ### What a command changes -/

section
variable {i : Instr} {s t : State}

/-- A command writes the slot, the stream, the results and the status, and nothing else. -/
theorem exec_writes_results_only (h : exec i s = .next t) :
    ∃ slot active pos out outLen res err info,
      t = { s with hdr := slot, bsActive := active, bsPos := pos, out := out, outLen := outLen, res := res,
                   err := err, errInfo := info } := by
  rcases exec_next_cases h with ⟨-, k, n, rfl⟩ | ⟨-, r, -, rfl⟩ | ⟨-, -, rfl⟩ | ⟨r, -, hr⟩
  · exact ⟨_, _, _, _, _, _, _, _, rfl⟩
  · exact ⟨_, _, _, _, _, _, _, _, rfl⟩
  · exact ⟨_, _, _, _, _, _, _, _, rfl⟩
  · rcases hr with ⟨-, rfl⟩ | ⟨-, rfl⟩ | ⟨-, rfl⟩ | ⟨-, rfl⟩ | ⟨-, rfl⟩ <;> exact ⟨_, _, _, _, _, _, _, _, rfl⟩

/-- OUT and OUT_LEN change by a successful ENCODE only (10_state.md R30). -/
theorem exec_out (h : exec i s = .next t) (hi : i ≠ .encode ∨ t.err ≠ none) :
    t.outLen = s.outLen ∧ t.out = s.out := by
  rcases exec_next_cases h with ⟨-, k, n, rfl⟩ | ⟨-, r, -, rfl⟩ | ⟨-, -, rfl⟩ | ⟨r, -, hr⟩
  · exact ⟨rfl, rfl⟩
  · exact ⟨rfl, rfl⟩
  · exact ⟨rfl, rfl⟩
  · rcases hr with ⟨-, rfl⟩ | ⟨rfl, rfl⟩ | ⟨-, rfl⟩ | ⟨-, rfl⟩ | ⟨-, rfl⟩
    · exact ⟨rfl, rfl⟩
    · simp at hi
    · exact ⟨rfl, rfl⟩
    · exact ⟨rfl, rfl⟩
    · exact ⟨rfl, rfl⟩

/-- RES changes by a successful CHECKSUM, VERIFY or RECOMPUTE only (R31). -/
theorem exec_res (h : exec i s = .next t) (hi : (i ≠ .checksum ∧ i ≠ .verify ∧ i ≠ .recompute) ∨ t.err ≠ none) :
    t.res = s.res := by
  rcases exec_next_cases h with ⟨-, k, n, rfl⟩ | ⟨-, r, -, rfl⟩ | ⟨-, -, rfl⟩ | ⟨r, -, hr⟩
  · rfl
  · rfl
  · rfl
  · rcases hr with ⟨rfl, rfl⟩ | ⟨-, rfl⟩ | ⟨rfl, rfl⟩ | ⟨-, rfl⟩ | ⟨rfl, rfl⟩
    · simp at hi
    · rfl
    · simp at hi
    · rfl
    · simp at hi

/-- The slot changes by CONSTRUCT, DECODE and RECOMPUTE only (R24). -/
theorem exec_hdr (h : exec i s = .next t) (hi : ∀ j ∈ [Instr.construct, .decode, .recompute], i ≠ j) :
    t.hdr = s.hdr := by
  simp only [List.mem_cons, List.not_mem_nil, or_false, forall_eq_or_imp, forall_eq] at hi
  obtain ⟨h1, h2, h3⟩ := hi
  rcases exec_next_cases h with ⟨hi, -⟩ | ⟨hi, -⟩ | ⟨-, -, rfl⟩ | ⟨r, -, hr⟩
  · exact absurd hi (not_or.mpr ⟨h1, h2⟩)
  · exact absurd hi (not_or.mpr ⟨h1, h2⟩)
  · rfl
  · rcases hr with ⟨-, rfl⟩ | ⟨-, rfl⟩ | ⟨-, rfl⟩ | ⟨-, rfl⟩ | ⟨rfl, -⟩
    · rfl
    · rfl
    · rfl
    · rfl
    · exact absurd rfl h3

/-- ENCODE stores the bytes of `enc` and no byte beyond them (R30). -/
theorem exec_encode_out_beyond {r : Header} (hs : s.hdr = some r) (h : exec .encode s = .next t) {a : Nat}
    (ha : (enc r).length ≤ a) : t.out.read a = s.out.read a := by
  rw [exec_encode_of_record hs] at h
  cases h
  rw [complete_out, Memory.read_writeBytes, if_neg (by omega)]

/-- RECOMPUTE changes the checksum of the record, if there is one (R24). -/
theorem exec_recompute_hdr (h : exec .recompute s = .next t) :
    t.hdr = s.hdr.map (fun r => { r with headerChecksum := hcs r }) := by
  rcases slot_cases s with hs | ⟨r, hs⟩
  · rw [exec_of_no_record (by simp [NeedsHeader]) hs] at h
    cases h
    simp [hs]
  · rw [exec_recompute_of_record hs] at h
    cases h
    simp [hs]

end

/-- Settles O38: the frame of the commands, read at each operand. -/
theorem commandsLeaveTheOperandsAlone : Obligations.CommandsLeaveTheOperandsAlone := by
  unfold Obligations.CommandsLeaveTheOperandsAlone
  intro i s t h
  obtain ⟨slot, active, pos, out, outLen, res, err, info, rfl⟩ := exec_writes_results_only h
  refine ⟨rfl, rfl, rfl, rfl, rfl, fun q a hq => ?_, rfl, rfl⟩
  cases q with
  | out => exact absurd rfl hq
  | input | pay | srcTxt | dstTxt | hOpt | hPay => rfl

/-- Settles O39: the frames of OUT and RES. -/
theorem commandsLeaveOtherResultsAlone : Obligations.CommandsLeaveOtherResultsAlone := by
  unfold Obligations.CommandsLeaveOtherResultsAlone
  intro i s t h
  refine ⟨fun hi => ?_, fun r hi hs a ha => ?_, exec_res h⟩
  · obtain ⟨hlen, hout⟩ := exec_out h hi
    exact ⟨hlen, fun a => by rw [byteOf_out, byteOf_out, hout]⟩
  · subst hi
    exact exec_encode_out_beyond hs h ha

/-- Settles O40: of the host's actions only the commands and reset reach the slot. -/
theorem theRecordIsImmutable : Obligations.TheRecordIsImmutable := by
  unfold Obligations.TheRecordIsImmutable
  refine ⟨fun fw a s t h hr hi => ?_, fun s t h => exec_recompute_hdr h⟩
  rcases hostAct_cases h with
    ⟨hreset, -⟩ | ⟨i, rfl, hx⟩ | ⟨c, rfl⟩ | ⟨r, v, -, rfl⟩ | ⟨q, j, b, -, -, rfl⟩ | ⟨v, rfl⟩ | ⟨v, rfl⟩
  · exact absurd hreset hr
  · exact exec_hdr hx fun j hj hij => hi j hj (by rw [hij])
  · rfl
  · exact storeReg_hdr s r v
  · exact storeByte_hdr s q j b
  · exact afterBsChar_hdr s
  · rfl

/-! ### The invariant -/

theorem status_fields_aux : ∀ a b (e : BitVec 4),
    (0#2 ++ BitVec.ofBool a ++ BitVec.ofBool b ++ e).extractLsb' 6 2 = 0#2 ∧
    (0#2 ++ BitVec.ofBool a ++ BitVec.ofBool b ++ e).extractLsb' 0 4 = e := by decide

theorem errCode_le_seven (e : Option ErrorKind) : (errCode e).toNat ≤ 7 := by
  rcases e with _ | k
  · decide
  · cases k <;> decide

/-- The clauses of R43 on STATUS and OUT_LEN hold of every state, by the registers' widths and the eight codes. -/
theorem statusWf (s : State) : StatusWf s := by
  obtain ⟨hreserved, herr⟩ := status_fields_aux s.bsActive s.hdr.isSome (errCode s.err)
  refine ⟨by have := s.outLen.isLt; omega, hreserved, ?_⟩
  rw [State.status, herr]
  exact errCode_le_seven s.err

section
variable {fw : Nat} {s t : State}

theorem slotWf_of_some {r : Header} (hs : t.hdr = some r) (hw : r.wf = true) : SlotWf t := by
  intro r' hs'
  rw [hs] at hs'
  cases hs'
  exact hw

/-- The invariant carries over where slot and stream stay and the registers and buffers fit. -/
theorem inv_of_same_slot (hi : Inv fw s) (hh : t.hdr = s.hdr) (ha : t.bsActive = s.bsActive) (hp : t.bsPos = s.bsPos)
    (ho : OpsFit fw t.ops) (hb : BuffersFit t) : Inv fw t := by
  obtain ⟨hslot, hopen, hclosed, -, -, -⟩ := hi
  refine ⟨?_, ?_, ?_, statusWf t, ho, hb⟩
  · rwa [SlotWf, hh]
  · rwa [StreamOpenWf, hh, ha, hp]
  · rwa [StreamClosedWf, ha, hp]

/-- With the stream closed the invariant asks a well-formed record only. -/
theorem inv_of_closed_stream (hslot : SlotWf t) (ha : t.bsActive = false) (hp : t.bsPos = 0) (ho : OpsFit fw t.ops)
    (hb : BuffersFit t) : Inv fw t :=
  ⟨hslot, fun h => Bool.noConfusion (ha.symm.trans h), fun _ => hp, statusWf t, ho, hb⟩

/-- With the stream open the invariant asks a record under it and the cursor inside its string. -/
theorem inv_of_open_stream {r : Header} (hs : t.hdr = some r) (hw : r.wf = true) (ha : t.bsActive = true)
    (hp : t.bsPos.toNat ≤ 8 * r.totalLength.toNat) (ho : OpsFit fw t.ops) (hb : BuffersFit t) : Inv fw t :=
  ⟨slotWf_of_some hs hw, fun _ => ⟨r, hs, hp⟩, fun h => Bool.noConfusion (ha.symm.trans h), statusWf t, ho, hb⟩

/-- The checksum is no part of well-formedness (R23). -/
theorem wf_set_headerChecksum (r : Header) (c : Word16) : { r with headerChecksum := c }.wf = r.wf := rfl

/-- The wire form of a well-formed record fits OUT: its length is `total_length`, a 16-bit number. -/
theorem enc_length_le_outMax {r : Header} (hw : r.wf = true) : (enc r).length ≤ Config.outMax := by
  have hmax : Config.outMax = 65535 := rfl
  have hlt : r.totalLength.toNat < 65536 := r.totalLength.isLt
  have hlen : (enc r).length = r.totalLength.toNat := enc_length_of_wf hw
  omega

theorem buffersFit_of_out (hb : BuffersFit s) (hin : t.input = s.input) (hpay : t.pay = s.pay)
    (hsrc : t.srcTxt = s.srcTxt) (hdst : t.dstTxt = s.dstTxt) (hout : t.out.wf ∧ t.out.within Config.outMax) :
    BuffersFit t := by
  obtain ⟨fin, -, frest⟩ := hb
  rw [BuffersFit, hin, hpay, hsrc, hdst]
  exact ⟨fin, hout, frest⟩

/-- OUT stays canonical and inside its capacity when ENCODE stores a well-formed record. -/
theorem storeEnc_fits {m : Memory} {r : Header} (hm : m.wf ∧ m.within Config.outMax) (hw : r.wf = true) :
    (m.writeBytes 0 (enc r)).wf ∧ (m.writeBytes 0 (enc r)).within Config.outMax := by
  obtain ⟨hwf, hwithin⟩ := hm
  have hlen : 0 + (enc r).length ≤ Config.outMax := by rw [Nat.zero_add]; exact enc_length_le_outMax hw
  exact ⟨Memory.wf_writeBytes hwf 0 _, Memory.within_writeBytes hwithin hlen⟩

theorem exec_keeps_inv {i : Instr} (hi : Inv fw s) (h : exec i s = .next t) : Inv fw t := by
  obtain ⟨hslot, -, -, -, ho, hb⟩ := id hi
  rcases exec_next_cases h with ⟨-, k, n, rfl⟩ | ⟨-, r, hw, rfl⟩ | ⟨-, -, rfl⟩ | ⟨r, hs, hr⟩
  · exact inv_of_closed_stream (fun _ hnone => by cases hnone) rfl rfl ho hb
  · exact inv_of_closed_stream (slotWf_of_some rfl hw) rfl rfl ho hb
  · exact inv_of_same_slot hi rfl rfl rfl ho hb
  · have hw : r.wf = true := hslot r hs
    obtain ⟨-, hout, -⟩ := id hb
    rcases hr with ⟨-, rfl⟩ | ⟨-, rfl⟩ | ⟨-, rfl⟩ | ⟨-, rfl⟩ | ⟨-, rfl⟩
    · exact inv_of_same_slot hi rfl rfl rfl ho hb
    · refine inv_of_same_slot hi rfl rfl rfl ho (buffersFit_of_out hb rfl rfl rfl rfl ?_)
      simpa only using storeEnc_fits hout hw
    · exact inv_of_same_slot hi rfl rfl rfl ho hb
    · exact inv_of_open_stream hs hw rfl (Nat.zero_le _) ho hb
    · exact inv_of_closed_stream (slotWf_of_some rfl ((wf_set_headerChecksum r _).trans hw)) rfl rfl ho hb

/-- A value below the register's width keeps the numeric operand registers inside FW bits (R25). -/
theorem opsFit_storeReg {r : Reg} {v : Nat} (ho : OpsFit fw s.ops) (hv : v < 2 ^ r.width fw) :
    OpsFit fw (s.storeReg r v).ops := by
  obtain ⟨h1, h2, h3, h4, h5, h6, h7, h8, h9, h10⟩ := ho
  cases r <;> refine ⟨?_, ?_, ?_, ?_, ?_, ?_, ?_, ?_, ?_, ?_⟩ <;> assumption

theorem storeReg_keeps_inv {r : Reg} {v : Nat} (hi : Inv fw s) (hv : v < 2 ^ r.width fw) : Inv fw (s.storeReg r v) := by
  obtain ⟨-, -, -, -, ho, hb⟩ := id hi
  refine inv_of_same_slot hi (storeReg_hdr ..) (storeReg_bsActive ..) (storeReg_bsPos ..) (opsFit_storeReg ho hv) ?_
  simpa [BuffersFit] using hb

theorem write_fits {m : Memory} {cap i : Nat} (hm : m.wf ∧ m.within cap) (hi : i < cap) (b : Byte) :
    (m.write i b).wf ∧ (m.write i b).within cap :=
  ⟨Memory.wf_write hm.1 i b, Memory.within_write hm.2 hi b⟩

/-- A byte written inside the capacity of its space keeps every buffer canonical and inside its capacity. -/
theorem buffersFit_storeByte {q : Space} {i : Nat} (b : Byte) (hb : BuffersFit s) (hi : i < q.capacity) :
    BuffersFit (s.storeByte q i b) := by
  obtain ⟨hin, hout, hpay, hsrc, hdst⟩ := hb
  cases q with
  | input => exact ⟨write_fits hin hi b, hout, hpay, hsrc, hdst⟩
  | pay => exact ⟨hin, hout, write_fits hpay hi b, hsrc, hdst⟩
  | srcTxt => exact ⟨hin, hout, hpay, write_fits hsrc hi b, hdst⟩
  | dstTxt => exact ⟨hin, hout, hpay, hsrc, write_fits hdst hi b⟩
  | out | hOpt | hPay => exact ⟨hin, hout, hpay, hsrc, hdst⟩

theorem storeByte_keeps_inv {q : Space} {i : Nat} {b : Byte} (hi : Inv fw s) (hcap : i < q.capacity) :
    Inv fw (s.storeByte q i b) := by
  obtain ⟨-, -, -, -, ho, hb⟩ := id hi
  refine inv_of_same_slot hi (storeByte_hdr ..) (storeByte_bsActive ..) (storeByte_bsPos ..) ?_
    (buffersFit_storeByte b hb hcap)
  rwa [storeByte_ops]

theorem give_keeps_inv {v : Nat} (hi : Inv fw s) : Inv fw (s.give v) := hi

/-- A stream that still has a character: open, over a record, its cursor before the end (45_binstr.md R183). -/
theorem streaming_eq_some_iff {r : Header} :
    s.streaming = some r ↔ s.bsActive = true ∧ s.hdr = some r ∧ s.bsPos.toNat < 8 * r.totalLength.toNat := by
  cases hact : s.bsActive with
  | false => simp [State.streaming, hact]
  | true =>
    cases hs : s.hdr with
    | none => simp [State.streaming, hs]
    | some r' =>
      by_cases hr : r' = r
      · subst hr
        simp [State.streaming, hact, hs]
      · simp [State.streaming, hact, hs, hr]

/-- The read of BS_CHAR moves the cursor only from before the end of the string, so it stays inside. -/
theorem afterBsChar_keeps_inv (hi : Inv fw s) : Inv fw s.afterBsChar := by
  obtain ⟨hslot, -, -, -, ho, hb⟩ := id hi
  unfold State.afterBsChar
  cases hst : s.streaming with
  | none => exact hi
  | some r =>
    obtain ⟨hact, hs, hpos⟩ := streaming_eq_some_iff.mp hst
    refine inv_of_open_stream (r := r) hs (hslot r hs) hact ?_ ho hb
    calc (s.bsPos + 1).toNat ≤ s.bsPos.toNat + 1 := by rw [BitVec.toNat_add]; exact Nat.mod_le _ _
      _ ≤ 8 * r.totalLength.toNat := hpos

/-- Reset establishes the invariant, whatever the state before. -/
theorem applyReset_inv (fw : Nat) (s : State) : Inv fw (applyReset s) := by
  have hzero : 0 < 2 ^ fw := Nat.two_pow_pos fw
  have hempty : ∀ cap, Memory.wf [] ∧ Memory.within cap [] := fun cap => ⟨List.Pairwise.nil, fun _ h => by cases h⟩
  refine inv_of_closed_stream (fun _ h => by cases h) rfl rfl ?_ ⟨hempty _, hempty _, hempty _, hempty _, hempty _⟩
  exact ⟨hzero, hzero, hzero, hzero, hzero, hzero, hzero, hzero, hzero, hzero⟩

theorem hostAct_keeps_inv {a : HostAction} (hi : Inv fw s) (h : hostAct fw a s = .next t) : Inv fw t := by
  rcases hostAct_cases h with
    ⟨-, rfl⟩ | ⟨i, -, hx⟩ | ⟨c, rfl⟩ | ⟨r, v, hv, rfl⟩ | ⟨q, j, b, -, hj, rfl⟩ | ⟨v, rfl⟩ | ⟨v, rfl⟩
  · exact applyReset_inv fw s
  · exact exec_keeps_inv hi hx
  · obtain ⟨-, -, -, -, ho, hb⟩ := id hi
    exact inv_of_same_slot hi rfl rfl rfl ho hb
  · exact storeReg_keeps_inv hi hv
  · exact storeByte_keeps_inv hi hj
  · exact give_keeps_inv (afterBsChar_keeps_inv hi)
  · exact give_keeps_inv hi

theorem stepWith_keeps_inv (hi : Inv fw s) (h : stepWith fw s = .next t) : Inv fw t := by
  cases hs : s.script with
  | nil =>
    rw [stepWith_nil hs] at h
    cases h
    exact hi
  | cons a rest =>
    rw [stepWith_cons hs] at h
    have hpop : Inv fw { s with script := rest } := hi
    exact hostAct_keeps_inv hpop h

end

/-- Settles O58: a step is a host action, and each kind of host action keeps the invariant. -/
theorem everyStepKeepsTheInvariant : Obligations.EveryStepKeepsTheInvariant := by
  unfold Obligations.EveryStepKeepsTheInvariant
  exact ⟨fun fw s t hi h => stepWith_keeps_inv hi h, fun s t hi h => stepWith_keeps_inv hi h⟩

/-- Settles O57: the reset state is the state after a reset event in it. -/
theorem resetMeetsTheInvariant : Obligations.ResetMeetsTheInvariant := by
  unfold Obligations.ResetMeetsTheInvariant
  exact fun fw => applyReset_inv fw State.reset

end Sys2Proof.Machine
end

section
/-! SUPPORT. The register map and the space map row by row (10_state.md R36 to R38): one lemma per kind of row turns the
number, width, access and field of a register into what the host sees there (O52, O59, O60), and the fields of STATUS and
the reset values (O51, O55). -/

namespace Sys2Proof.Machine

open Sys2Proof.Rules Sys2Proof.Safety

/-! ### What a read returns and what is refused -/

section
variable {fw : Nat} {s : State}

/-- Every register but BS_CHAR is read without a side effect (20_memory.md R67). -/
theorem returns_of_regValue {r : Reg} {v : Nat} (hr : r ≠ .bsChar) (hv : s.regValue r = some v) :
    Returns fw (.read r.number) s v := by
  rw [Returns, hostAct_read hv, if_neg hr]
  rfl

theorem refused_write_of_access {r : Reg} (hr : r.access = .readOnly ∨ r.access = .readRecord) (v : Nat) :
    Refused fw (.write r.number v) s := by
  have hw : r.writable = false := by rcases hr with hr | hr <;> simp [Reg.writable, hr]
  exact ⟨_, hostAct_write_read_only fw v s hw⟩

theorem refused_write_of_too_wide {r : Reg} {v : Nat} (hr : r.access = .writeOnly ∨ r.access = .readWrite)
    (hv : 2 ^ r.width fw ≤ v) : Refused fw (.write r.number v) s := by
  have hw : r.writable = true := by rcases hr with hr | hr <;> simp [Reg.writable, hr]
  exact ⟨_, hostAct_write_too_wide fw s hw hv⟩

theorem returns_of_byteOf {q : Space} {i : Nat} {b : Byte} (hi : i < q.capacity) (hb : s.byteOf q i = some b) :
    Returns fw (.bufRead q.number i) s b.toNat := hostAct_bufRead_of_byte hi hb

theorem refused_bufRead_of_beyond {q : Space} {i : Nat} (hi : q.capacity ≤ i) : Refused fw (.bufRead q.number i) s :=
  ⟨_, hostAct_bufRead_beyond fw s hi⟩

theorem refused_bufRead_of_unwritten {q : Space} {i : Nat} {m : Memory} (hm : s.buffer q = some m)
    (hb : m.read i = none) : Refused fw (.bufRead q.number i) s := by
  by_cases hi : q.capacity ≤ i
  · exact refused_bufRead_of_beyond hi
  · exact ⟨.unwrittenByte q i, by simp only [hostAct, bufRead, Space.ofNumber_number, ge_iff_le, if_neg hi, hm, hb]⟩

theorem refused_bufWrite_of_read_only {q : Space} (hq : q.writable = false) (i b : Nat) :
    Refused fw (.bufWrite q.number i b) s := ⟨_, hostAct_bufWrite_read_only fw i b s hq⟩

theorem refused_bufWrite_of_too_big {q : Space} {i b : Nat} (h : q.capacity ≤ i ∨ 256 ≤ b) :
    Refused fw (.bufWrite q.number i b) s := by
  cases hw : q.writable with
  | false => exact refused_bufWrite_of_read_only hw i b
  | true =>
    by_cases hi : q.capacity ≤ i
    · exact ⟨.beyondCapacity q i, by simp [hostAct, bufWrite, Space.ofNumber_number, hw, hi]⟩
    · have hb : 256 ≤ b := h.resolve_left hi
      exact ⟨.byteTooWide b, by simp [hostAct, bufWrite, Space.ofNumber_number, hw, hi, hb]⟩

/-- Inside the capacity a view is read as the record's byte sequence. -/
theorem hostAct_bufRead_view {q : Space} {i : Nat} (hq : s.buffer q = none) (hi : i < q.capacity) :
    hostAct fw (.bufRead q.number i) s = readView q i s := by
  simp only [hostAct, bufRead, Space.ofNumber_number, ge_iff_le, if_neg (Nat.not_le.mpr hi), hq]

theorem readView_of_byte {q : Space} {i : Nat} {h : Header} {b : Byte} (hs : s.hdr = some h)
    (hb : (h.bytesOf q)[i]? = some b) : readView q i s = .next (s.give b.toNat) := by
  simp only [readView, hs, hb]

theorem readView_of_beyond {q : Space} {i : Nat} {h : Header} (hs : s.hdr = some h)
    (hb : (h.bytesOf q)[i]? = none) : readView q i s = .refused (.beyondRecord q i) := by
  simp only [readView, hs, hb]

theorem readView_of_no_record {q : Space} {i : Nat} (hs : s.hdr = none) :
    readView q i s = .refused (.noRecordSpace q) := by
  simp only [readView, hs]

/-- A view is refused wherever its read of the record is. -/
theorem refused_bufRead_of_readView {q : Space} {i : Nat} {x : Refusal} (hq : s.buffer q = none)
    (h : readView q i s = .refused x) : Refused fw (.bufRead q.number i) s := by
  by_cases hi : q.capacity ≤ i
  · exact refused_bufRead_of_beyond hi
  · exact ⟨x, (hostAct_bufRead_view hq (Nat.not_le.mp hi)).trans h⟩

/-- The numbers R37 assigns: 0x00 to 0x07, 0x10 to 0x1E, 0x30 to 0x40. -/
theorem Reg.number_assigned (r : Reg) :
    r.number ≤ 0x07 ∨ (0x10 ≤ r.number ∧ r.number ≤ 0x1E) ∨ (0x30 ≤ r.number ∧ r.number ≤ 0x40) := by
  cases r <;> decide

theorem Reg.ofNumber_unassigned {n : Nat} (hn : (0x08 ≤ n ∧ n ≤ 0x0F) ∨ (0x1F ≤ n ∧ n ≤ 0x2F) ∨ 0x41 ≤ n) :
    Reg.ofNumber n = none := by
  cases h : Reg.ofNumber n with
  | none => rfl
  | some r =>
    have hr := Reg.number_assigned r
    rw [Reg.number_of_ofNumber h] at hr
    omega

theorem Space.ofNumber_unassigned {n : Nat} (hn : 7 ≤ n) : Space.ofNumber n = none := by
  cases h : Space.ofNumber n with
  | none => rfl
  | some q =>
    have hq : q.number < 7 := by cases q <;> decide
    rw [Space.number_of_ofNumber h] at hq
    omega

theorem refused_of_unassigned_register {n : Nat} (hn : Reg.ofNumber n = none) :
    Refused fw (.read n) s ∧ ∀ v, Refused fw (.write n v) s :=
  ⟨⟨.unassignedRegister n, by simp only [hostAct, hostRead, hn]⟩,
    fun v => ⟨.unassignedRegister n, by simp only [hostAct, hostWrite, hn]⟩⟩

theorem refused_of_unassigned_space {n : Nat} (hn : Space.ofNumber n = none) (i b : Nat) :
    Refused fw (.bufRead n i) s ∧ Refused fw (.bufWrite n i b) s :=
  ⟨⟨.unassignedSpace n, by simp only [hostAct, bufRead, hn]⟩, ⟨.unassignedSpace n, by simp only [hostAct, bufWrite, hn]⟩⟩

end

/-! ### The rows of the register map -/

section
variable {fw : Nat} {s : State} {r : Reg} {n w shown : Nat}

theorem readWriteRow_of {put : Nat → State} (hn : r.number = n) (hw : r.width fw = w) (ha : r.access = .readWrite)
    (hshown : s.regValue r = some shown) (hput : ∀ v, s.storeReg r v = put v) : ReadWriteRow fw s r n w shown put := by
  subst hn hw
  have hr : r ≠ .bsChar := by rintro rfl; cases ha
  refine ⟨⟨rfl, rfl, ha⟩, returns_of_regValue hr hshown, fun v hv => ?_, fun v hv => ?_⟩
  · rw [hostAct_write ha hv, hput]
  · exact refused_write_of_too_wide (.inr ha) hv

theorem readOnlyRow_of (hn : r.number = n) (hw : r.width fw = w) (ha : r.access = .readOnly) (hr : r ≠ .bsChar)
    (hshown : s.regValue r = some shown) (hfit : shown < 2 ^ w) : ReadOnlyRow fw s r n w shown := by
  subst hn hw
  exact ⟨⟨rfl, rfl, ha⟩, returns_of_regValue hr hshown, hfit, refused_write_of_access (.inl ha)⟩

/-- An H_* register shows the record's port. -/
theorem regValue_record (ha : r.access = .readRecord) : s.regValue r = s.hdr.bind (fun h => h.port r) := by
  cases r with
  | hVersion | hHlw | hDscp | hEcn | hTotalLength | hIdentification | hDf | hMf | hFragmentOffset => rfl
  | hTtl | hProtocol | hHeaderChecksum | hSrc | hDst | hPayLen | hRsv | hOptLen => rfl
  | _ => cases ha

theorem recordPortRow_of {shown : Header → Nat} (hn : r.number = n) (hw : r.width fw = w) (ha : r.access = .readRecord)
    (hport : ∀ h : Header, h.port r = some (shown h)) (hfit : ∀ h : Header, h.wf = true → shown h < 2 ^ w) :
    RecordPortRow fw s r n w shown := by
  subst hn hw
  have hr : r ≠ .bsChar := by rintro rfl; cases ha
  refine ⟨⟨rfl, rfl, ha⟩, fun h hs => ⟨returns_of_regValue hr ?_, hfit h⟩, fun hs => ?_,
    refused_write_of_access (.inr ha)⟩
  · rw [regValue_record ha, hs, Option.bind_some, hport]
  · exact ⟨_, hostAct_read_no_record fw (by rw [regValue_record ha, hs, Option.bind_none])⟩

end

/-! ### The rows of the space map -/

section
variable {fw : Nat} {s : State} {q : Space} {n cap : Nat}

theorem recordViewRow_of {bytes : Header → List Byte} (hn : q.number = n) (hcap : q.capacity = cap)
    (hq : s.buffer q = none) (hwr : q.writable = false) (hbytes : ∀ h : Header, h.bytesOf q = bytes h)
    (hfit : ∀ h : Header, h.wf = true → (bytes h).length ≤ cap) : RecordViewRow fw s q n cap bytes := by
  subst hn hcap
  refine ⟨⟨rfl, rfl⟩, fun h hs => ⟨fun i b hi hb => ?_, fun i hi => ?_, hfit h⟩, fun hs i => ?_,
    fun i hi => refused_bufRead_of_beyond hi, refused_bufWrite_of_read_only hwr⟩
  · rw [← hbytes] at hb
    exact (hostAct_bufRead_view hq hi).trans (readView_of_byte hs hb)
  · rw [← hbytes] at hi
    exact refused_bufRead_of_readView hq (readView_of_beyond hs (List.getElem?_eq_none hi))
  · exact refused_bufRead_of_readView hq (readView_of_no_record hs)

theorem storageReads_of {m : Memory} (hn : q.number = n) (hcap : q.capacity = cap) (hm : s.buffer q = some m) :
    StorageReads fw s q n cap m := by
  subst hn hcap
  refine ⟨⟨rfl, rfl⟩, fun i b hi hb => returns_of_byteOf hi ?_, fun i h => ?_⟩
  · rw [State.byteOf, hm, Option.bind_some, hb]
  · rcases h with hi | hb
    · exact refused_bufRead_of_beyond hi
    · exact refused_bufRead_of_unwritten hm hb

theorem storageWrites_of (q : Space) {m : Memory} {put : Memory → State} (hn : q.number = n) (hcap : q.capacity = cap)
    (hwr : q.writable = true) (hput : ∀ i b, s.storeByte q i b = put (m.write i b)) :
    StorageWrites fw s n cap m put := by
  subst hn hcap
  refine ⟨fun i b hi hb => ?_, fun i b h => refused_bufWrite_of_too_big h⟩
  rw [hostAct_bufWrite hwr hi hb, hput]

end

/-! ### The register map -/

theorem bool_toNat_eq_ite (b : Bool) : b.toNat = if b then 1 else 0 := by cases b <;> rfl

theorem bit_lt (b : Bool) : (if b then 1 else 0) < 2 ^ 1 := by cases b <;> decide

/-- A read of BS_CHAR gives one byte. -/
theorem hostAct_read_bsChar (fw : Nat) (s : State) :
    hostAct fw (.read Reg.bsChar.number) s = .next (s.afterBsChar.give s.bsChar.toNat) := by
  rw [hostAct_read (r := .bsChar) rfl, if_pos rfl]

/-- Settles O59: every row by the lemma of its kind; CMD, BS_CHAR and the unassigned numbers by what a read or write of them
answers. -/
theorem registerMap : Obligations.RegisterMap := by
  unfold Obligations.RegisterMap
  refine ⟨fun fw s => ⟨?_, ?_, ?_, ?_, ?_, ?_, ?_, ?_, ?_, ?_, ?_, ?_, ?_, ?_, ?_, ?_, ?_, ?_, ?_, ?_, ?_⟩, fun fw s => ?_,
    fun fw s => ?_, fun fw n s hn => refused_of_unassigned_register (Reg.ofNumber_unassigned hn)⟩
  -- OP_DF and OP_MF hold a flag, shown and stored as a number.
  case refine_8 | refine_9 =>
    exact readWriteRow_of rfl rfl rfl (congrArg some (bool_toNat_eq_ite _)) fun v => by
      rw [State.storeReg, beq_eq_decide]
  -- STATUS, ERRINFO, RES, OUT_LEN and BS_POS.
  case refine_17 | refine_18 | refine_19 | refine_20 | refine_21 =>
    exact readOnlyRow_of rfl rfl rfl (by decide) rfl (BitVec.isLt _)
  -- CMD.
  case refine_22 =>
    exact ⟨⟨rfl, rfl, rfl⟩, returns_of_regValue (r := .cmd) (by decide) rfl, fun c hc => hostAct_write_cmd hc,
      fun c hc => refused_write_of_too_wide (r := .cmd) (.inl rfl) hc⟩
  -- BS_CHAR.
  case refine_23 =>
    refine ⟨⟨rfl, rfl, rfl⟩, ⟨_, _, hostAct_read_bsChar fw s, ?_, s.bsChar.isLt⟩,
      refused_write_of_access (r := .bsChar) (.inl rfl)⟩
    rw [give_returned, afterBsChar_returned]
  -- The numeric operand registers and the lengths.
  all_goals exact readWriteRow_of rfl rfl rfl rfl fun _ => rfl

/-! ### The space map -/

/-- Settles O60: every space by the lemmas for the reads and the writes of a storage space. -/
theorem spaceMap : Obligations.SpaceMap := by
  unfold Obligations.SpaceMap
  refine ⟨fun fw s => ⟨⟨?_, ?_⟩, ⟨?_, ?_⟩, ⟨?_, ?_⟩, ⟨?_, ?_⟩, ?_, ?_⟩,
    fun fw n i b s hn => refused_of_unassigned_space (Space.ofNumber_unassigned hn) i b, rfl⟩
  · exact storageReads_of rfl rfl rfl
  · exact storageWrites_of .input rfl rfl rfl fun _ _ => rfl
  · exact storageReads_of rfl rfl rfl
  · exact refused_bufWrite_of_read_only (q := .out) rfl
  · exact storageReads_of rfl rfl rfl
  · exact storageWrites_of .pay rfl rfl rfl fun _ _ => rfl
  · exact storageReads_of rfl rfl rfl
  · exact storageWrites_of .srcTxt rfl rfl rfl fun _ _ => rfl
  · exact storageReads_of rfl rfl rfl
  · exact storageWrites_of .dstTxt rfl rfl rfl fun _ _ => rfl

/-! ### The record's ports -/

theorem addr_value_lt (x : Addr) : x.value < 2 ^ 32 := by
  have ha := x.a.isLt
  have hb := x.b.isLt
  have hc := x.c.isLt
  have hd := x.d.isLt
  unfold Addr.value
  omega

section
variable {h : Header} (hw : h.wf = true)
include hw

theorem payload_length_le : h.payload.length ≤ 65515 := by
  obtain ⟨-, hhlw, htotal, -⟩ := (Header.wf_iff h).mp hw
  have := h.totalLength.isLt
  unfold Header.length at htotal
  omega

theorem options_length_le : h.options.length ≤ 40 := by
  obtain ⟨-, -, -, hopts⟩ := (Header.wf_iff h).mp hw
  have := h.headerLengthWords.isLt
  unfold Header.length at hopts
  omega

end

/-- The words at the wire bytes of R95, each made of fixed bytes of `enc`. -/
theorem enc_words (h : Header) :
    let w := fun i => (byteAt (enc h) i).toNat
    w 2 * 256 + w 3 = h.totalLength.toNat ∧ w 4 * 256 + w 5 = h.identification.toNat ∧
    w 10 * 256 + w 11 = h.headerChecksum.toNat ∧
    w 12 * 2 ^ 24 + w 13 * 2 ^ 16 + w 14 * 2 ^ 8 + w 15 = h.sourceAddress.value ∧
    w 16 * 2 ^ 24 + w 17 * 2 ^ 16 + w 18 * 2 ^ 8 + w 19 = h.destinationAddress.value := by
  refine ⟨?_, ?_, ?_, ?_, ?_⟩
  · exact word_bytes_toNat h.totalLength
  · exact word_bytes_toNat h.identification
  · exact word_bytes_toNat h.headerChecksum
  · rfl
  · rfl

/-- Settles O52: every port and view by the lemma of its kind of row, and the words of the wire form. -/
theorem recordPortsAgreeWithTheWire : Obligations.RecordPortsAgreeWithTheWire := by
  unfold Obligations.RecordPortsAgreeWithTheWire
  refine ⟨fun fw s => ⟨?_, ?_, ?_, ?_, ?_, ?_, ?_, ?_, ?_, ?_, ?_, ?_, ?_, ?_, ?_, ?_, ?_, ?_, ?_⟩, fun s h hs hw => ?_⟩
  -- H_DF, H_MF and H_RSV show a flag as a number.
  case refine_7 | refine_8 | refine_16 =>
    exact recordPortRow_of rfl rfl rfl (fun _ => congrArg some (bool_toNat_eq_ite _)) fun _ _ => bit_lt _
  -- H_SRC and H_DST show an address as its 32-bit value.
  case refine_13 | refine_14 => exact recordPortRow_of rfl rfl rfl (fun _ => rfl) fun _ _ => addr_value_lt _
  -- H_PAY_LEN and H_OPT_LEN show a length, which well-formedness bounds.
  case refine_15 =>
    exact recordPortRow_of rfl rfl rfl (fun _ => rfl) fun _ hw => (payload_length_le hw).trans_lt (by decide)
  case refine_17 =>
    exact recordPortRow_of rfl rfl rfl (fun _ => rfl) fun _ hw => (options_length_le hw).trans_lt (by decide)
  -- The views HOPT and HPAY.
  case refine_18 => exact recordViewRow_of rfl rfl rfl rfl (fun _ => rfl) fun _ => options_length_le
  case refine_19 => exact recordViewRow_of rfl rfl rfl rfl (fun _ => rfl) fun _ => payload_length_le
  -- The agreement with the wire bytes (R78).
  case refine_20 =>
    obtain ⟨htotal, hid, hsum, hsrc, hdst⟩ := enc_words h
    intro w
    simp only [State.regValue, hs, Option.bind_some, Header.port]
    exact ⟨congrArg some htotal.symm, congrArg some hid.symm, congrArg some hsum.symm, congrArg some hsrc.symm,
      congrArg some hdst.symm⟩
  -- Every other port shows a field of the port's width.
  all_goals exact recordPortRow_of rfl rfl rfl (fun _ => rfl) fun _ _ => BitVec.isLt _

/-! ### STATUS and the reset values -/

theorem status_toNat (s : State) :
    s.status.toNat = (errCode s.err).toNat + (if s.hdr = none then 0 else 16) + (if s.bsActive then 32 else 0) := by
  simp only [State.status, append_toNat]
  cases s.hdr <;> cases s.bsActive <;> simp <;> omega

/-- Settles O51: STATUS as a sum of its fields, and the codes listed. -/
theorem statusRegisterFields : Obligations.StatusRegisterFields := by
  unfold Obligations.StatusRegisterFields
  exact ⟨fun s => congrArg some (status_toNat s), rfl⟩

/-- Settles O55: the reset state's fields. -/
theorem resetValues : Obligations.ResetValues := by
  unfold Obligations.ResetValues
  refine ⟨rfl, rfl, rfl, rfl, rfl, rfl, rfl, rfl, rfl, rfl, rfl, by decide, fun q i => ?_⟩
  cases q <;> rfl

end Sys2Proof.Machine
end

section
/-! SUPPORT. The address checks of CONSTRUCT (40_construct.md R111 step 3, R113), once lengths and ranges are in order (O8). -/

namespace Sys2Proof.Machine

open Sys2Proof.Rules

theorem checkLength_of_eq {o : OpRegs} {n : Nat} (h : o.totalLength = 4 * o.hlw + n) : checkLength o n = .ok () :=
  if_neg (not_not.mpr h)

/-- With no field out of range every range check passes (R112). -/
theorem checkRanges_of_no_field_out_of_range {o : OpRegs} (h : ∀ k, ¬ FieldOutOfRange o k) : checkRanges o = .ok () := by
  obtain ⟨hmin, hmax⟩ : 5 ≤ o.hlw ∧ o.hlw ≤ 15 := by simpa [FieldOutOfRange] using h 1
  refine checkRanges_ok.mpr ⟨?_, hmin, hmax, ?_, ?_, ?_, ?_, ?_, ?_, ?_, ?_⟩
  · simpa [FieldOutOfRange] using h 0
  · simpa [FieldOutOfRange] using h 2
  · simpa [FieldOutOfRange] using h 3
  · simpa [FieldOutOfRange] using h 4
  · simpa [FieldOutOfRange] using h 5
  · simpa [FieldOutOfRange] using h 8
  · simpa [FieldOutOfRange] using h 9
  · simpa [FieldOutOfRange] using h 10
  · simpa [FieldOutOfRange] using h 11

/-- A malformed text operand: longer than its buffer, whatever the buffer holds, or written and no dotted quad
(10_state.md R27). -/
def MalformedText (m : Memory) (len : Nat) : Prop :=
  len > 16 ∨ ∃ t, (len ≤ 16 ∧ m.readBytes 0 len = .ok t) ∧ dqParse t = none

theorem withAddress_of_malformed {sp : Space} {m : Memory} {len : Nat}
    {k : Option Addr → Host.Outcome State Fault Refusal} (h : MalformedText m len) :
    withAddress sp m len k = k none := by
  rcases h with hlong | ⟨t, ⟨hlen, hread⟩, hparse⟩
  · exact withAddress_of_long hlong
  · exact withAddress_of_text hlen hread hparse

section
variable {s : State} (hlen : checkLength s.ops s.payLen.toNat = .ok ()) (hranges : checkRanges s.ops = .ok ())
include hlen hranges

theorem execConstruct_of_malformed_source (hsrc : MalformedText s.srcTxt s.srcTxtLen.toNat) :
    execConstruct s = .next (emptied s .invalidAddressFormat 0) := by
  unfold execConstruct
  rw [hlen, hranges]
  simp only
  rw [withAddress_of_malformed hsrc]
  exact fillSlot_error (.inl rfl) _ s

theorem execConstruct_of_malformed_destination {t : List Byte} {src : Addr} (hsrc : SrcText s t)
    (hparse : dqParse t = some src) (hdst : MalformedText s.dstTxt s.dstTxtLen.toNat) :
    execConstruct s = .next (emptied s .invalidAddressFormat 1) := by
  obtain ⟨hshort, hread⟩ := hsrc
  unfold execConstruct
  rw [hlen, hranges]
  simp only
  rw [withAddress_of_text hshort hread hparse]
  simp only
  rw [withAddress_of_malformed hdst]
  exact fillSlot_error (.inl rfl) _ s

end

/-- Settles O8: the source text is looked at before the destination text, and each before any byte after it. -/
theorem constructReportsMalformedAddresses : Obligations.ConstructReportsMalformedAddresses := by
  unfold Obligations.ConstructReportsMalformedAddresses
  intro s htotal hfields
  have hlen := checkLength_of_eq htotal
  have hranges := checkRanges_of_no_field_out_of_range hfields
  refine ⟨fun hsrc => execConstruct_of_malformed_source hlen hranges hsrc, ?_⟩
  rintro ⟨t, src, hsrc, hparse⟩ hdst
  exact execConstruct_of_malformed_destination hlen hranges hsrc hparse hdst

end Sys2Proof.Machine
end

section
/-! SUPPORT. The requires lines of the host actions, and what a read and a write of the host do (20_memory.md R63, R66, R67;
O45 to O48). -/

namespace Sys2Proof.Machine

open Sys2Proof.Rules

/-! ### What a store does to the registers and bytes the host reads -/

section
variable {s : State}

/-- A read-write register reads back the value stored in it, for every value of its width. -/
theorem regValue_storeReg_same {fw : Nat} {r : Reg} {v : Nat} (ha : r.access = .readWrite) (hv : v < 2 ^ r.width fw) :
    (s.storeReg r v).regValue r = some v := by
  cases r with
  | opVersion | opHlw | opDscp | opEcn | opTotalLength | opIdentification => rfl
  | opFragmentOffset | opTtl | opProtocol | opHeaderChecksum => rfl
  | inLen | payLen | srcTxtLen | dstTxtLen =>
    exact congrArg some ((BitVec.toNat_ofNat v _).trans (Nat.mod_eq_of_lt hv))
  | opDf | opMf =>
    have hv' : v < 2 := hv
    have hbit : v = 0 ∨ v = 1 := by omega
    rcases hbit with rfl | rfl <;> rfl
  | _ => cases ha

/-- A store to a read-write register keeps what every other register reads: no two registers share a field. -/
theorem regValue_storeReg_other {r q : Reg} (ha : r.access = .readWrite) (hq : q ≠ r) (v : Nat) :
    (s.storeReg r v).regValue q = s.regValue q := by
  cases r with
  | opVersion | opHlw | opDscp | opEcn | opTotalLength | opIdentification | opDf | opMf | opFragmentOffset | opTtl
  | opProtocol | opHeaderChecksum | inLen | payLen | srcTxtLen | dstTxtLen =>
    -- `q` is this very register, or its read does not see the stored field.
    cases q <;> first | contradiction | rfl
  | _ => cases ha

theorem byteOf_storeReg (r : Reg) (v : Nat) (q : Space) (a : Nat) : (s.storeReg r v).byteOf q a = s.byteOf q a :=
  byteOf_congr (storeReg_input ..) (storeReg_out ..) (storeReg_pay ..) (storeReg_srcTxt ..) (storeReg_dstTxt ..) q a

theorem buffer_storeByte_same {q : Space} (hw : q.writable = true) (i : Nat) (b : Byte) :
    (s.storeByte q i b).buffer q = (s.buffer q).map (fun m => m.write i b) := by
  cases q with
  | input | pay | srcTxt | dstTxt => rfl
  | out | hOpt | hPay => cases hw

theorem buffer_storeByte_other {p q : Space} (hq : q ≠ p) (i : Nat) (b : Byte) :
    (s.storeByte p i b).buffer q = s.buffer q := by
  cases p with
  | out | hOpt | hPay => rfl
  | input | pay | srcTxt | dstTxt => cases q <;> first | contradiction | rfl

theorem buffer_of_writable {q : Space} (hw : q.writable = true) : ∃ m, s.buffer q = some m := by
  cases q with
  | input | pay | srcTxt | dstTxt => exact ⟨_, rfl⟩
  | out | hOpt | hPay => cases hw

theorem byteOf_storeByte_same {q : Space} (hw : q.writable = true) (i : Nat) (b : Byte) :
    (s.storeByte q i b).byteOf q i = some b := by
  obtain ⟨m, hm⟩ := buffer_of_writable (s := s) hw
  rw [State.byteOf, buffer_storeByte_same hw, hm]
  exact Memory.read_write_same m i b

theorem byteOf_storeByte_other {p q : Space} {i a : Nat} (hw : p.writable = true) (h : ¬ (q = p ∧ a = i)) (b : Byte) :
    (s.storeByte p i b).byteOf q a = s.byteOf q a := by
  by_cases hq : q = p
  · subst hq
    have ha : i ≠ a := fun hia => h ⟨rfl, hia.symm⟩
    obtain ⟨m, hm⟩ := buffer_of_writable (s := s) hw
    rw [State.byteOf, State.byteOf, buffer_storeByte_same hw, hm]
    exact Memory.read_write_other m b ha
  · rw [State.byteOf, State.byteOf, buffer_storeByte_other hq]

theorem regValue_storeByte (p : Space) (i : Nat) (b : Byte) (q : Reg) :
    (s.storeByte p i b).regValue q = s.regValue q := by cases p <;> rfl

end

/-- The spaces the host may write, by name (R66). -/
theorem Space.writable_iff (q : Space) :
    q.writable = true ↔ q = .input ∨ q = .pay ∨ q = .srcTxt ∨ q = .dstTxt := by cases q <;> decide

/-- Settles O46: a write is a store, which one register's read sees. -/
theorem hostWriteStoresTheRegisterOnly : Obligations.HostWriteStoresTheRegisterOnly := by
  unfold Obligations.HostWriteStoresTheRegisterOnly
  intro fw s r v ha hv
  exact ⟨s.storeReg r v, hostAct_write ha hv, regValue_storeReg_same ha hv, fun q hq => regValue_storeReg_other ha hq v,
    byteOf_storeReg r v, storeReg_hdr s r v, storeReg_script s r v, storeReg_returned s r v⟩

/-- Settles O47: a buffer write is a store, which one byte's read sees. -/
theorem bufWriteStoresOneByteOnly : Obligations.BufWriteStoresOneByteOnly := by
  unfold Obligations.BufWriteStoresOneByteOnly
  intro fw s q i b hq hi hb
  have hw : q.writable = true := (Space.writable_iff q).mpr hq
  have hback : (s.storeByte q i (BitVec.ofNat 8 b)).byteOf q i = some (BitVec.ofNat 8 b) := byteOf_storeByte_same hw i _
  refine ⟨s.storeByte q i (BitVec.ofNat 8 b), hostAct_bufWrite hw hi hb, hback, ?_,
    fun p a h => byteOf_storeByte_other hw h _, regValue_storeByte q i _, storeByte_hdr s q i _,
    storeByte_script s q i _, storeByte_returned s q i _⟩
  rw [hostAct_bufRead_of_byte hi hback, BitVec.toNat_ofNat, Nat.mod_eq_of_lt hb]
  rfl

/-! ### Reads -/

/-- A view is read below its capacity as the record's byte sequence (10_state.md R36). -/
theorem returns_of_viewByte {fw : Nat} {s : State} {q : Space} {h : Header} {i : Nat} {b : Byte}
    (hq : s.buffer q = none) (hs : s.hdr = some h) (hi : i < q.capacity) (hb : (h.bytesOf q)[i]? = some b) :
    Returns fw (.bufRead q.number i) s b.toNat :=
  (hostAct_bufRead_view hq hi).trans (readView_of_byte hs hb)

/-- Only a command or reset reaches the status and the results (R67). -/
theorem hostAct_keeps_results {fw : Nat} {a : HostAction} {s t : State} (hc : ¬ IssuesCommand a) (hr : a ≠ .reset)
    (h : hostAct fw a s = .next t) :
    t.err = s.err ∧ t.errInfo = s.errInfo ∧ t.res = s.res ∧ t.out = s.out ∧ t.outLen = s.outLen := by
  rcases hostAct_next (not_exists.mp hc) hr h with
    ⟨r, v, -, -, -, rfl⟩ | ⟨q, i, b, -, -, -, -, rfl⟩ | ⟨r, v, -, -, rfl⟩ | ⟨q, i, v, -, rfl⟩
  · simp
  · simp
  · split <;> simp
  · simp

/-- Settles O48: reads of a register, a storage space and the two views, then the frame of the host's actions. -/
theorem hostReadsReturnTheValueAndChangeNothing : Obligations.HostReadsReturnTheValueAndChangeNothing := by
  unfold Obligations.HostReadsReturnTheValueAndChangeNothing
  refine ⟨fun fw s r v hr hv => returns_of_regValue hr hv, fun fw s q i b hi hb => returns_of_byteOf hi hb,
    fun fw s h i b hs hi hb => ?_, fun fw s h i b hs hi hb => ?_, fun fw a s t hc hr h => hostAct_keeps_results hc hr h⟩
  · exact returns_of_viewByte (q := .hOpt) rfl hs hi hb
  · exact returns_of_viewByte (q := .hPay) rfl hs hi hb

/-! ### The requires lines -/

section
variable {fw : Nat} {s : State}

/-- A space is a view of the record or has storage behind it (10_state.md R38). -/
theorem view_or_buffer (s : State) (q : Space) :
    (s.buffer q = none ∧ (q = .hOpt ∨ q = .hPay)) ∨ (q ≠ .hOpt ∧ q ≠ .hPay ∧ ∃ m, s.buffer q = some m) := by
  cases q with
  | hOpt | hPay => simp [State.buffer]
  | input | out | pay | srcTxt | dstTxt => exact .inr ⟨by decide, by decide, _, rfl⟩

/-- A register can be read exactly when it is no H_* port or the slot holds a record. -/
theorem regValue_isSome_iff (s : State) (r : Reg) :
    (∃ v, s.regValue r = some v) ↔ (r.access = .readRecord → s.hdr ≠ none) := by
  by_cases ha : r.access = .readRecord
  · rw [← Option.isSome_iff_exists, regValue_record_isSome s r ha, Option.isSome_iff_ne_none]
    simp [ha]
  · simp [ha, regValue_of_port s r ha]

theorem readView_next_iff {q : Space} {i : Nat} :
    (∃ t, readView q i s = .next t) ↔ ∃ h, s.hdr = some h ∧ i < (h.bytesOf q).length := by
  cases hs : s.hdr with
  | none => simp [readView_of_no_record hs]
  | some h =>
    cases hb : (h.bytesOf q)[i]? with
    | none => simpa [readView_of_beyond hs hb] using hb
    | some b =>
      have hlt : i < (h.bytesOf q).length := (List.getElem?_eq_some_iff.mp hb).1
      simp [readView_of_byte hs hb, hlt]

/-- Below the capacity only an unwritten byte refuses the read of a storage space (R76). -/
theorem hostAct_bufRead_unwritten {q : Space} {i : Nat} {m : Memory} (hm : s.buffer q = some m) (hi : i < q.capacity)
    (hb : s.byteOf q i = none) : hostAct fw (.bufRead q.number i) s = .refused (.unwrittenByte q i) := by
  rw [State.byteOf, hm, Option.bind_some] at hb
  simp only [hostAct, bufRead, Space.ofNumber_number, ge_iff_le, if_neg (Nat.not_le.mpr hi), hm, hb]

/-- A storage space answers a read where the byte is written, a view where the record has the byte. -/
theorem hostAct_bufRead_next_iff {q : Space} {i : Nat} :
    (∃ t, hostAct fw (.bufRead q.number i) s = .next t) ↔
      i < q.capacity ∧ (q = .hOpt → ∃ h, s.hdr = some h ∧ i < h.options.length) ∧
      (q = .hPay → ∃ h, s.hdr = some h ∧ i < h.payload.length) ∧ (q ≠ .hOpt → q ≠ .hPay → s.byteOf q i ≠ none) := by
  by_cases hi : i < q.capacity
  case neg => simp [hostAct_bufRead_beyond fw s (Nat.not_lt.mp hi), hi]
  rcases view_or_buffer s q with ⟨hq, rfl | rfl⟩ | ⟨hopt, hpay, m, hm⟩
  · rw [hostAct_bufRead_view hq hi, readView_next_iff]
    simp [hi, Header.bytesOf]
  · rw [hostAct_bufRead_view hq hi, readView_next_iff]
    simp [hi, Header.bytesOf]
  · cases hb : s.byteOf q i with
    | none => simp [hostAct_bufRead_unwritten hm hi hb, hopt, hpay]
    | some b => simp [hostAct_bufRead_of_byte hi hb, hi, hopt, hpay]

theorem next_of_meetsRequires {a : HostAction} (h : MeetsRequires fw s a) : ∃ t, hostAct fw a s = .next t := by
  cases a with
  | write r v =>
    obtain ⟨q, rfl, ha, hv⟩ := h
    exact ⟨_, hostAct_write ha hv⟩
  | read r =>
    obtain ⟨q, rfl, hq⟩ := h
    obtain ⟨v, hv⟩ := (regValue_isSome_iff s q).mpr hq
    exact ⟨_, hostAct_read hv⟩
  | bufWrite p i b =>
    obtain ⟨q, rfl, hq, hi, hb⟩ := h
    exact ⟨_, hostAct_bufWrite ((Space.writable_iff q).mpr hq) hi hb⟩
  | bufRead p i =>
    obtain ⟨q, rfl, hq⟩ := h
    exact hostAct_bufRead_next_iff.mpr hq
  | reset => exact ⟨_, rfl⟩

theorem meetsRequires_of_next {a : HostAction} {t : State} (hc : ¬ IssuesCommand a) (h : hostAct fw a s = .next t) :
    MeetsRequires fw s a := by
  by_cases hr : a = .reset
  · subst hr
    trivial
  rcases hostAct_next (not_exists.mp hc) hr h with
    ⟨r, v, rfl, ha, hv, -⟩ | ⟨q, i, b, rfl, hw, hi, hb, -⟩ | ⟨r, v, rfl, hv, -⟩ | ⟨q, i, v, rfl, -⟩
  · exact ⟨r, rfl, ha, hv⟩
  · exact ⟨q, rfl, (Space.writable_iff q).mp hw, hi, hb⟩
  · exact ⟨r, rfl, (regValue_isSome_iff s r).mp ⟨v, hv⟩⟩
  · exact ⟨q, rfl, hostAct_bufRead_next_iff.mp ⟨t, h⟩⟩

/-- Nothing faults (60_exceptions.md R206, log 8): an action without a next state is refused. -/
theorem refused_of_no_next {a : HostAction} (h : ∀ t, hostAct fw a s ≠ .next t) : Refused fw a s := by
  unfold Refused
  cases ho : hostAct fw a s with
  | next t => exact absurd ho (h t)
  | fault f => cases f
  | refused r => exact ⟨r, rfl⟩

end

/-- Settles O45: the next states are those of the actions that meet their requires line, and nothing faults. -/
theorem hostActionsArePerformedExactlyWhenAllowed : Obligations.HostActionsArePerformedExactlyWhenAllowed := by
  unfold Obligations.HostActionsArePerformedExactlyWhenAllowed
  intro fw a s hc
  exact ⟨next_of_meetsRequires, fun hm => refused_of_no_next fun t ht => hm (meetsRequires_of_next hc ht),
    fun c hle => hostAct_write_too_wide fw s rfl hle⟩

end Sys2Proof.Machine
end

section
/-! SUPPORT. The operand bytes the commands consume (20_memory.md R61, R76): with all of them written every command goes on
(O49), and one never written, when it is looked at, refuses the command (O50). -/

namespace Sys2Proof.Machine

open Sys2Proof.Rules

/-! ### Written operands -/

/-- An outcome with a next state. -/
def GoesOn (o : Host.Outcome State Fault Refusal) : Prop := ∃ t, o = .next t

theorem withHeader_goesOn {i : Instr} {s : State} {k : Header → Host.Outcome State Fault Refusal}
    (hk : ∀ r, GoesOn (k r)) : GoesOn (withHeader i s k) := by
  rcases slot_cases s with hs | ⟨r, hs⟩
  · exact ⟨_, withHeader_none hs⟩
  · rw [withHeader_some hs]
    exact hk r

theorem fillSlot_goesOn (c : Instr) (r : Except CodecError Header) (s : State) : GoesOn (fillSlot c r s) := by
  cases r with
  | ok h => exact ⟨_, rfl⟩
  | error e => exact ⟨_, rfl⟩

theorem withBytes_goesOn {sp : Space} {m : Memory} {n : Nat} {k : List Byte → Host.Outcome State Fault Refusal}
    (hm : ∀ a, a < n → m.read a ≠ none) (hk : ∀ bs, GoesOn (k bs)) : GoesOn (withBytes sp m 0 n k) := by
  obtain ⟨bs, hbs⟩ := Memory.readBytes_of_written (m := m) (i := 0) (n := n) fun a _ ha => hm a (by omega)
  rw [withBytes_ok hbs]
  exact hk bs

/-- A text of length above 16 is malformed without a look at its buffer (10_state.md R27). -/
theorem withAddress_goesOn {sp : Space} {m : Memory} {len : Nat} {k : Option Addr → Host.Outcome State Fault Refusal}
    (hm : len ≤ 16 → ∀ a, a < len → m.read a ≠ none) (hk : ∀ x, GoesOn (k x)) : GoesOn (withAddress sp m len k) := by
  unfold withAddress
  split
  · exact hk none
  · next hlen => exact withBytes_goesOn (hm (Nat.not_lt.mp hlen)) fun t => hk (dqParse t)

theorem execDecode_goesOn {s : State} (hin : ∀ a, a < s.inLen.toNat → s.input.read a ≠ none) : GoesOn (execDecode s) := by
  obtain ⟨buf, hbuf⟩ := Memory.readBytes_of_written (m := s.input) (i := 0) (n := s.inLen.toNat)
    fun a _ ha => hin a (by omega)
  rw [execDecode_of_bytes hbuf]
  exact fillSlot_goesOn ..

theorem execConstruct_goesOn {s : State} (hpay : ∀ a, a < s.payLen.toNat → s.pay.read a ≠ none)
    (hsrc : s.srcTxtLen.toNat ≤ 16 → ∀ a, a < s.srcTxtLen.toNat → s.srcTxt.read a ≠ none)
    (hdst : s.dstTxtLen.toNat ≤ 16 → ∀ a, a < s.dstTxtLen.toNat → s.dstTxt.read a ≠ none) :
    GoesOn (execConstruct s) := by
  unfold execConstruct
  cases checkLength s.ops s.payLen.toNat with
  | error e => exact fillSlot_goesOn ..
  | ok _ =>
    cases checkRanges s.ops with
    | error e => exact fillSlot_goesOn ..
    | ok _ =>
      refine withAddress_goesOn hsrc fun src? => ?_
      cases src? with
      | none => exact fillSlot_goesOn ..
      | some src =>
        refine withAddress_goesOn hdst fun dst? => ?_
        cases dst? with
        | none => exact fillSlot_goesOn ..
        | some dst => exact withBytes_goesOn hpay fun payload => fillSlot_goesOn ..

/-- Settles O49: DECODE and CONSTRUCT by the bytes they consume; the other commands consume none. -/
theorem commandsCompleteOnWrittenOperands : Obligations.CommandsCompleteOnWrittenOperands := by
  unfold Obligations.CommandsCompleteOnWrittenOperands
  intro i s hin hpay hsrc hdst
  cases i with
  | construct => exact execConstruct_goesOn hpay hsrc hdst
  | decode => exact execDecode_goesOn hin
  | checksum | encode | verify | binstr | recompute => exact withHeader_goesOn fun r => ⟨_, rfl⟩

/-! ### Bytes never written -/

theorem withBytes_of_unwritten {sp : Space} {m : Memory} {i n j : Nat}
    {k : List Byte → Host.Outcome State Fault Refusal} (h : m.readBytes i n = .error j) :
    withBytes sp m i n k = .refused (.unwrittenByte sp j) := by simp only [withBytes, h]

theorem readBytes_one {m : Memory} {i : Nat} {b : Byte} (h : m.read i = some b) : m.readBytes i 1 = .ok [b] := by
  simp [Memory.readBytes, h, Except.map]

theorem readBytes_two {m : Memory} {i : Nat} {b c : Byte} (hb : m.read i = some b) (hc : m.read (i + 1) = some c) :
    m.readBytes i 2 = .ok [b, c] := by
  simp [Memory.readBytes, hb, hc, Except.map]

/-- A read of a range whose first byte is not written stops there. -/
theorem readBytes_of_first_unwritten {m : Memory} {i n : Nat} (h : m.read i = none) :
    m.readBytes i (n + 1) = .error i := by simp only [Memory.readBytes, h]

theorem readBytes_of_second_unwritten {m : Memory} {i n : Nat} {b : Byte} (hb : m.read i = some b)
    (h : m.read (i + 1) = none) : m.readBytes i (n + 2) = .error (i + 1) := by
  simp [Memory.readBytes, hb, h, Except.map]

/-- A read from the start of a space stops at the first of its bytes that holds no value. -/
theorem firstUnwritten_of_unwritten {s : State} {q : Space} {m : Memory} {a n : Nat} (hq : s.buffer q = some m)
    (ha : a < n) (h : s.byteOf q a = none) : ∃ j, j ≤ a ∧ FirstUnwritten s q j ∧ m.readBytes 0 n = .error j := by
  have hbyte : ∀ k, s.byteOf q k = m.read k := fun k => by rw [State.byteOf, hq, Option.bind_some]
  obtain ⟨j, hj, hstop, hnone, hbefore⟩ := Memory.readBytes_stops ha ((hbyte a).symm.trans h)
  exact ⟨j, hj, ⟨(hbyte j).trans hnone, fun k hk => hbyte k ▸ hbefore k hk⟩, hstop⟩

/-! ### DECODE, stage by stage (43_decode.md R150) -/

section
variable {s : State} (hn : 20 ≤ s.inLen.toNat)
include hn

theorem execDecode_of_unwritten_first {j : Nat} (h : s.input.readBytes 0 1 = .error j) :
    execDecode s = .refused (.unwrittenByte .input j) := by
  unfold execDecode
  simp only [checkFixed, if_neg (Nat.not_lt.mpr hn)]
  exact withBytes_of_unwritten h

variable {b0 : Byte} (h0 : s.input.read 0 = some b0) (hfirst : checkFirstByte s.inLen.toNat b0 = .ok ())
include h0 hfirst

theorem execDecode_of_unwritten_total {j : Nat} (h : s.input.readBytes 2 2 = .error j) :
    execDecode s = .refused (.unwrittenByte .input j) := by
  unfold execDecode
  simp only [checkFixed, if_neg (Nat.not_lt.mpr hn), withBytes_ok (readBytes_one h0)]
  rw [show byteAt [b0] 0 = b0 from rfl, hfirst]
  exact withBytes_of_unwritten h

theorem execDecode_of_unwritten_packet {b2 b3 : Byte} {j : Nat} (h2 : s.input.read 2 = some b2)
    (h3 : s.input.read 3 = some b3) (htotal : checkTotal s.inLen.toNat b0 (b2 ++ b3) = .ok ())
    (h : s.input.readBytes 0 (b2 ++ b3 : Word16).toNat = .error j) :
    execDecode s = .refused (.unwrittenByte .input j) := by
  unfold execDecode
  simp only [checkFixed, if_neg (Nat.not_lt.mpr hn), withBytes_ok (readBytes_one h0)]
  rw [show byteAt [b0] 0 = b0 from rfl, hfirst]
  simp only
  rw [withBytes_ok (readBytes_two h2 h3), show u16 [b2, b3] 0 = b2 ++ b3 from rfl, htotal]
  exact withBytes_of_unwritten h

end

/-! ### CONSTRUCT, stage by stage (40_construct.md R111) -/

section
variable {s : State} (hlen : checkLength s.ops s.payLen.toNat = .ok ()) (hranges : checkRanges s.ops = .ok ())
include hlen hranges

theorem execConstruct_of_unwritten_source {j : Nat} (hshort : s.srcTxtLen.toNat ≤ 16)
    (h : s.srcTxt.readBytes 0 s.srcTxtLen.toNat = .error j) :
    execConstruct s = .refused (.unwrittenByte .srcTxt j) := by
  unfold execConstruct
  rw [hlen, hranges]
  exact withAddress_of_unwritten hshort h

variable {st : List Byte} {src : Addr} (hsrc : SrcText s st) (hsparse : dqParse st = some src)
include hsrc hsparse

theorem execConstruct_of_unwritten_destination {j : Nat} (hshort : s.dstTxtLen.toNat ≤ 16)
    (h : s.dstTxt.readBytes 0 s.dstTxtLen.toNat = .error j) :
    execConstruct s = .refused (.unwrittenByte .dstTxt j) := by
  obtain ⟨hsshort, hsread⟩ := hsrc
  unfold execConstruct
  rw [hlen, hranges]
  simp only
  rw [withAddress_of_text hsshort hsread hsparse]
  exact withAddress_of_unwritten hshort h

theorem execConstruct_of_unwritten_payload {dt : List Byte} {dst : Addr} {j : Nat} (hdst : DstText s dt)
    (hdparse : dqParse dt = some dst) (h : s.pay.readBytes 0 s.payLen.toNat = .error j) :
    execConstruct s = .refused (.unwrittenByte .pay j) := by
  obtain ⟨hsshort, hsread⟩ := hsrc
  obtain ⟨hdshort, hdread⟩ := hdst
  unfold execConstruct
  rw [hlen, hranges]
  simp only
  rw [withAddress_of_text hsshort hsread hsparse]
  simp only
  rw [withAddress_of_text hdshort hdread hdparse]
  exact withBytes_of_unwritten h

end

/-- Settles O50: DECODE and CONSTRUCT stage by stage, each stopped at the first byte its stage finds unwritten; then the
host's read. -/
theorem consumingAnUnwrittenByteIsRefused : Obligations.ConsumingAnUnwrittenByteIsRefused := by
  unfold Obligations.ConsumingAnUnwrittenByteIsRefused
  refine ⟨fun s hn h0 => ?first, fun s b0 hn h0 hver hhlw => ?total,
    fun s b0 b2 b3 a hn h0 h2 h3 hver hmin hhlw hbuf ha hnone => ?packet, fun s htotal hfields => ?construct,
    fun fw s q i hopt hpay hi h => ?read⟩
  case first => exact execDecode_of_unwritten_first hn (readBytes_of_first_unwritten h0)
  case total =>
    have hfirst : checkFirstByte s.inLen.toNat b0 = .ok () := checkFirstByte_ok_iff.mpr ⟨hver, hhlw⟩
    refine ⟨fun h2 => ?_, fun h2 h3 => ?_⟩
    · exact execDecode_of_unwritten_total hn h0 hfirst (readBytes_of_first_unwritten h2)
    · obtain ⟨b2, hb2⟩ := Option.ne_none_iff_exists'.mp h2
      exact execDecode_of_unwritten_total hn h0 hfirst (readBytes_of_second_unwritten hb2 h3)
  case packet =>
    have hword : (b2 ++ b3 : Word16).toNat = b2.toNat * 256 + b3.toNat := append_toNat b2 b3
    have hfirst : checkFirstByte s.inLen.toNat b0 = .ok () := checkFirstByte_ok_iff.mpr ⟨hver, hhlw.trans hbuf⟩
    have htotal : checkTotal s.inLen.toNat b0 (b2 ++ b3) = .ok () :=
      checkTotal_ok_iff.mpr ⟨hword ▸ hbuf, hmin, hword ▸ hhlw⟩
    obtain ⟨j, hj, hunwritten, hstop⟩ := firstUnwritten_of_unwritten rfl (hword ▸ ha) hnone
    exact ⟨j, hj, hunwritten, execDecode_of_unwritten_packet hn h0 hfirst h2 h3 htotal hstop⟩
  case construct =>
    have hlen := checkLength_of_eq htotal
    have hranges := checkRanges_of_no_field_out_of_range hfields
    refine ⟨fun a hshort ha h => ?_, fun st src hsrc hsparse => ⟨fun a hshort ha h => ?_,
      fun dt dst hdst hdparse a ha h => ?_⟩⟩
    · obtain ⟨j, hj, hunwritten, hstop⟩ := firstUnwritten_of_unwritten rfl ha h
      exact ⟨j, hj, hunwritten, execConstruct_of_unwritten_source hlen hranges hshort hstop⟩
    · obtain ⟨j, hj, hunwritten, hstop⟩ := firstUnwritten_of_unwritten rfl ha h
      exact ⟨j, hj, hunwritten, execConstruct_of_unwritten_destination hlen hranges hsrc hsparse hshort hstop⟩
    · obtain ⟨j, hj, hunwritten, hstop⟩ := firstUnwritten_of_unwritten rfl ha h
      exact ⟨j, hj, hunwritten, execConstruct_of_unwritten_payload hlen hranges hsrc hsparse hdst hdparse hstop⟩
  case read =>
    rcases view_or_buffer s q with ⟨-, hq⟩ | ⟨-, -, m, hm⟩
    · exact absurd hq (not_or.mpr ⟨hopt, hpay⟩)
    · exact hostAct_bufRead_unwritten hm hi h

end Sys2Proof.Machine
end

section
/-! SUPPORT. Several instances (20_memory.md R75): an action writes the state of the codec it is for only (O54). -/

namespace Sys2Proof.Machine

/-- An action on a codec replaces that codec's state by the next one, if there is one. -/
theorem actOn_eq_some_iff {fw k : Nat} {a : HostAction} {xs ys : Instances} :
    actOn fw k a xs = some ys ↔ ∃ s t, xs[k]? = some s ∧ hostAct fw a s = .next t ∧ ys = xs.set k t := by
  unfold actOn
  cases xs[k]? with
  | none => simp
  | some s => cases hx : hostAct fw a s <;> simp [hx, eq_comm]

/-- Two actions on different instances that both go on also go on in the other order, to the same instances. -/
theorem actOn_swap {fw j k : Nat} {a b : HostAction} {xs zs : Instances} (hjk : j ≠ k)
    (h : (actOn fw j a xs).bind (actOn fw k b) = some zs) : (actOn fw k b xs).bind (actOn fw j a) = some zs := by
  obtain ⟨ys, hj, hk⟩ := Option.bind_eq_some_iff.mp h
  obtain ⟨s, s', hs, hstep, rfl⟩ := actOn_eq_some_iff.mp hj
  obtain ⟨t, t', ht, htstep, rfl⟩ := actOn_eq_some_iff.mp hk
  rw [List.getElem?_set_ne hjk] at ht
  refine Option.bind_eq_some_iff.mpr ⟨xs.set k t', actOn_eq_some_iff.mpr ⟨t, t', ht, htstep, rfl⟩, ?_⟩
  refine actOn_eq_some_iff.mpr ⟨s, s', ?_, hstep, List.set_comm s' t' hjk⟩
  rwa [List.getElem?_set_ne hjk.symm]

/-- Settles O54: each order leads wherever the other does. -/
theorem actionsOnDifferentInstancesCommute : Obligations.ActionsOnDifferentInstancesCommute := by
  unfold Obligations.ActionsOnDifferentInstancesCommute
  intro fw j k a b xs hjk
  exact Option.ext fun zs => ⟨actOn_swap hjk, actOn_swap hjk.symm⟩

end Sys2Proof.Machine
end

section
/-! SUPPORT. The wire form of a record read back (30_encoding.md R95, 43_decode.md R155 (a)), and RELOAD, which does it on the
machine (R103; O21, O13). -/

namespace Sys2Proof.Machine

open Sys2Proof.Rules

/-! ### The fields of a record in its wire form -/

theorem fragmentWord_dontFragment (h : Header) : h.fragmentWord.getLsbD 14 = h.dontFragment := by
  simp only [Header.fragmentWord, BitVec.getLsbD_append]
  simp

theorem fragmentWord_moreFragments (h : Header) : h.fragmentWord.getLsbD 13 = h.moreFragments := by
  simp only [Header.fragmentWord, BitVec.getLsbD_append]
  simp

theorem fragmentWord_fragmentOffset (h : Header) : h.fragmentWord.extractLsb' 0 13 = h.fragmentOffset :=
  BitVec.extractLsb'_append_eq_right

/-- The bytes of a well-formed record before its payload are the header bytes of its header length (41_checksum.md R132). -/
theorem fixedBytes_options_length {h : Header} (hw : h.wf = true) :
    (h.fixedBytes ++ h.options).length = 4 * h.headerLengthWords.toNat := by
  rw [← Header.headerBytes_eq hw]
  exact (headerBytes_length hw).1

theorem drop_header_enc {h : Header} (hw : h.wf = true) : (enc h).drop (4 * h.headerLengthWords.toNat) = h.payload :=
  List.drop_left' (fixedBytes_options_length hw)

theorem take_header_enc {h : Header} (hw : h.wf = true) :
    (enc h).take (4 * h.headerLengthWords.toNat) = h.fixedBytes ++ h.options :=
  List.take_left' (fixedBytes_options_length hw)

theorem take_total_enc {h : Header} (hw : h.wf = true) : (enc h).take h.totalLength.toNat = enc h :=
  List.take_of_length_le (enc_length_of_wf hw).le

theorem byteAt_enc_zero (h : Header) : byteAt (enc h) 0 = h.version ++ h.headerLengthWords := rfl

theorem byteAt_enc_one (h : Header) : byteAt (enc h) 1 = h.dscp ++ h.ecn := rfl

theorem u16_enc_total (h : Header) : u16 (enc h) 2 = h.totalLength := word_of_bytes h.totalLength

theorem u16_enc_identification (h : Header) : u16 (enc h) 4 = h.identification := word_of_bytes h.identification

theorem u16_enc_fragment (h : Header) : u16 (enc h) 6 = h.fragmentWord := word_of_bytes h.fragmentWord

theorem u16_enc_checksum (h : Header) : u16 (enc h) 10 = h.headerChecksum := word_of_bytes h.headerChecksum

/-- Each field is read where the wire form puts it (R95, R150). -/
theorem fieldsOf_enc {h : Header} (hw : h.wf = true) : fieldsOf (enc h) = h := by
  have hversion : (h.version ++ h.headerLengthWords).extractLsb' 4 4 = h.version := BitVec.extractLsb'_append_eq_left
  have hhlw : (h.version ++ h.headerLengthWords).extractLsb' 0 4 = h.headerLengthWords :=
    BitVec.extractLsb'_append_eq_right
  have hdscp : (h.dscp ++ h.ecn).extractLsb' 2 6 = h.dscp := BitVec.extractLsb'_append_eq_left
  have hecn : (h.dscp ++ h.ecn).extractLsb' 0 2 = h.ecn := BitVec.extractLsb'_append_eq_right
  have hoptions : (h.fixedBytes ++ h.options).drop 20 = h.options := List.drop_left' h.fixedBytes_length
  simp only [fieldsOf, byteAt_enc_zero, byteAt_enc_one, u16_enc_total, u16_enc_identification, u16_enc_fragment,
    u16_enc_checksum, hversion, hhlw, hdscp, hecn, fragmentWord_rsv, fragmentWord_dontFragment,
    fragmentWord_moreFragments, fragmentWord_fragmentOffset, take_total_enc hw, take_header_enc hw, drop_header_enc hw,
    hoptions]
  rfl

/-- Decoding the wire form of a well-formed record gives the record back (43_decode.md R155 (a)). -/
theorem dec_enc {h : Header} (hw : h.wf = true) : dec (enc h) = .ok h := by
  obtain ⟨hversion, hmin, htotal, -⟩ := (Header.wf_iff h).mp hw
  have hlen : (enc h).length = h.totalLength.toNat := enc_length_of_wf hw
  have hfirst : (byteAt (enc h) 0).toNat = 64 + h.headerLengthWords.toNat := by
    rw [byteAt_enc_zero, append_toNat, hversion]
    rfl
  have hhlw := h.headerLengthWords.isLt
  unfold Header.length at htotal
  rw [dec_ok_iff, hfirst, u16_enc_total, fieldsOf_enc hw]
  exact ⟨by omega, by omega, by omega, by omega, by omega, rfl⟩

/-! ### The wire layout -/

theorem getElem?_enc_option {h : Header} {k : Nat} (hk : k < h.options.length) : (enc h)[20 + k]? = h.options[k]? := by
  have hlow : 20 + k < (h.fixedBytes ++ h.options).length := by
    rw [List.length_append, Header.fixedBytes_length]
    omega
  rw [enc, List.getElem?_append_left hlow, List.getElem?_append_right (by rw [Header.fixedBytes_length]; omega),
    Header.fixedBytes_length, Nat.add_sub_cancel_left]

theorem getElem?_enc_payload {h : Header} (hw : h.wf = true) (k : Nat) :
    (enc h)[4 * h.headerLengthWords.toNat + k]? = h.payload[k]? := by
  rw [← List.getElem?_drop, drop_header_enc hw]

/-- Settles O13: the fixed bytes as numbers, then options, payload and length by well-formedness. -/
theorem wireLayoutOfARecord : Obligations.WireLayoutOfARecord := by
  unfold Obligations.WireLayoutOfARecord
  intro h hw
  obtain ⟨-, -, htotal, hopts⟩ := (Header.wf_iff h).mp hw
  obtain ⟨htotalWord, hidWord, hsumWord, -, -⟩ := enc_words h
  unfold Header.length at htotal hopts
  exact ⟨append_toNat h.version h.headerLengthWords, append_toNat h.dscp h.ecn, htotalWord, hidWord,
    (word_bytes_toNat h.fragmentWord).trans (fragmentWord_toNat h), rfl, rfl, hsumWord, rfl, rfl, by omega,
    fun k hk => getElem?_enc_option hk, by omega, fun k _ => getElem?_enc_payload hw k, enc_length_of_wf hw⟩

/-! ### RELOAD -/

theorem runActions_singleton (fw : Nat) (a : HostAction) (s : State) : runActions fw [a] s = hostAct fw a s := by
  unfold runActions
  cases hostAct fw a s <;> rfl

theorem runActions_append_of_next {fw : Nat} {as bs : List HostAction} {s t : State}
    (h : runActions fw as s = .next t) : runActions fw (as ++ bs) s = runActions fw bs t := by
  rw [runActions_append, h]

/-- `buf IN` puts the bytes in IN and their number in IN_LEN (R102). -/
theorem runActions_fill_input {fw : Nat} {s : State} {bytes : List Byte} (hlen : bytes.length ≤ 65535) :
    runActions fw (fillActions .input bytes) s =
      .next { s with input := s.input.writeBytes 0 bytes, inLen := BitVec.ofNat 16 bytes.length } := by
  have hfit : bytes.length < 2 ^ Reg.inLen.width fw := Nat.lt_succ_of_le hlen
  rw [fillActions, runActions_append_of_next (runActions_bufWrites_input fw bytes 0 s (by omega)), runActions_singleton]
  exact hostAct_write (r := .inLen) rfl hfit

/-- `br OUT` over written bytes only adds to what the host has read. -/
theorem runActions_read_out {fw : Nat} {s : State} {bytes : List Byte}
    (hout : s.out.readBytes 0 bytes.length = .ok bytes) (hlen : bytes.length ≤ 65535) :
    ∃ rs, runActions fw (bufReads .out 0 bytes.length) s = .next { s with returned := rs } := by
  refine runActions_bufReads fw .out bytes.length 0 s fun k _ hk => ⟨?_, ?_⟩
  · have hcap : Space.out.capacity = 65535 := rfl
    omega
  · obtain ⟨-, hread⟩ := Memory.readBytes_ok_iff.mp hout
    have hbyte := hread k (by omega)
    rw [Nat.zero_add] at hbyte
    rw [byteOf_out, hbyte, List.getElem?_eq_getElem (by omega)]
    exact Option.some_ne_none _

theorem toNat_ofNat_of_le {n : Nat} (h : n ≤ 65535) : (BitVec.ofNat 16 n).toNat = n := by
  rw [BitVec.toNat_ofNat]
  omega

/-- DECODE of the bytes just put into IN is `dec` of them. -/
theorem exec_decode_of_filled_input {s : State} {bytes : List Byte} (hlen : bytes.length ≤ 65535)
    (hinput : s.input.readBytes 0 bytes.length = .ok bytes) (hinLen : s.inLen = BitVec.ofNat 16 bytes.length) :
    exec .decode s = fillSlot .decode (dec bytes) s := by
  have hn : s.inLen.toNat = bytes.length := by rw [hinLen, toNat_ofNat_of_le hlen]
  exact execDecode_of_bytes (hn ▸ hinput)

/-- The host's part of RELOAD copies OUT[0:OUT_LEN] to IN and decodes it (R103). -/
theorem runActions_reloadActions {fw : Nat} {s : State} {bytes : List Byte}
    (hout : s.out.readBytes 0 bytes.length = .ok bytes) (hlen : bytes.length ≤ 65535) :
    ∃ rs, runActions fw (reloadActions bytes) s =
      fillSlot .decode (dec bytes) { s with
        input := s.input.writeBytes 0 bytes, inLen := BitVec.ofNat 16 bytes.length, returned := rs } := by
  have hreadLen : runActions fw [.read Reg.outLen.number] s = .next (s.give s.outLen.toNat) := by
    rw [runActions_singleton]
    exact hostAct_read (r := .outLen) rfl
  obtain ⟨rs, hreads⟩ := runActions_read_out (fw := fw) (s := s.give s.outLen.toNat) hout hlen
  refine ⟨rs, ?_⟩
  rw [reloadActions, List.append_assoc, List.append_assoc, runActions_append_of_next hreadLen,
    runActions_append_of_next hreads, runActions_append_of_next (runActions_fill_input hlen), runActions_singleton,
    hostAct_cmdAction]
  exact exec_decode_of_filled_input hlen (Memory.readBytes_writeBytes s.input 0 bytes) rfl

theorem reload_of_encode {fw : Nat} {s t : State} {bytes : List Byte} (henc : exec .encode s = .next t)
    (hout : t.out.readBytes 0 t.outLen.toNat = .ok bytes) : reload fw s = runActions fw (reloadActions bytes) t := by
  unfold reload
  rw [runActions_singleton, hostAct_cmdAction, henc]
  simp only [hout]

/-- ENCODE of a well-formed record leaves its wire form in OUT[0:OUT_LEN] (42_encode.md R141). -/
theorem exec_encode_leaves_enc {s : State} {h : Header} (hs : s.hdr = some h) (hw : h.wf = true) :
    ∃ t, exec .encode s = .next t ∧ t.outLen.toNat = (enc h).length ∧
      t.out.readBytes 0 (enc h).length = .ok (enc h) ∧ t.ops = s.ops ∧ t.res = s.res := by
  refine ⟨_, exec_encode_of_record hs, ?_, ?_, rfl, rfl⟩
  · rw [complete_outLen, toNat_ofNat_of_le (enc_length_le_outMax hw)]
  · rw [complete_out, Memory.readBytes_writeBytes]

/-- Settles O21: ENCODE leaves the wire form in OUT, the host copies it to IN, and DECODE of it gives the record back. -/
theorem reloadKeepsTheRecord : Obligations.ReloadKeepsTheRecord := by
  unfold Obligations.ReloadKeepsTheRecord
  intro fw s h hs hw
  obtain ⟨t, hencode, houtLen, hout, hops, hres⟩ := exec_encode_leaves_enc hs hw
  obtain ⟨rs, hrun⟩ := runActions_reloadActions (fw := fw) hout (enc_length_le_outMax hw)
  rw [dec_enc hw, fillSlot_ok] at hrun
  exact ⟨_, (reload_of_encode hencode (houtLen.symm ▸ hout)).trans hrun, rfl, rfl, rfl, hops, hres⟩

end Sys2Proof.Machine
end

section
/-! SUPPORT. The dotted-quad text of an address (30_encoding.md R98, R99): joined parts split into the same
parts again, so a text is an address when it is four octets' texts joined by separators (O11, O12). -/

namespace Sys2Proof.Machine

section
variable {α : Type} [DecidableEq α] {sep : α}

/-- Parts that hold no separator, joined by separators, are split into the same parts again. -/
theorem splitSep_intercalate {p : List α} {ps : List (List α)} (h : ∀ q ∈ p :: ps, sep ∉ q) :
    splitSep sep (List.intercalate [sep] (p :: ps)) = p :: ps := by
  have hp : sep ∉ p := h p List.mem_cons_self
  induction ps generalizing p with
  | nil => simpa using splitSep_of_not_mem hp
  | cons q qs ih =>
    have hqs : ∀ r ∈ q :: qs, sep ∉ r := fun r hr => h r (List.mem_cons_of_mem p hr)
    rw [List.intercalate_cons_cons, List.append_assoc, List.singleton_append, splitSep_append hp,
      ih hqs (hqs q List.mem_cons_self)]

end

theorem intercalate_four {α : Type} (sep : α) (p q r u : List α) :
    List.intercalate [sep] [p, q, r, u] = p ++ [sep] ++ q ++ [sep] ++ r ++ [sep] ++ u := by simp [List.intercalate]

theorem dqParse_eq_some_iff {t : List Byte} {x : Addr} :
    dqParse t = some x ↔ t.length ≤ 16 ∧ ∃ p q r u, splitSep charDot t = [p, q, r, u] ∧
      parseOctet p = some x.a ∧ parseOctet q = some x.b ∧ parseOctet r = some x.c ∧ parseOctet u = some x.d := by
  unfold dqParse
  constructor
  · intro h
    split at h
    · cases h
    · next hlen =>
      split at h
      · next p q r u hsplit =>
        split at h
        · next a b c d ha hb hc hd =>
          cases h
          exact ⟨Nat.not_lt.mp hlen, p, q, r, u, hsplit, ha, hb, hc, hd⟩
        · cases h
      · cases h
  · rintro ⟨hlen, p, q, r, u, hsplit, ha, hb, hc, hd⟩
    rw [if_neg (Nat.not_lt.mpr hlen), hsplit]
    simp only [ha, hb, hc, hd]

/-- The text of an octet: one to three digits of value at most 255 (R98). -/
def OctetText (p : List Byte) : Prop :=
  1 ≤ p.length ∧ p.length ≤ 3 ∧ (∀ c ∈ p, 0x30 ≤ c.toNat ∧ c.toNat ≤ 0x39) ∧ decimalValue p ≤ 255

theorem parseOctet_eq_some_iff_text {p : List Byte} {b : Byte} :
    parseOctet p = some b ↔ OctetText p ∧ b.toNat = decimalValue p := by
  simp only [parseOctet_eq_some_iff, OctetText, and_assoc]

theorem OctetText.length_le {p : List Byte} (h : OctetText p) : p.length ≤ 3 := by
  obtain ⟨-, hmax, -, -⟩ := h
  exact hmax

theorem OctetText.dot_not_mem {p : List Byte} (h : OctetText p) : charDot ∉ p := by
  obtain ⟨-, -, hdigits, -⟩ := h
  exact dot_not_mem_of_digits hdigits

/-- Four octets' texts joined by separators are at most 16 characters, and split into these texts again. -/
theorem splitSep_of_octetTexts {p q r u : List Byte} (hp : OctetText p) (hq : OctetText q) (hr : OctetText r)
    (hu : OctetText u) :
    (p ++ [charDot] ++ q ++ [charDot] ++ r ++ [charDot] ++ u).length ≤ 16 ∧
      splitSep charDot (p ++ [charDot] ++ q ++ [charDot] ++ r ++ [charDot] ++ u) = [p, q, r, u] := by
  constructor
  · have hp3 := hp.length_le
    have hq3 := hq.length_le
    have hr3 := hr.length_le
    have hu3 := hu.length_le
    simp only [List.length_append, List.length_singleton]
    omega
  · have hdots : ∀ w ∈ [p, q, r, u], charDot ∉ w := by
      simp [hp.dot_not_mem, hq.dot_not_mem, hr.dot_not_mem, hu.dot_not_mem]
    rw [← intercalate_four, splitSep_intercalate hdots]

/-- A text is an address exactly when it is four octets' texts joined by separators (R98). -/
theorem dqParse_eq_some_iff_octets {t : List Byte} {x : Addr} :
    dqParse t = some x ↔
      ∃ p q r u, t = p ++ [charDot] ++ q ++ [charDot] ++ r ++ [charDot] ++ u ∧
        parseOctet p = some x.a ∧ parseOctet q = some x.b ∧ parseOctet r = some x.c ∧ parseOctet u = some x.d := by
  rw [dqParse_eq_some_iff]
  constructor
  · rintro ⟨-, p, q, r, u, hsplit, hoctets⟩
    obtain ⟨hjoin, -⟩ := splitSep_join charDot t
    rw [hsplit, intercalate_four] at hjoin
    exact ⟨p, q, r, u, hjoin.symm, hoctets⟩
  · rintro ⟨p, q, r, u, rfl, ha, hb, hc, hd⟩
    obtain ⟨hp, -⟩ := parseOctet_eq_some_iff_text.mp ha
    obtain ⟨hq, -⟩ := parseOctet_eq_some_iff_text.mp hb
    obtain ⟨hr, -⟩ := parseOctet_eq_some_iff_text.mp hc
    obtain ⟨hu, -⟩ := parseOctet_eq_some_iff_text.mp hd
    obtain ⟨hlen, hsplit⟩ := splitSep_of_octetTexts hp hq hr hu
    exact ⟨hlen, p, q, r, u, hsplit, ha, hb, hc, hd⟩

/-- Settles O11: the rendering is four octets' renderings joined by separators, each of which parses to its octet. -/
theorem parsingARenderedAddressGivesItBack : Obligations.ParsingARenderedAddressGivesItBack := by
  unfold Obligations.ParsingARenderedAddressGivesItBack
  intro x
  have hoctet : ∀ b, parseOctet (renderOctet b) = some b := fun b => (parseOctet_renderOctet b).1
  exact dqParse_eq_some_iff_octets.mpr ⟨_, _, _, _, rfl, hoctet _, hoctet _, hoctet _, hoctet _⟩

/-- Settles O12: the four parts are read octet by octet. -/
theorem acceptedAddressTextsAreDottedQuads : Obligations.AcceptedAddressTextsAreDottedQuads := by
  unfold Obligations.AcceptedAddressTextsAreDottedQuads
  intro t x
  rw [dqParse_eq_some_iff_octets]
  simp only [parseOctet_eq_some_iff_text, List.mem_cons, List.not_mem_nil, or_false, forall_eq_or_imp, forall_eq]
  constructor
  · rintro ⟨p, q, r, u, ht, ⟨hp, ha⟩, ⟨hq, hb⟩, ⟨hr, hc⟩, ⟨hu, hd⟩⟩
    exact ⟨p, q, r, u, ht, ⟨hp, hq, hr, hu⟩, ha, hb, hc, hd⟩
  · rintro ⟨p, q, r, u, ht, ⟨hp, hq, hr, hu⟩, ha, hb, hc, hd⟩
    exact ⟨p, q, r, u, ht, ⟨hp, ha⟩, ⟨hq, hb⟩, ⟨hr, hc⟩, ⟨hu, hd⟩⟩

end Sys2Proof.Machine
end

section
/-! SUPPORT. Trace lines (30_encoding.md R104): a line splits into its fields again, and each field gives its number back
(O53). -/

namespace Sys2Proof.Machine

theorem parseTrace_read {r : Nat} (hr : r < 16 ^ 2) :
    parseTrace (['R'] ++ ' ' :: hexText 2 r) = some (.read r) := by
  have hline : ['R'] ++ ' ' :: hexText 2 r =
      List.intercalate [' '] [['R'], hexText 2 r] := by simp [List.intercalate]
  rw [parseTrace, hline, splitSep_intercalate (by simp [space_not_mem_hexText])]
  simp [hexValue_hexText hr]

theorem parseTrace_write {r v : Nat} (hr : r < 16 ^ 2) (hv : v < 16 ^ 8) :
    parseTrace (['W'] ++ ' ' :: hexText 2 r ++ ' ' :: hexText 8 v) = some (.write r v) := by
  have hline : ['W'] ++ ' ' :: hexText 2 r ++ ' ' :: hexText 8 v =
      List.intercalate [' '] [['W'], hexText 2 r, hexText 8 v] := by simp [List.intercalate]
  rw [parseTrace, hline, splitSep_intercalate (by simp [space_not_mem_hexText])]
  simp [hexValue_hexText hr, hexValue_hexText hv]

theorem parseTrace_bufRead {s i : Nat} (hs : s < 16 ^ 1) (hi : i < 16 ^ 4) :
    parseTrace (['B', 'R'] ++ ' ' :: hexText 1 s ++ ' ' :: hexText 4 i) = some (.bufRead s i) := by
  have hline : ['B', 'R'] ++ ' ' :: hexText 1 s ++ ' ' :: hexText 4 i =
      List.intercalate [' '] [['B', 'R'], hexText 1 s, hexText 4 i] := by simp [List.intercalate]
  rw [parseTrace, hline, splitSep_intercalate (by simp [space_not_mem_hexText])]
  simp [hexValue_hexText hs, hexValue_hexText hi]

theorem parseTrace_bufWrite {s i b : Nat} (hs : s < 16 ^ 1) (hi : i < 16 ^ 4) (hb : b < 16 ^ 2) :
    parseTrace (['B', 'W'] ++ ' ' :: hexText 1 s ++ ' ' :: hexText 4 i ++ ' ' :: hexText 2 b) =
      some (.bufWrite s i b) := by
  have hline : ['B', 'W'] ++ ' ' :: hexText 1 s ++ ' ' :: hexText 4 i ++ ' ' :: hexText 2 b =
      List.intercalate [' '] [['B', 'W'], hexText 1 s, hexText 4 i, hexText 2 b] := by simp [List.intercalate]
  rw [parseTrace, hline, splitSep_intercalate (by simp [space_not_mem_hexText])]
  simp [hexValue_hexText hs, hexValue_hexText hi, hexValue_hexText hb]

/-- Settles O53: a line is written only where its numbers have as many digits as its fields, and then each form reads back. -/
theorem traceLinesReadBack : Obligations.TraceLinesReadBack := by
  unfold Obligations.TraceLinesReadBack
  intro a l h
  cases a with
  | write r v =>
    obtain ⟨⟨hr, hv⟩, hl⟩ := Option.ite_none_right_eq_some.mp h
    cases hl
    exact parseTrace_write hr hv
  | read r =>
    obtain ⟨hr, hl⟩ := Option.ite_none_right_eq_some.mp h
    cases hl
    exact parseTrace_read hr
  | bufWrite s i b =>
    obtain ⟨⟨hs, hi, hb⟩, hl⟩ := Option.ite_none_right_eq_some.mp h
    cases hl
    exact parseTrace_bufWrite hs hi hb
  | bufRead s i =>
    obtain ⟨⟨hs, hi⟩, hl⟩ := Option.ite_none_right_eq_some.mp h
    cases hl
    exact parseTrace_bufRead hs hi
  | reset => cases h

end Sys2Proof.Machine
end

section
/-! SUPPORT. The command words (30_encoding.md R90 to R94): the legal words are those of the opcode map, and every other word
raises IllegalCommand (O1, O2, O4). -/

namespace Sys2Proof.Machine

open Sys2Proof.Rules

theorem decode_encode (i : Instr) : decode (encode i) = .ok i := by
  cases i with
  | construct => exact Laws.RoundTrip.construct.1
  | checksum => exact Laws.RoundTrip.checksum.1
  | encode => exact Laws.RoundTrip.encode.1
  | decode => exact Laws.RoundTrip.decode.1
  | verify => exact Laws.RoundTrip.verify.1
  | binstr => exact Laws.RoundTrip.binstr.1
  | recompute => exact Laws.RoundTrip.recompute.1

/-- Settles O1: the seven words are the encoded words of the commands, which decode back; a legal word has no other spelling. -/
theorem commandWordsAreTheOpcodeMap : Obligations.CommandWordsAreTheOpcodeMap := by
  unfold Obligations.CommandWordsAreTheOpcodeMap
  exact ⟨⟨decode_encode .construct, decode_encode .checksum, decode_encode .encode, decode_encode .decode,
    decode_encode .verify, decode_encode .binstr, decode_encode .recompute⟩, decode_encode,
    fun _ _ => encode_of_decode⟩

/-- The commands' words are 0x01 to 0x07 (R92). -/
theorem encode_bounds (i : Instr) : 1 ≤ (encode i).toNat ∧ (encode i).toNat ≤ 7 := by cases i <;> decide

/-- A word outside 0x01 to 0x07 is illegal (R94): a word that decodes is the word of its command. -/
theorem decode_error_of_not_in_map {c : Byte} (h : c.toNat = 0 ∨ 8 ≤ c.toNat) : ∃ e, decode c = .error e := by
  cases hd : decode c with
  | error e => exact ⟨e, rfl⟩
  | ok i =>
    have hword := encode_bounds i
    rw [encode_of_decode hd] at hword
    omega

/-- The three ways R94 lists for a word to be illegal, as bounds on the word. -/
theorem not_in_map_of_illegal {c : Byte}
    (h : c = 0x00#8 ∨ (0x08 ≤ c.toNat ∧ c.toNat ≤ 0x0F) ∨ c.extractLsb' 4 4 ≠ 0#4) : c.toNat = 0 ∨ 8 ≤ c.toNat := by
  rcases h with rfl | ⟨hlow, -⟩ | hzero
  · exact .inl rfl
  · exact .inr hlow
  · have hnibble : c.toNat / 16 ≠ 0 := fun h0 =>
      hzero (BitVec.eq_of_toNat_eq ((high_nibble_toNat c).trans h0))
    omega

set_option maxRecDepth 4000 in
/-- The words of 0 to 255 that R94 calls illegal are all but the seven of the opcode map. -/
theorem illegal_words_count : ((List.range 256).filter (fun n =>
    decide (n = 0) || (decide (8 ≤ n) && decide (n ≤ 15)) || decide (n / 16 ≠ 0))).length = 249 := by decide

/-- Settles O2: an illegal word decodes to no command, and a word that decodes to none raises IllegalCommand. -/
theorem illegalWordsRaiseIllegalCommand : Obligations.IllegalWordsRaiseIllegalCommand := by
  unfold Obligations.IllegalWordsRaiseIllegalCommand
  refine ⟨fun s c hc => ?_, illegal_words_count⟩
  obtain ⟨e, he⟩ := decode_error_of_not_in_map (not_in_map_of_illegal hc)
  exact issueCommand_of_illegal he

/-- Settles O4: each of the five commands begins with the check of the slot. -/
theorem commandsReportNoHeaderOnAnEmptySlot : Obligations.CommandsReportNoHeaderOnAnEmptySlot := by
  unfold Obligations.CommandsReportNoHeaderOnAnEmptySlot
  exact fun i s hi hs => exec_of_no_record hi hs

end Sys2Proof.Machine
end

section
/-! SUPPORT. CONSTRUCT as the function `construct` of its operands (40_construct.md R110 to R118; O5, O6, O7, O9, O10):
the two checks that consume no byte, and the record of operands in range. -/

namespace Sys2Proof.Machine

open Sys2Proof.Rules

/-! ### The length and the ranges (R111 to R113) -/

theorem checkLength_of_ne {o : OpRegs} {n : Nat} (h : o.totalLength ≠ 4 * o.hlw + n) :
    checkLength o n = .error ⟨.lengthMismatch, 0⟩ := if_pos h

theorem no_field_out_of_range_of_checkRanges {o : OpRegs} (h : checkRanges o = .ok ()) (k : Nat) :
    ¬ FieldOutOfRange o k := by
  have hbounds := checkRanges_ok.mp h
  unfold FieldOutOfRange
  omega

/-- The field a failing range check reports is out of range, and no lower one is: the branches of `checkRanges` stand in
the order of the index (R112). -/
theorem checkRanges_error_lowest {o : OpRegs} {e : CodecError} (h : checkRanges o = .error e) :
    FieldOutOfRange o e.info.toNat ∧ ∀ j, j < e.info.toNat → ¬ FieldOutOfRange o j := by
  have hmin : Config.minHlw = 5 := rfl
  have hmax : Config.maxHlw = 15 := rfl
  have htotal : Config.maxTotalLength = 65535 := rfl
  unfold checkRanges at h
  repeat' split at h
  -- the branch in which every check passes reports nothing; each other one reports its own index
  all_goals cases h
  all_goals
    simp only [BitVec.ofNat_eq_ofNat, BitVec.reduceToNat]
    unfold FieldOutOfRange
    constructor
    · omega
    · intro j hj
      omega

/-- The range checks report the lowest field out of range (R112). -/
theorem checkRanges_of_lowest {o : OpRegs} {k : Nat} (hk : FieldOutOfRange o k)
    (hlow : ∀ j, j < k → ¬ FieldOutOfRange o j) :
    checkRanges o = .error ⟨.invalidFieldRange, BitVec.ofNat 8 k⟩ := by
  cases h : checkRanges o with
  | ok _ => exact absurd hk (no_field_out_of_range_of_checkRanges h k)
  | error e =>
    obtain ⟨he, hbelow⟩ := checkRanges_error_lowest h
    have hinfo : e.info.toNat = k :=
      Nat.le_antisymm (Nat.not_lt.mp fun hlt => hbelow k hlt hk) (Nat.not_lt.mp fun hlt => hlow _ hlt he)
    obtain ⟨kind, info⟩ := e
    obtain rfl : kind = .invalidFieldRange := (checkRanges_error h).1
    rw [← hinfo, BitVec.ofNat_toNat, BitVec.setWidth_eq]

section
variable {s : State} {e : CodecError}

theorem execConstruct_of_checkLength_error (hlen : checkLength s.ops s.payLen.toNat = .error e) :
    execConstruct s = .next (emptied s e.kind e.info) := by
  unfold execConstruct
  rw [hlen]
  exact fillSlot_error (.inl rfl) e s

theorem execConstruct_of_checkRanges_error (hlen : checkLength s.ops s.payLen.toNat = .ok ())
    (hranges : checkRanges s.ops = .error e) : execConstruct s = .next (emptied s e.kind e.info) := by
  unfold execConstruct
  rw [hlen, hranges]
  exact fillSlot_error (.inl rfl) e s

end

/-- Settles O6: the length check is the first and looks at no byte. -/
theorem constructReportsLengthMismatchFirst : Obligations.ConstructReportsLengthMismatchFirst := by
  unfold Obligations.ConstructReportsLengthMismatchFirst
  exact fun s htotal => execConstruct_of_checkLength_error (checkLength_of_ne htotal)

/-- Settles O7: the range checks follow the length check and look at no byte. -/
theorem constructReportsTheLowestFieldOutOfRange : Obligations.ConstructReportsTheLowestFieldOutOfRange := by
  unfold Obligations.ConstructReportsTheLowestFieldOutOfRange
  exact fun s k htotal hk hlow =>
    execConstruct_of_checkRanges_error (checkLength_of_eq htotal) (checkRanges_of_lowest hk hlow)

/-! ### The function `construct` (R111, R118) -/

theorem construct_of_checkLength_error {o : OpRegs} {st dt payload : List Byte} {e : CodecError}
    (hlen : checkLength o payload.length = .error e) : construct o st dt payload = .error e := by
  simp only [construct, hlen]

theorem construct_of_checks {o : OpRegs} {st dt payload : List Byte} {src dst : Addr}
    (hlen : checkLength o payload.length = .ok ()) (hranges : checkRanges o = .ok ()) (hsrc : dqParse st = some src)
    (hdst : dqParse dt = some dst) : construct o st dt payload = .ok (recordOf o src dst payload) := by
  simp only [construct, hlen, hranges, hsrc, hdst]

/-- Settles O9: the length law from the first check, and a record given is that of operands that passed the checks. -/
theorem constructLaws : Obligations.ConstructLaws := by
  unfold Obligations.ConstructLaws
  refine fun o st dt payload => ⟨fun hne => construct_of_checkLength_error (checkLength_of_ne hne), ?total, ?record⟩
  case total =>
    cases construct o st dt payload with
    | ok h => exact .inl ⟨⟨h, rfl⟩, fun ⟨_, he⟩ => nomatch he⟩
    | error e => exact .inr ⟨⟨e, rfl⟩, fun ⟨_, hh⟩ => nomatch hh⟩
  case record =>
    intro h hc
    obtain ⟨hlen, hranges, src, dst, -, -, rfl⟩ := construct_ok_spec hc
    exact ⟨recordOf_wf (checkLength_ok hlen) hranges, rfl, fun b hb => List.eq_of_mem_replicate hb⟩

/-! ### The command on written operands (R110) -/

section
variable {s : State} {st dt payload : List Byte} (hsrc : SrcText s st) (hdst : DstText s dt) (hpay : PayBytes s payload)
include hsrc hdst hpay

/-- The command makes the checks of `construct` in the same order, each on the same operands. -/
theorem execConstruct_of_written :
    execConstruct s = fillSlot .construct (construct s.ops st dt payload) s := by
  obtain ⟨hsshort, hsread⟩ := hsrc
  obtain ⟨hdshort, hdread⟩ := hdst
  have hpaylen : payload.length = s.payLen.toNat := (Memory.readBytes_ok_iff.mp hpay).1
  unfold execConstruct construct
  rw [hpaylen]
  cases checkLength s.ops s.payLen.toNat with
  | error e => rfl
  | ok _ =>
    cases checkRanges s.ops with
    | error e => rfl
    | ok _ =>
      simp only
      rw [withAddress_of_text hsshort hsread rfl]
      cases dqParse st with
      | none => rfl
      | some src =>
        simp only
        rw [withAddress_of_text hdshort hdread rfl]
        cases dqParse dt with
        | none => rfl
        | some dst => exact withBytes_ok hpay

theorem execConstruct_of_construct_ok {h : Header} (hc : construct s.ops st dt payload = .ok h) :
    execConstruct s = .next (filled s h) := by
  rw [execConstruct_of_written hsrc hdst hpay, hc]
  exact fillSlot_ok .construct h s

theorem execConstruct_of_construct_error {e : CodecError} (hc : construct s.ops st dt payload = .error e) :
    execConstruct s = .next (emptied s e.kind e.info) := by
  rw [execConstruct_of_written hsrc hdst hpay, hc]
  exact fillSlot_error (.inl rfl) e s

end

/-- Settles O10: on written operands the command answers as the function does. -/
theorem constructCommandAppliesTheFunction : Obligations.ConstructCommandAppliesTheFunction := by
  unfold Obligations.ConstructCommandAppliesTheFunction
  exact fun s st dt payload hsrc hdst hpay => ⟨fun h hc => execConstruct_of_construct_ok hsrc hdst hpay hc,
    fun e hc => execConstruct_of_construct_error hsrc hdst hpay hc⟩

/-- Settles O5: the operands pass every check of `construct`, and each field of the record holds its operand without loss,
for the operand is in the field's range. -/
theorem constructStoresTheRecord : Obligations.ConstructStoresTheRecord := by
  unfold Obligations.ConstructStoresTheRecord
  intro s st dt payload src dst htotal hversion hmin hmax hdscp hecn htl hid hoffset httl hproto hsum hsrc hsparse hdst
    hdparse hpay
  have hpaylen : payload.length = s.payLen.toNat := (Memory.readBytes_ok_iff.mp hpay).1
  have hlen : checkLength s.ops payload.length = .ok () := checkLength_of_eq (hpaylen ▸ htotal)
  have hranges : checkRanges s.ops = .ok () :=
    checkRanges_ok.mpr ⟨hversion, hmin, hmax, hdscp, hecn, htl, hid, hoffset, httl, hproto, hsum⟩
  have hc := construct_of_checks hlen hranges hsparse hdparse
  refine ⟨recordOf s.ops src dst payload, execConstruct_of_construct_ok hsrc hdst hpay hc, rfl, ?_, ?_, ?_, ?_, ?_, rfl,
    rfl, ?_, ?_, ?_, ?_, rfl, rfl, rfl, rfl, rfl⟩
  all_goals exact (BitVec.toNat_ofNat _ _).trans (Nat.mod_eq_of_lt (by omega))

end Sys2Proof.Machine
end

section
/-! SUPPORT. The checksum (41_checksum.md R130 to R136; O22 to O26): every way to fold the carries of a sum back ends in the
same 16-bit representative of the sum, and the header sum is the stored checksum on top of the sum of the other bytes. -/

namespace Sys2Proof.Machine

open Sys2Proof.Rules

/-! ### The representative of a sum modulo 65535 (R131) -/

/-- `f` is the representative of the sum `n` modulo 65535 in 1..65535, and 0 where the sum is 0 (R131 (b)). -/
def IsFoldOf (f n : Nat) : Prop := f ≤ 65535 ∧ f % 65535 = n % 65535 ∧ (f = 0 ↔ n = 0)

theorem IsFoldOf.unique {f g n : Nat} (hf : IsFoldOf f n) (hg : IsFoldOf g n) : f = g := by
  unfold IsFoldOf at hf hg
  omega

theorem isFoldOf_foldCarries (n : Nat) : IsFoldOf (foldCarries n) n :=
  ⟨foldCarries_le n, foldCarries_mod n, foldCarries_eq_zero_iff⟩

/-- An end-around addition of a word folds the sum with that word added (R131 (c)). -/
theorem IsFoldOf.add_word {f n w : Nat} (hf : IsFoldOf f n) (hw : w ≤ 65535) :
    IsFoldOf (endAroundAdd f w) (n + w) := by
  unfold IsFoldOf at hf ⊢
  unfold endAroundAdd
  split <;> omega

theorem IsFoldOf.foldl_endAroundAdd {f n : Nat} {ws : List Nat} (hf : IsFoldOf f n) (hws : ∀ w ∈ ws, w ≤ 65535) :
    IsFoldOf (ws.foldl endAroundAdd f) (n + ws.sum) := by
  induction ws generalizing f n with
  | nil => exact hf
  | cons w ws ih =>
    obtain ⟨hw, hrest⟩ := List.forall_mem_cons.mp hws
    rw [List.foldl_cons, List.sum_cons, ← Nat.add_assoc]
    exact ih (hf.add_word hw) hrest

/-! ### The words of a byte sequence (R130) -/

/-- The big-endian words of a byte sequence, the last one padded with a zero byte where the length is odd (R130). -/
def wordsOf (s : List Byte) : List Nat :=
  (List.range ((s.length + 1) / 2)).map fun k => (byteAt s (2 * k)).toNat * 256 + (byteAt s (2 * k + 1)).toNat

theorem exactSum_eq_sum_wordsOf (s : List Byte) : exactSum s = (wordsOf s).sum := rfl

theorem endAroundSum_eq_foldl_wordsOf (s : List Byte) : endAroundSum s = (wordsOf s).foldl endAroundAdd 0 := rfl

theorem wordsOf_singleton (b : Byte) : wordsOf [b] = [b.toNat * 256] := by
  simp [wordsOf, byteAt]

theorem wordsOf_cons_cons (b c : Byte) (s : List Byte) :
    wordsOf (b :: c :: s) = (b.toNat * 256 + c.toNat) :: wordsOf s := by
  have hlen : ((b :: c :: s).length + 1) / 2 = (s.length + 1) / 2 + 1 := by
    simp only [List.length_cons]
    omega
  rw [wordsOf, hlen, List.range_succ_eq_map, List.map_cons, List.map_map]
  rfl

theorem exactSum_eq_wordSum (s : List Byte) : exactSum s = wordSum s := by
  rw [exactSum_eq_sum_wordsOf]
  induction s using wordSum.induct with
  | case1 => rfl
  | case2 b => simp [wordsOf_singleton, wordSum]
  | case3 b c s ih => rw [wordsOf_cons_cons, List.sum_cons, ih, wordSum]

theorem wordsOf_le {s : List Byte} : ∀ w ∈ wordsOf s, w ≤ 65535 := by
  intro w hw
  obtain ⟨k, -, rfl⟩ := List.mem_map.mp hw
  have hhigh := (byteAt s (2 * k)).isLt
  have hlow := (byteAt s (2 * k + 1)).isLt
  omega

theorem isFoldOf_endAroundSum (s : List Byte) : IsFoldOf (endAroundSum s) (wordSum s) := by
  have hzero : IsFoldOf 0 0 := isFoldOf_foldCarries 0
  have hfold := hzero.foldl_endAroundAdd (wordsOf_le (s := s))
  rwa [Nat.zero_add, ← endAroundSum_eq_foldl_wordsOf, ← exactSum_eq_sum_wordsOf, exactSum_eq_wordSum] at hfold

/-- Settles O23: the fold of R130 is the representative of the word sum. -/
theorem checksumIsTheComplementOfTheSumModulo65535 : Obligations.ChecksumIsTheComplementOfTheSumModulo65535 := by
  unfold Obligations.ChecksumIsTheComplementOfTheSumModulo65535
  intro s
  obtain ⟨hle, hmod, hzero⟩ := isFoldOf_foldCarries (wordSum s)
  rw [exactSum_eq_wordSum]
  exact ⟨foldCarries (wordSum s), cksum16_toNat s, hzero.mpr, fun hpos => ⟨foldCarries_pos hpos, hle, hmod⟩⟩

/-- Settles O24: both ways to fold end in the one representative of the word sum. -/
theorem endAroundCarryGivesTheSameChecksum : Obligations.EndAroundCarryGivesTheSameChecksum := by
  unfold Obligations.EndAroundCarryGivesTheSameChecksum
  intro s
  rw [cksum16_toNat, (isFoldOf_foldCarries (wordSum s)).unique (isFoldOf_endAroundSum s)]

/-! ### The two zeros of the checksum -/

theorem cksum16_eq_allOnes_iff {s : List Byte} : cksum16 s = 0xFFFF#16 ↔ wordSum s = 0 := by
  have hle := foldCarries_le (wordSum s)
  rw [← foldCarries_eq_zero_iff, ← BitVec.toNat_inj, cksum16_toNat, BitVec.toNat_ofNat]
  omega

theorem cksum16_eq_zero_iff {s : List Byte} : cksum16 s = 0 ↔ 0 < wordSum s ∧ wordSum s % 65535 = 0 := by
  obtain ⟨hle, hmod, hzero⟩ := isFoldOf_foldCarries (wordSum s)
  rw [← BitVec.toNat_inj, cksum16_toNat]
  simp only [BitVec.ofNat_eq_ofNat, BitVec.toNat_ofNat]
  omega

/-! ### The header sum and the stored checksum (R132, R136) -/

/-- The header bytes of a record with the checksum field treated as 0, which `hcs` sums (R132). -/
def clearedHeader (h : Header) : List Byte := (h.headerBytes.set 10 0).set 11 0

theorem hcs_eq_cksum16_clearedHeader (h : Header) : hcs h = cksum16 (clearedHeader h) := rfl

section
variable {h : Header} (hw : h.wf = true)
include hw

theorem clearedHeader_set_headerChecksum (c : Word16) :
    clearedHeader { h with headerChecksum := c } = clearedHeader h := by
  rw [clearedHeader, clearedHeader, Header.headerBytes_eq hw,
    Header.headerBytes_eq ((wf_set_headerChecksum h c).trans hw)]
  rfl

/-- The header bytes end where the payload begins, whatever the payload's length. -/
theorem headerBytes_set_payload (p : List Byte) : { h with payload := p }.headerBytes = h.headerBytes := by
  rw [Header.headerBytes_eq hw]
  exact List.take_left' (l₁ := h.fixedBytes ++ h.options) (fixedBytes_options_length hw)

theorem hcs_set_headerChecksum (c : Word16) : hcs { h with headerChecksum := c } = hcs h := by
  rw [hcs_eq_cksum16_clearedHeader, clearedHeader_set_headerChecksum hw, hcs_eq_cksum16_clearedHeader]

theorem hcs_set_payload (p : List Byte) : hcs { h with payload := p } = hcs h := by
  rw [hcs, headerBytes_set_payload hw, hcs]

/-- The stored checksum adds its value to the sum of the other header words. -/
theorem wordSum_headerBytes : wordSum h.headerBytes = wordSum (clearedHeader h) + h.headerChecksum.toNat := by
  obtain ⟨hlen, hmin⟩ := headerBytes_length hw
  have hhigh := wordSum_set_even h.headerBytes 10 0 (by omega) rfl
  have hlow := wordSum_set_odd (h.headerBytes.set 10 0) 11 0 (by rw [List.length_set]; omega) rfl
  have hstored : (byteAt h.headerBytes 10).toNat * 256 + (byteAt h.headerBytes 11).toNat = h.headerChecksum.toNat := by
    rw [Header.headerBytes_eq hw]
    exact word_bytes_toNat h.headerChecksum
  have hcleared : (0 : Byte).toNat = 0 := rfl
  rw [hcleared] at hhigh hlow
  rw [byteAt_set_other _ _ _ _ (by decide)] at hlow
  unfold clearedHeader
  omega

/-- Word 0 is at least 0x4500, because the version is 4 (R134). -/
theorem wordSum_clearedHeader_pos : 0 < wordSum (clearedHeader h) := by
  obtain ⟨hversion, -, -, -⟩ := (Header.wf_iff h).mp hw
  have hfirst : (h.version ++ h.headerLengthWords).toNat = 4 * 16 + h.headerLengthWords.toNat := by
    rw [append_toNat, hversion]
    rfl
  simp only [clearedHeader, Header.headerBytes_eq hw, Header.fixedBytes_eq, List.cons_append, List.set_cons_succ, wordSum,
    hfirst]
  omega

theorem hcs_ne_allOnes : hcs h ≠ 0xFFFF#16 := by
  rw [hcs_eq_cksum16_clearedHeader, Ne, cksum16_eq_allOnes_iff]
  exact (wordSum_clearedHeader_pos hw).ne'

/-- A header sums to zero exactly when it stores its checksum, in either spelling of zero (R136). -/
theorem cksum16_header_eq_zero_iff :
    cksum16 ((enc h).take (4 * h.headerLengthWords.toNat)) = 0 ↔
      h.headerChecksum = hcs h ∨ (h.headerChecksum = 0xFFFF#16 ∧ hcs h = 0) := by
  have hpos := wordSum_clearedHeader_pos hw
  have hstored := h.headerChecksum.isLt
  obtain ⟨hle, hmod, hzero⟩ := isFoldOf_foldCarries (wordSum (clearedHeader h))
  rw [take_header_enc hw, ← Header.headerBytes_eq hw, cksum16_eq_zero_iff, wordSum_headerBytes hw,
    hcs_eq_cksum16_clearedHeader]
  simp only [← BitVec.toNat_inj, cksum16_toNat, BitVec.ofNat_eq_ofNat, BitVec.toNat_ofNat]
  omega

/-- VERIFY compares values, so it tells a stored 0xFFFF from 0 (R136, 44_verify.md R171). -/
theorem verify_set_allOnes : verify { h with headerChecksum := 0xFFFF#16 } = false := by
  rw [verify, hcs_set_headerChecksum hw]
  exact beq_eq_false_iff_ne.mpr (hcs_ne_allOnes hw)

end

/-- Settles O25: the header bytes end before the payload and the checksum field counts as 0; the version keeps the sum
positive. -/
theorem headerChecksumIgnoresPayloadAndStoredValue : Obligations.HeaderChecksumIgnoresPayloadAndStoredValue := by
  unfold Obligations.HeaderChecksumIgnoresPayloadAndStoredValue
  refine ⟨fun h c p hw => ?_, fun h hw => hcs_ne_allOnes hw⟩
  exact (hcs_set_payload ((wf_set_headerChecksum h c).trans hw) p).trans (hcs_set_headerChecksum hw c)

/-- Settles O26: the header sum is a multiple of 65535 exactly for the two stored values. -/
theorem headerWithItsChecksumSumsToZero : Obligations.HeaderWithItsChecksumSumsToZero := by
  unfold Obligations.HeaderWithItsChecksumSumsToZero
  intro h hw
  have hsums := cksum16_header_eq_zero_iff hw
  refine ⟨fun hstored => hsums.mpr (.inl hstored), hsums.mp, fun hzero => ⟨?_, verify_set_allOnes hw⟩⟩
  have hother : hcs { h with headerChecksum := 0xFFFF#16 } = 0 := (hcs_set_headerChecksum hw _).trans hzero
  exact (cksum16_header_eq_zero_iff (h := { h with headerChecksum := 0xFFFF#16 })
    ((wf_set_headerChecksum h _).trans hw)).mpr (.inr ⟨rfl, hother⟩)

/-- Settles O22: CHECKSUM of a record in the slot sets RES and ends without error. -/
theorem checksumWritesResOnly : Obligations.ChecksumWritesResOnly := by
  unfold Obligations.ChecksumWritesResOnly
  exact fun s h hs => exec_checksum_of_record hs

end Sys2Proof.Machine
end

section
/-! SUPPORT. ENCODE and the laws of `enc` (42_encode.md R141, R144; O14, O15). -/

namespace Sys2Proof.Machine

open Sys2Proof.Rules

/-- OUT_LEN after ENCODE of a well-formed record: the number of wire bytes fits a word without loss. -/
theorem ofNat_enc_length {h : Header} (hw : h.wf = true) : BitVec.ofNat 16 (enc h).length = h.totalLength := by
  rw [enc_length_of_wf hw, BitVec.ofNat_toNat, BitVec.setWidth_eq]

/-- What ENCODE of a well-formed record leaves (R141). -/
theorem exec_encode_of_wf {s : State} {h : Header} (hs : s.hdr = some h) (hw : h.wf = true) :
    exec .encode s = .next { s with
      out := s.out.writeBytes 0 (enc h), outLen := h.totalLength, err := none, errInfo := 0 } := by
  simp only [exec_encode_of_record hs, ofNat_enc_length hw, complete]

/-- Settles O14: ENCODE stores the wire bytes from index 0, which are as many as the total length says. -/
theorem encodeWritesTheWireForm : Obligations.EncodeWritesTheWireForm := by
  unfold Obligations.EncodeWritesTheWireForm
  intro s h hs hw
  have hlen : (enc h).length = h.totalLength.toNat := enc_length_of_wf hw
  refine ⟨_, exec_encode_of_wf hs hw, rfl, fun i hi => ?below, fun i hi => ?beyond, ?unchanged⟩
  case below => rw [Memory.read_writeBytes, if_pos (by omega), Nat.sub_zero]
  case beyond => rw [Memory.read_writeBytes, if_neg (by omega)]
  case unchanged => dsimp only

theorem twenty_le_enc_length (h : Header) : 20 ≤ (enc h).length := by
  rw [enc_length]
  omega

theorem enc_first_nibble {h : Header} (hw : h.wf = true) : (byteAt (enc h) 0).toNat / 16 = 4 := by
  obtain ⟨hversion, -, -, -⟩ := (Header.wf_iff h).mp hw
  rw [byteAt_enc_zero, ← high_nibble_toNat, BitVec.extractLsb'_append_eq_left, hversion]
  rfl

/-- Wire bit 48 is the most significant bit of byte 6, which is the high byte of the fragment word (R95). -/
theorem wireBit_enc_rsv (h : Header) : wireBit (enc h) 48 = h.rsv := by
  have hbyte : byteAt (enc h) 6 = h.fragmentWord.extractLsb' 8 8 := rfl
  rw [wireBit, hbyte, BitVec.getLsbD_extractLsb', ← fragmentWord_rsv h]
  rfl

/-- `enc` is injective on well-formed records, for `dec` is a left inverse there. -/
theorem enc_injective_of_wf {h k : Header} (hh : h.wf = true) (hk : k.wf = true) (he : enc h = enc k) : h = k := by
  rw [← fieldsOf_enc hh, he, fieldsOf_enc hk]

theorem construct_ok_rsv {o : OpRegs} {st dt payload : List Byte} {h : Header}
    (hc : construct o st dt payload = .ok h) : h.rsv = false := by
  obtain ⟨-, -, src, dst, -, -, rfl⟩ := construct_ok_spec hc
  rfl

/-- Settles O15: the lengths from well-formedness, injectivity from reading the fields back, and bit 48 from the layout. -/
theorem encodeLaws : Obligations.EncodeLaws := by
  unfold Obligations.EncodeLaws
  refine ⟨fun h hw => ?laws, fun h k => enc_injective_of_wf, fun o st dt payload h hc => ?constructed⟩
  case laws =>
    exact ⟨enc_length_of_wf hw, twenty_le_enc_length h, enc_length_le_outMax hw, enc_first_nibble hw, wireBit_enc_rsv h⟩
  case constructed => rw [wireBit_enc_rsv, construct_ok_rsv hc]

end Sys2Proof.Machine
end

section
/-! SUPPORT. DECODE and the laws of `dec` (43_decode.md R150 to R156; O16 to O20): the wire form of the fields read, the
command as the function `dec` of its written input, and the error each failing check reports. -/

namespace Sys2Proof.Machine

open Sys2Proof.Rules

/-! ### Decode after encode (R155 (a)) -/

/-- Settles O18: the checks pass on a wire form, and each field is read where the wire form puts it. -/
theorem decodingAnEncodedRecordGivesItBack : Obligations.DecodingAnEncodedRecordGivesItBack := by
  unfold Obligations.DecodingAnEncodedRecordGivesItBack
  exact fun _ hw => dec_enc hw

/-! ### The fields of a word as numbers -/

theorem low_bits_toNat {w : Nat} (x : BitVec w) (n : Nat) : (x.extractLsb' 0 n).toNat = x.toNat % 2 ^ n := by
  rw [BitVec.extractLsb'_toNat, Nat.shiftRight_zero]

theorem high_bits_toNat {w m n : Nat} (x : BitVec w) (hmn : m + n = w) : (x.extractLsb' n m).toNat = x.toNat / 2 ^ n := by
  have hlt : x.toNat / 2 ^ n < 2 ^ m := by
    rw [Nat.div_lt_iff_lt_mul (Nat.two_pow_pos n), ← Nat.pow_add, hmn]
    exact x.isLt
  rw [BitVec.extractLsb'_toNat, Nat.shiftRight_eq_div_pow, Nat.mod_eq_of_lt hlt]

theorem word_top_bit_toNat (w : Word16) : (w.getLsbD 15).toNat = w.toNat / 32768 := by
  have hlt := w.isLt
  rw [word_bit_toNat]
  omega

/-! ### Encode after decode (R155 (b)) -/

theorem take_eq_map_byteAt {s : List Byte} {n : Nat} (hn : n ≤ s.length) : s.take n = (List.range n).map (byteAt s) := by
  refine List.ext_getElem (by simp [hn]) fun i hi _ => ?_
  rw [List.getElem_take, List.getElem_map, List.getElem_range, byteAt_eq_getElem]

/-- A prefix and the piece that adjoins it make the longer prefix. -/
theorem take_append_drop_take (s : List Byte) {i j : Nat} (hij : i ≤ j) : s.take i ++ (s.take j).drop i = s.take j := by
  rw [List.drop_take, ← List.take_add, Nat.add_sub_of_le hij]

theorem be16_u16 (s : List Byte) (i : Nat) : be16 (u16 s i) = [byteAt s i, byteAt s (i + 1)] := by
  rw [be16, u16, BitVec.extractLsb'_append_eq_left, BitVec.extractLsb'_append_eq_right]

/-- The two fields of a byte put together again make the byte; as numbers, for the widths `m + n` and 8 are equal only by
`hmn`. -/
theorem append_fields_toNat (b : Byte) {m n : Nat} (hmn : m + n = 8) :
    (b.extractLsb' n m ++ b.extractLsb' 0 n).toNat = b.toNat := by
  rw [append_toNat, high_bits_toNat b hmn, low_bits_toNat, Nat.div_add_mod']

section
variable (buf : List Byte)

/-- The flags and the fragment offset read from a word make up the word (R95). -/
theorem fragmentWord_fieldsOf : (fieldsOf buf).fragmentWord = u16 buf 6 := by
  apply BitVec.eq_of_toNat_eq
  have hlt := (u16 buf 6).isLt
  rw [fragmentWord_toNat]
  simp only [fieldsOf, word_bit_toNat, low_bits_toNat]
  omega

theorem fixedBytes_fieldsOf : (fieldsOf buf).fixedBytes = (List.range 20).map (byteAt buf) := by
  have hfirst : (fieldsOf buf).version ++ (fieldsOf buf).headerLengthWords = byteAt buf 0 :=
    BitVec.eq_of_toNat_eq (append_fields_toNat (m := 4) (n := 4) (byteAt buf 0) rfl)
  have hsecond : (fieldsOf buf).dscp ++ (fieldsOf buf).ecn = byteAt buf 1 :=
    BitVec.eq_of_toNat_eq (append_fields_toNat (m := 6) (n := 2) (byteAt buf 1) rfl)
  have htotal : be16 (fieldsOf buf).totalLength = [byteAt buf 2, byteAt buf 3] := be16_u16 buf 2
  have hid : be16 (fieldsOf buf).identification = [byteAt buf 4, byteAt buf 5] := be16_u16 buf 4
  have hsum : be16 (fieldsOf buf).headerChecksum = [byteAt buf 10, byteAt buf 11] := be16_u16 buf 10
  rw [Header.fixedBytes, hfirst, hsecond, htotal, hid, fragmentWord_fieldsOf, be16_u16, hsum]
  rfl

end

/-- The record of a packet, laid out again, is the packet: three adjoining pieces of it. -/
theorem enc_fieldsOf {buf : List Byte} (hn : 20 ≤ buf.length)
    (hmin : 20 ≤ 4 * (fieldsOf buf).headerLengthWords.toNat)
    (hmax : 4 * (fieldsOf buf).headerLengthWords.toNat ≤ (fieldsOf buf).totalLength.toNat) :
    enc (fieldsOf buf) = buf.take (fieldsOf buf).totalLength.toNat := by
  set k := 4 * (fieldsOf buf).headerLengthWords.toNat
  set n := (fieldsOf buf).totalLength.toNat
  have hoptions : (fieldsOf buf).options = (buf.take k).drop 20 := rfl
  have hpayload : (fieldsOf buf).payload = (buf.take n).drop k := rfl
  rw [enc, fixedBytes_fieldsOf, ← take_eq_map_byteAt hn, hoptions, hpayload, take_append_drop_take buf hmin,
    take_append_drop_take buf hmax]

theorem enc_of_dec_ok {buf : List Byte} {h : Header} (hd : dec buf = .ok h) :
    enc h = buf.take h.totalLength.toNat := by
  obtain ⟨hn, -, hmin, hmax, -, rfl⟩ := dec_ok_iff.mp hd
  rw [← low_nibble_toNat] at hmin hmax
  exact enc_fieldsOf hn (Nat.mul_le_mul_left 4 hmin) hmax

/-- Settles O19: the checks passed make the record well-formed, and its wire form is the packet's pieces put together. -/
theorem encodingADecodedPacketGivesItBack : Obligations.EncodingADecodedPacketGivesItBack := by
  unfold Obligations.EncodingADecodedPacketGivesItBack
  exact fun _ _ hd => ⟨dec_ok_wf hd, enc_of_dec_ok hd⟩

/-! ### Bytes beyond the packet (R155 (c), R156) -/

theorem u16_append {a t : List Byte} {i : Nat} (h : i + 1 < a.length) : u16 (a ++ t) i = u16 a i := by
  rw [u16, u16, byteAt_append (by omega), byteAt_append h]

theorem dec_append {buf : List Byte} {h : Header} (hd : dec buf = .ok h) (t : List Byte) : dec (buf ++ t) = .ok h := by
  obtain ⟨hn, hversion, hmin, hmax, htotal, rfl⟩ := dec_ok_iff.mp hd
  have hfields : fieldsOf (buf ++ t) = fieldsOf buf :=
    fieldsOf_append hn htotal (by rw [low_nibble_toNat]; omega)
  rw [dec_ok_iff, List.length_append, byteAt_append (by omega), u16_append (by omega), hfields]
  exact ⟨by omega, hversion, hmin, hmax, by omega, rfl⟩

theorem dec_take_total {buf : List Byte} {h : Header} (hd : dec buf = .ok h) :
    dec (buf.take h.totalLength.toNat) = .ok h := by
  rw [← enc_of_dec_ok hd, dec_enc (dec_ok_wf hd)]

/-- Settles O20: appended bytes reach no check and no field, and the packet alone is the record's wire form. -/
theorem decodeIgnoresTrailingBytes : Obligations.DecodeIgnoresTrailingBytes := by
  unfold Obligations.DecodeIgnoresTrailingBytes
  exact fun _ _ hd => ⟨dec_append hd, dec_take_total hd⟩

/-! ### The command on a written input (R151) -/

section
variable {s : State} {buf : List Byte} (hin : InBytes s buf)
include hin

theorem exec_decode_of_dec_ok {h : Header} (hd : dec buf = .ok h) : exec .decode s = .next (filled s h) := by
  have hexec : exec .decode s = fillSlot .decode (dec buf) s := execDecode_of_bytes hin
  rw [hexec, hd]
  exact fillSlot_ok .decode h s

theorem exec_decode_of_dec_error {e : CodecError} (hd : dec buf = .error e) :
    exec .decode s = .next (emptied s e.kind e.info) := by
  have hexec : exec .decode s = fillSlot .decode (dec buf) s := execDecode_of_bytes hin
  rw [hexec, hd]
  exact fillSlot_error (.inr rfl) e s

end

/-! ### The record of a packet that passes the checks (R150) -/

theorem options_fieldsOf (buf : List Byte) :
    (fieldsOf buf).options = (buf.drop 20).take (4 * ((byteAt buf 0).toNat % 16) - 20) := by
  rw [← low_nibble_toNat]
  exact List.drop_take

theorem payload_fieldsOf (buf : List Byte) : (fieldsOf buf).payload =
    (buf.drop (4 * ((byteAt buf 0).toNat % 16))).take ((u16 buf 2).toNat - 4 * ((byteAt buf 0).toNat % 16)) := by
  rw [← low_nibble_toNat]
  exact List.drop_take

/-- Settles O16: the six checks are those of `dec`, and each field of its record is the number its bytes make. -/
theorem decodeStoresTheRecord : Obligations.DecodeStoresTheRecord := by
  unfold Obligations.DecodeStoresTheRecord
  intro s buf hin
  have hlen : buf.length = s.inLen.toNat := (Memory.readBytes_ok_iff.mp hin).1
  simp only [← hlen, ← u16_toNat]
  intro hn hversion _ htotal hmin hmax
  have hd : dec buf = .ok (fieldsOf buf) := dec_ok_iff.mpr ⟨hn, hversion, hmin, hmax, htotal, rfl⟩
  exact ⟨fieldsOf buf, exec_decode_of_dec_ok hin hd, dec_ok_wf hd, (high_nibble_toNat _).trans hversion,
    low_nibble_toNat _, high_bits_toNat _ rfl, low_bits_toNat _ 2, rfl, rfl, word_top_bit_toNat _, word_bit_toNat _ 14,
    word_bit_toNat _ 13, low_bits_toNat _ 13, rfl, rfl, rfl, rfl, rfl, options_fieldsOf buf, payload_fieldsOf buf⟩

/-! ### The first check that fails (R150, R152) -/

theorem checkFirstByte_of_version {n : Nat} {b : Byte} (hversion : b.toNat / 16 ≠ 4) :
    checkFirstByte n b = .error ⟨.invalidVersion, BitVec.ofNat 8 (b.toNat / 16)⟩ := by
  rw [← high_nibble_toNat] at hversion ⊢
  have hne : b.extractLsb' 4 4 ≠ 4#4 := fun h => hversion (h ▸ rfl)
  rw [BitVec.ofNat_toNat]
  exact if_pos hne

theorem checkFirstByte_of_short {n : Nat} {b : Byte} (hversion : b.toNat / 16 = 4) (hshort : n < 4 * (b.toNat % 16)) :
    checkFirstByte n b = .error ⟨.bufferTooShort, 1⟩ := by
  rw [← high_nibble_toNat] at hversion
  rw [← low_nibble_toNat] at hshort
  exact (if_neg (not_not.mpr (BitVec.eq_of_toNat_eq hversion))).trans (if_pos hshort)

section
variable {n : Nat} {b : Byte} {tl : Word16}

theorem checkTotal_of_short (hshort : n < tl.toNat) : checkTotal n b tl = .error ⟨.bufferTooShort, 2⟩ := if_pos hshort

theorem checkTotal_of_hlw (htotal : tl.toNat ≤ n) (hhlw : b.toNat % 16 < 5) :
    checkTotal n b tl = .error ⟨.lengthMismatch, 1⟩ := by
  rw [← low_nibble_toNat] at hhlw
  exact (if_neg (Nat.not_lt.mpr htotal)).trans (if_pos hhlw)

theorem checkTotal_of_total (htotal : tl.toNat ≤ n) (hhlw : 5 ≤ b.toNat % 16) (hless : tl.toNat < 4 * (b.toNat % 16)) :
    checkTotal n b tl = .error ⟨.lengthMismatch, 2⟩ := by
  rw [← low_nibble_toNat] at hhlw hless
  exact (if_neg (Nat.not_lt.mpr htotal)).trans ((if_neg (Nat.not_lt.mpr hhlw)).trans (if_pos hless))

end

section
variable {buf : List Byte} {e : CodecError}

theorem dec_of_short (hn : buf.length < 20) : dec buf = .error ⟨.bufferTooShort, 0⟩ := by
  simp only [dec, checkFixed, if_pos hn]

variable (hn : 20 ≤ buf.length)
include hn

theorem dec_of_checkFirstByte_error (hfirst : checkFirstByte buf.length (byteAt buf 0) = .error e) :
    dec buf = .error e := by
  simp only [dec, checkFixed, if_neg (Nat.not_lt.mpr hn), hfirst]

theorem dec_of_checkTotal_error (hfirst : checkFirstByte buf.length (byteAt buf 0) = .ok ())
    (htotal : checkTotal buf.length (byteAt buf 0) (u16 buf 2) = .error e) : dec buf = .error e := by
  simp only [dec, checkFixed, if_neg (Nat.not_lt.mpr hn), hfirst, htotal]

end

/-- Settles O17: the checks before the one named pass, and that one fails. -/
theorem decodeReportsTheFirstFailingCheck : Obligations.DecodeReportsTheFirstFailingCheck := by
  unfold Obligations.DecodeReportsTheFirstFailingCheck
  intro s buf hin
  have hlen : buf.length = s.inLen.toNat := (Memory.readBytes_ok_iff.mp hin).1
  simp only [← hlen, ← u16_toNat]
  refine ⟨fun hn => ?fixed, fun hn hversion => ?version, fun hn hversion hshort => ?header,
    fun hn hversion hhlw hshort => ?packet, fun hn hversion hhlw htotal hmin => ?words,
    fun hn hversion hhlw htotal hmin hless => ?total⟩
  case fixed => exact exec_decode_of_dec_error hin (dec_of_short hn)
  case version =>
    exact exec_decode_of_dec_error hin (dec_of_checkFirstByte_error hn (checkFirstByte_of_version hversion))
  case header =>
    exact exec_decode_of_dec_error hin (dec_of_checkFirstByte_error hn (checkFirstByte_of_short hversion hshort))
  case packet =>
    exact exec_decode_of_dec_error hin
      (dec_of_checkTotal_error hn (checkFirstByte_ok_iff.mpr ⟨hversion, hhlw⟩) (checkTotal_of_short hshort))
  case words =>
    exact exec_decode_of_dec_error hin
      (dec_of_checkTotal_error hn (checkFirstByte_ok_iff.mpr ⟨hversion, hhlw⟩) (checkTotal_of_hlw htotal hmin))
  case total =>
    exact exec_decode_of_dec_error hin
      (dec_of_checkTotal_error hn (checkFirstByte_ok_iff.mpr ⟨hversion, hhlw⟩) (checkTotal_of_total htotal hmin hless))

end Sys2Proof.Machine
end

section
/-! SUPPORT. VERIFY and RECOMPUTE (44_verify.md R170 to R174; O27 to O32): the stored checksum after RECOMPUTE, and what one
flipped bit of a wire form does to the byte it stands in, to the total length, to the word sum and to the checks of `dec`. -/

namespace Sys2Proof.Machine

open Sys2Proof.Rules

/-! ### The commands (R170 to R173) -/

theorem verify_iff {h : Header} : verify h = true ↔ hcs h = h.headerChecksum := beq_iff_eq

/-- Settles O27: the test of `verify` is the equality of the two values. -/
theorem verifyComparesTheChecksums : Obligations.VerifyComparesTheChecksums := by
  unfold Obligations.VerifyComparesTheChecksums
  intro s h hs
  rw [exec_verify_of_record hs]
  simp only [verify_iff, complete]

/-- Settles O28: RECOMPUTE of a record in the slot, with the stream closed and the status of success written out. -/
theorem recomputeAttachesTheChecksum : Obligations.RecomputeAttachesTheChecksum := by
  unfold Obligations.RecomputeAttachesTheChecksum
  exact fun s h hs => exec_recompute_of_record hs

/-- The checksum does not cover its own field, so a record that stores it verifies (R174 (a)). -/
theorem verify_set_hcs {h : Header} (hw : h.wf = true) : verify { h with headerChecksum := hcs h } = true :=
  verify_iff.mpr (hcs_set_headerChecksum hw (hcs h))

/-- Settles O29: VERIFY finds the record RECOMPUTE left, which stores its checksum. -/
theorem verifyAfterRecomputeSucceeds : Obligations.VerifyAfterRecomputeSucceeds := by
  unfold Obligations.VerifyAfterRecomputeSucceeds
  intro s h hs hw
  exact ⟨_, _, exec_recompute_of_record hs, exec_verify_of_record rfl, if_pos (verify_set_hcs hw), rfl⟩

/-- Settles O30: the checksum does not depend on the stored value, the one of the first RECOMPUTE or any other. -/
theorem recomputeIsIdempotent : Obligations.RecomputeIsIdempotent := by
  unfold Obligations.RecomputeIsIdempotent
  refine ⟨fun s h hs hw => ⟨_, _, exec_recompute_of_record hs, exec_recompute_of_record rfl, ?record, ?result⟩,
    fun s h c hs hw => ?oldChecksum⟩
  case record => exact congrArg (fun c => some { h with headerChecksum := c }) (hcs_set_headerChecksum hw (hcs h))
  case result => exact hcs_set_headerChecksum hw (hcs h)
  case oldChecksum =>
    rw [exec_recompute_of_record rfl, exec_recompute_of_record hs, hcs_set_headerChecksum hw c]
    rfl

/-! ### A number with one bit flipped -/

/-- The number `y` is `x` with a bit of weight `d` flipped: the weight is lost where the bit was set and gained where it was
clear. -/
def Flipped (bit : Bool) (d x y : Nat) : Prop := if bit then y + d = x else y = x + d

theorem flipped_true {d x y : Nat} : Flipped true d x y ↔ y + d = x := Iff.rfl

theorem flipped_false {d x y : Nat} : Flipped false d x y ↔ y = x + d := Iff.rfl

theorem Flipped.lost_or_gained {bit : Bool} {d x y : Nat} (hf : Flipped bit d x y) : y + d = x ∨ y = x + d := by
  cases bit with
  | true => exact .inl (flipped_true.mp hf)
  | false => exact .inr (flipped_false.mp hf)

/-- A number in which another one stands with the factor `k` has the bit of that one at `k` times its weight. -/
theorem Flipped.scaled {bit : Bool} {d a b : Nat} (hf : Flipped bit d a b) {k x y : Nat} (hxy : y + a * k = x + b * k) :
    Flipped bit (d * k) x y := by
  cases bit with
  | true =>
    rw [flipped_true] at hf ⊢
    rw [← hf, Nat.add_mul] at hxy
    omega
  | false =>
    rw [flipped_false] at hf ⊢
    rw [hf, Nat.add_mul] at hxy
    omega

/-- A flipped bit above the low nibble changes what stands above it. -/
theorem Flipped.div_sixteen_ne {bit : Bool} {c x y : Nat} (hf : Flipped bit (c * 16) x y) (hc : 0 < c) :
    y / 16 ≠ x / 16 := by
  have hchange := hf.lost_or_gained
  omega

theorem Flipped.ne {bit : Bool} {d x y : Nat} (hf : Flipped bit d x y) (hd : 0 < d) : y ≠ x := by
  have hchange := hf.lost_or_gained
  omega

/-- A change by a power of two below 2^16 is no multiple of 65535 (R174 (b)). -/
theorem Flipped.mod_ne_zero {bit : Bool} {j x y : Nat} (hf : Flipped bit (2 ^ j) x y) (hj : j < 16)
    (hx : x % 65535 = 0) : y % 65535 ≠ 0 := by
  have hpos : 0 < 2 ^ j := Nat.two_pow_pos j
  have hle : 2 ^ j ≤ 2 ^ 15 := Nat.pow_le_pow_right (by decide) (by omega)
  have hchange := hf.lost_or_gained
  omega

/-! ### A byte sequence with one wire bit flipped (00_scope.md R6) -/

/-- The weight of wire bit `p` in its word, from its weight in the high byte. -/
theorem weight_of_even_byte {p : Nat} (h : p / 8 % 2 = 0) : 2 ^ (15 - p % 16) = 2 ^ (7 - p % 8) * 256 := by
  rw [show 15 - p % 16 = 7 - p % 8 + 8 by omega, Nat.pow_add]

/-- The weight of wire bit `p` in its word, from its weight in the low byte. -/
theorem weight_of_odd_byte {p : Nat} (h : p / 8 % 2 = 1) : 2 ^ (15 - p % 16) = 2 ^ (7 - p % 8) * 1 := by
  rw [show 15 - p % 16 = 7 - p % 8 by omega, Nat.mul_one]

section
variable (s : List Byte) {p : Nat}

theorem flipBit_length : (flipBit s p).length = s.length := List.length_set

theorem byteAt_flipBit_other {i : Nat} (hi : p / 8 ≠ i) : byteAt (flipBit s p) i = byteAt s i :=
  byteAt_set_other s _ _ _ hi

theorem u16_flipBit_other {i : Nat} (hlow : p / 8 ≠ i) (hhigh : p / 8 ≠ i + 1) : u16 (flipBit s p) i = u16 s i := by
  rw [u16, u16, byteAt_flipBit_other s hlow, byteAt_flipBit_other s hhigh]

theorem take_flipBit_above {n : Nat} (hn : p / 8 < n) : (flipBit s p).take n = flipBit (s.take n) p := by
  rw [flipBit, flipBit, List.take_set, byteAt_take hn]

theorem take_flipBit_below {n : Nat} (hn : n ≤ p / 8) : (flipBit s p).take n = s.take n :=
  List.take_set_of_le hn

variable (hp : p / 8 < s.length)
include hp

theorem byteAt_flipBit : Flipped (wireBit s p) (2 ^ (7 - p % 8))
    (byteAt s (p / 8)).toNat (byteAt (flipBit s p) (p / 8)).toNat := by
  have hm : 7 - p % 8 < 8 := by omega
  rw [flipBit, byteAt_set_same _ _ _ hp, flip_bit_toNat _ _ hm]
  cases hbit : wireBit s p with
  | true =>
    have hle := two_pow_le_of_bit hm hbit
    rw [wireBit] at hbit
    rw [flipped_true, if_pos hbit]
    omega
  | false =>
    rw [wireBit] at hbit
    rw [flipped_false, hbit, if_neg Bool.false_ne_true]

/-- A flip in the low nibble of a byte leaves the high one. -/
theorem high_nibble_flipBit (hlow : 4 ≤ p % 8) :
    (byteAt (flipBit s p) (p / 8)).extractLsb' 4 4 = (byteAt s (p / 8)).extractLsb' 4 4 := by
  have hclear : (BitVec.twoPow 8 (7 - p % 8)).extractLsb' 4 4 = 0#4 := by
    ext i hi
    rw [BitVec.getElem_extractLsb', BitVec.getLsbD_twoPow, BitVec.getElem_zero, Bool.and_eq_false_imp]
    intro _
    exact decide_eq_false (by omega)
  rw [flipBit, byteAt_set_same _ _ _ hp, BitVec.extractLsb'_xor, hclear, BitVec.xor_zero]

theorem flipBit_eq_set : flipBit s p = s.set (p / 8) (byteAt (flipBit s p) (p / 8)) := by
  rw [flipBit, byteAt_set_same _ _ _ hp]

/-- One word of the sum changes, by the weight of the flipped bit in it (R174 (b)). -/
theorem wordSum_flipBit : Flipped (wireBit s p) (2 ^ (15 - p % 16)) (wordSum s) (wordSum (flipBit s p)) := by
  have hbyte := byteAt_flipBit s hp
  rcases Nat.mod_two_eq_zero_or_one (p / 8) with heven | hodd
  · have hsum := wordSum_set_even s (p / 8) (byteAt (flipBit s p) (p / 8)) hp heven
    rw [← flipBit_eq_set s hp] at hsum
    rw [weight_of_even_byte heven]
    exact hbyte.scaled hsum
  · have hsum := wordSum_set_odd s (p / 8) (byteAt (flipBit s p) (p / 8)) hp hodd
    rw [← flipBit_eq_set s hp] at hsum
    rw [weight_of_odd_byte hodd]
    exact hbyte.scaled (by omega)

/-- The word the flipped bit stands in changes by the weight of the bit. -/
theorem u16_flipBit {i : Nat} (hi : i % 2 = 0) (hin : p / 8 = i ∨ p / 8 = i + 1) :
    Flipped (wireBit s p) (2 ^ (15 - p % 16)) (u16 s i).toNat (u16 (flipBit s p) i).toNat := by
  have hbyte := byteAt_flipBit s hp
  rw [u16_toNat, u16_toNat]
  rcases hin with hhigh | hlow
  · rw [byteAt_flipBit_other s (i := i + 1) (by omega), weight_of_even_byte (by omega)]
    rw [hhigh] at hbyte
    exact hbyte.scaled (by omega)
  · rw [byteAt_flipBit_other s (i := i) (by omega), weight_of_odd_byte (by omega)]
    rw [hlow] at hbyte
    exact hbyte.scaled (by omega)

end

/-! ### The header sum of the packet decoded (R132, R136) -/

/-- The header bytes of a decoded record are those of its packet. -/
theorem headerBytes_of_dec_ok {buf : List Byte} {k : Header} (hd : dec buf = .ok k) : k.headerBytes = buf.take k.length := by
  obtain ⟨-, -, htotal, -⟩ := (Header.wf_iff k).mp (dec_ok_wf hd)
  rw [Header.headerBytes, enc_of_dec_ok hd, List.take_take, Nat.min_eq_left (by omega)]

theorem wordSum_headerBytes_of_verify {h : Header} (hw : h.wf = true) (hv : verify h = true) :
    wordSum h.headerBytes % 65535 = 0 := by
  have hsum : cksum16 h.headerBytes = 0 := (cksum16_header_eq_zero_iff hw).mpr (.inl (verify_iff.mp hv).symm)
  exact (cksum16_eq_zero_iff.mp hsum).2

theorem verify_congr {h k : Header} (hbytes : k.headerBytes = h.headerBytes)
    (hstored : k.headerChecksum = h.headerChecksum) : verify k = verify h := by
  rw [verify, verify, hcs, hcs, hbytes, hstored]

/-! ### One bit of a wire form flipped (R174 (b)) -/

theorem byteAt_enc_zero_toNat {h : Header} (hw : h.wf = true) :
    (byteAt (enc h) 0).toNat = 64 + h.headerLengthWords.toNat := by
  obtain ⟨hversion, -, -, -⟩ := (Header.wf_iff h).mp hw
  rw [byteAt_enc_zero, append_toNat, hversion]
  rfl

section
variable (h : Header) {p : Nat}

theorem twenty_le_flipBit_length : 20 ≤ (flipBit (enc h) p).length := by
  rw [flipBit_length]
  exact twenty_le_enc_length h

theorem fixed_bit_within_enc (hp : p < 160) : p / 8 < (enc h).length :=
  (Nat.div_lt_of_lt_mul hp).trans_le (twenty_le_enc_length h)

theorem flipped_totalLength (hlow : 16 ≤ p) (hhigh : p < 32) : Flipped (wireBit (enc h) p) (2 ^ (31 - p))
    h.totalLength.toNat (u16 (flipBit (enc h) p) 2).toNat := by
  have hflip := u16_flipBit (enc h) (fixed_bit_within_enc h (p := p) (by omega)) (i := 2) rfl (by omega)
  rwa [u16_enc_total, show 15 - p % 16 = 31 - p by omega] at hflip

theorem u16_flipBit_total_cleared (hlow : 16 ≤ p) (hhigh : p < 32) (hbit : wireBit (enc h) p = true) :
    (u16 (flipBit (enc h) p) 2).toNat = h.totalLength.toNat - 2 ^ (31 - p) ∧
    (u16 (flipBit (enc h) p) 2).toNat < h.totalLength.toNat := by
  have hflip := flipped_totalLength h hlow hhigh
  have hpos := Nat.two_pow_pos (31 - p)
  rw [hbit, flipped_true] at hflip
  omega

end

section
variable {h : Header} (hw : h.wf = true) {p : Nat}
include hw

theorem header_within_enc : 20 ≤ 4 * h.headerLengthWords.toNat ∧
    4 * h.headerLengthWords.toNat ≤ (enc h).length ∧ (enc h).length = h.totalLength.toNat := by
  obtain ⟨-, hmin, htotal, -⟩ := (Header.wf_iff h).mp hw
  rw [enc_length_of_wf hw]
  exact ⟨by omega, htotal ▸ Nat.le_add_right _ _, rfl⟩

/-- The checks of `dec` look at byte 0 and at the total length only: with the first kept and the second still in range, the
flipped packet decodes. -/
theorem dec_flipBit_ok (hfirst : 8 ≤ p)
    (hmax : 4 * h.headerLengthWords.toNat ≤ (u16 (flipBit (enc h) p) 2).toNat)
    (htotal : (u16 (flipBit (enc h) p) 2).toNat ≤ h.totalLength.toNat) :
    ∃ k : Header, dec (flipBit (enc h) p) = .ok k ∧ k.headerLengthWords = h.headerLengthWords ∧
      k.totalLength = u16 (flipBit (enc h) p) 2 ∧ k.headerChecksum = u16 (flipBit (enc h) p) 10 := by
  obtain ⟨hmin, hheader, hlen⟩ := header_within_enc hw
  have hbyte : byteAt (flipBit (enc h) p) 0 = byteAt (enc h) 0 := byteAt_flipBit_other _ (by omega)
  have hnat := byteAt_enc_zero_toNat hw
  have hhlw := h.headerLengthWords.isLt
  refine ⟨fieldsOf (flipBit (enc h) p), dec_ok_iff.mpr ?_, ?_, rfl, rfl⟩
  · rw [flipBit_length, hbyte, hnat, hlen]
    exact ⟨by omega, by omega, by omega, by omega, htotal, rfl⟩
  · rw [fieldsOf, hbyte, byteAt_enc_zero]
    exact BitVec.extractLsb'_append_eq_right

/-- A record decoded from a wire form that verifies, with a header bit flipped but of the same header length, does not verify:
its header sum is no multiple of 65535. -/
theorem verify_flipBit_header {k : Header} (hv : verify h = true) (hp : p < 32 * h.headerLengthWords.toNat)
    (hd : dec (flipBit (enc h) p) = .ok k) (hhlw : k.headerLengthWords = h.headerLengthWords) : verify k = false := by
  obtain ⟨hlen, -⟩ := headerBytes_length hw
  have hlength : k.length = h.length := by rw [Header.length, hhlw, Header.length]
  have hin : p / 8 < h.length := by
    unfold Header.length
    omega
  have hbytes : k.headerBytes = flipBit h.headerBytes p := by
    rw [headerBytes_of_dec_ok hd, hlength, take_flipBit_above _ hin, Header.headerBytes]
  have hflip := wordSum_flipBit h.headerBytes (p := p) (by omega)
  rw [← hbytes] at hflip
  have hnot : wordSum k.headerBytes % 65535 ≠ 0 :=
    hflip.mod_ne_zero (by omega) (wordSum_headerBytes_of_verify hw hv)
  exact Bool.eq_false_iff.mpr fun hk => hnot (wordSum_headerBytes_of_verify (dec_ok_wf hd) hk)

/-- A flip beyond byte 0 and outside the total length passes the checks of the wire form itself. -/
theorem dec_flipBit_outside (hfirst : 8 ≤ p) (hlen : ¬ (16 ≤ p ∧ p < 32)) :
    ∃ k : Header, dec (flipBit (enc h) p) = .ok k ∧ k.headerLengthWords = h.headerLengthWords ∧
      k.headerChecksum = u16 (flipBit (enc h) p) 10 := by
  obtain ⟨-, hheader, htotal⟩ := header_within_enc hw
  have hword : u16 (flipBit (enc h) p) 2 = h.totalLength := by
    rw [u16_flipBit_other _ (by omega) (by omega), u16_enc_total]
  obtain ⟨k, hd, hhlw, -, hstored⟩ := dec_flipBit_ok hw hfirst (by rw [hword]; omega) (by rw [hword])
  exact ⟨k, hd, hhlw, hstored⟩

/-- Byte 0 is the version 4 in the high nibble and the header length in the low one (R95). -/
theorem flipped_byte_zero (hp : p < 8) : Flipped (wireBit (enc h) p) (2 ^ (7 - p))
    (64 + h.headerLengthWords.toNat) (byteAt (flipBit (enc h) p) 0).toNat := by
  have hflip := byteAt_flipBit (enc h) (fixed_bit_within_enc h (p := p) (by omega))
  rwa [Nat.mod_eq_of_lt hp, Nat.div_eq_of_lt hp, byteAt_enc_zero_toNat hw] at hflip

theorem dec_flipBit_version (hp : p < 4) : ∃ v, dec (flipBit (enc h) p) = .error ⟨.invalidVersion, v⟩ := by
  have hhlw := h.headerLengthWords.isLt
  have hweight : 2 ^ (7 - p) = 2 ^ (3 - p) * 16 := by
    rw [show 7 - p = 3 - p + 4 by omega, Nat.pow_add]
  have hflip := flipped_byte_zero hw (p := p) (by omega)
  rw [hweight] at hflip
  have hversion := hflip.div_sixteen_ne (Nat.two_pow_pos _)
  exact ⟨_, dec_of_checkFirstByte_error (twenty_le_flipBit_length h) (checkFirstByte_of_version (by omega))⟩

/-- A bit of the low nibble of byte 0 changes the header length and leaves the version. -/
theorem byteAt_flipBit_hlw (hlow : 4 ≤ p) (hhigh : p < 8) :
    (byteAt (flipBit (enc h) p) 0).toNat / 16 = 4 ∧
    (byteAt (flipBit (enc h) p) 0).toNat % 16 ≠ h.headerLengthWords.toNat := by
  have hhlw := h.headerLengthWords.isLt
  have hnat := byteAt_enc_zero_toNat hw
  have hin := fixed_bit_within_enc h (p := p) (by omega)
  have hversion := congrArg BitVec.toNat (high_nibble_flipBit (enc h) hin (by omega))
  rw [Nat.div_eq_of_lt hhigh, high_nibble_toNat, high_nibble_toNat] at hversion
  have hne := (flipped_byte_zero hw hhigh).ne (Nat.two_pow_pos _)
  omega

/-- A changed header length fails check 3 or check 5, or gives a record; check 6 then passes with check 3, for the total length
is still the length of the packet. -/
theorem dec_flipBit_hlw (hlow : 4 ≤ p) (hhigh : p < 8) :
    dec (flipBit (enc h) p) = .error ⟨.bufferTooShort, 1⟩ ∨ dec (flipBit (enc h) p) = .error ⟨.lengthMismatch, 1⟩ ∨
      ∃ k : Header, dec (flipBit (enc h) p) = .ok k ∧ k.headerLengthWords ≠ h.headerLengthWords := by
  obtain ⟨hversion, hne⟩ := byteAt_flipBit_hlw hw hlow hhigh
  have hn := twenty_le_flipBit_length h (p := p)
  have htotal : (u16 (flipBit (enc h) p) 2).toNat = (flipBit (enc h) p).length := by
    rw [u16_flipBit_other _ (by omega) (by omega), u16_enc_total, flipBit_length, enc_length_of_wf hw]
  rcases Nat.lt_or_ge (flipBit (enc h) p).length (4 * ((byteAt (flipBit (enc h) p) 0).toNat % 16)) with hshort | hfits
  · exact .inl (dec_of_checkFirstByte_error hn (checkFirstByte_of_short hversion hshort))
  rcases Nat.lt_or_ge ((byteAt (flipBit (enc h) p) 0).toNat % 16) 5 with hfew | hmin
  · exact .inr (.inl (dec_of_checkTotal_error hn (checkFirstByte_ok_iff.mpr ⟨hversion, hfits⟩)
      (checkTotal_of_hlw htotal.le hfew)))
  refine .inr (.inr ⟨_, dec_ok_iff.mpr ⟨hn, hversion, hmin, htotal ▸ hfits, htotal.le, rfl⟩, fun heq => hne ?_⟩)
  rw [← low_nibble_toNat, ← heq]
  rfl

theorem checkFirstByte_flipBit_ok (hfirst : 8 ≤ p) :
    checkFirstByte (flipBit (enc h) p).length (byteAt (flipBit (enc h) p) 0) = .ok () := by
  obtain ⟨-, hheader, -⟩ := header_within_enc hw
  have hhlw := h.headerLengthWords.isLt
  rw [checkFirstByte_ok_iff, flipBit_length, byteAt_flipBit_other _ (by omega), byteAt_enc_zero_toNat hw]
  omega

theorem dec_flipBit_total_set (hlow : 16 ≤ p) (hhigh : p < 32) (hbit : wireBit (enc h) p = false) :
    dec (flipBit (enc h) p) = .error ⟨.bufferTooShort, 2⟩ := by
  have hlen := enc_length_of_wf hw
  have hflip := flipped_totalLength h hlow hhigh
  have hpos := Nat.two_pow_pos (31 - p)
  rw [hbit, flipped_false] at hflip
  refine dec_of_checkTotal_error (twenty_le_flipBit_length h) (checkFirstByte_flipBit_ok hw (by omega))
    (checkTotal_of_short ?_)
  rw [flipBit_length]
  omega

theorem dec_flipBit_total_below (hlow : 16 ≤ p) (hhigh : p < 32) (hbit : wireBit (enc h) p = true)
    (hless : h.totalLength.toNat - 2 ^ (31 - p) < 4 * h.headerLengthWords.toNat) :
    dec (flipBit (enc h) p) = .error ⟨.lengthMismatch, 2⟩ := by
  obtain ⟨hmin, -, hlen⟩ := header_within_enc hw
  obtain ⟨hvalue, hlt⟩ := u16_flipBit_total_cleared h hlow hhigh hbit
  have hfirst : (byteAt (flipBit (enc h) p) 0).toNat % 16 = h.headerLengthWords.toNat := by
    have hhlw := h.headerLengthWords.isLt
    rw [byteAt_flipBit_other _ (by omega), byteAt_enc_zero_toNat hw]
    omega
  refine dec_of_checkTotal_error (twenty_le_flipBit_length h) (checkFirstByte_flipBit_ok hw (by omega))
    (checkTotal_of_total ?_ (by omega) (by omega))
  rw [flipBit_length]
  omega

theorem dec_flipBit_total_shorter (hv : verify h = true) (hlow : 16 ≤ p) (hhigh : p < 32)
    (hbit : wireBit (enc h) p = true)
    (hmax : 4 * h.headerLengthWords.toNat ≤ h.totalLength.toNat - 2 ^ (31 - p)) :
    ∃ k : Header, dec (flipBit (enc h) p) = .ok k ∧ k.payload.length < h.payload.length ∧ verify k = false := by
  obtain ⟨hmin, -, -⟩ := header_within_enc hw
  obtain ⟨hvalue, hlt⟩ := u16_flipBit_total_cleared h hlow hhigh hbit
  obtain ⟨k, hd, hhlw, htotal, -⟩ := dec_flipBit_ok hw (by omega) (hvalue ▸ hmax) hlt.le
  refine ⟨k, hd, ?shorter, verify_flipBit_header hw hv (by omega) hd hhlw⟩
  case shorter =>
    obtain ⟨-, -, hh, -⟩ := (Header.wf_iff h).mp hw
    obtain ⟨-, -, hk, -⟩ := (Header.wf_iff k).mp (dec_ok_wf hd)
    rw [Header.length, htotal, hhlw] at hk
    rw [Header.length] at hh
    omega

theorem dec_flipBit_payload (hp : 32 * h.headerLengthWords.toNat ≤ p) :
    ∃ k : Header, dec (flipBit (enc h) p) = .ok k ∧ verify k = verify h := by
  obtain ⟨hmin, -, -⟩ := header_within_enc hw
  obtain ⟨k, hd, hhlw, hstored⟩ := dec_flipBit_outside hw (p := p) (by omega) (by omega)
  have hlength : k.length = h.length := by rw [Header.length, hhlw, Header.length]
  have hbelow : h.length ≤ p / 8 := by
    unfold Header.length
    omega
  refine ⟨k, hd, verify_congr ?header ?checksum⟩
  case header => rw [headerBytes_of_dec_ok hd, hlength, take_flipBit_below _ hbelow, Header.headerBytes]
  case checksum => rw [hstored, u16_flipBit_other _ (by omega) (by omega), u16_enc_checksum]

end

/-- Settles O31: the flipped packet has the header length and the total length of the wire form. -/
theorem flippedHeaderBitFailsVerification : Obligations.FlippedHeaderBitFailsVerification := by
  unfold Obligations.FlippedHeaderBitFailsVerification
  intro h p hw hv hfirst hp hlen
  obtain ⟨k, hd, hhlw, -⟩ := dec_flipBit_outside hw hfirst hlen
  exact ⟨k, hd, verify_flipBit_header hw hv hp hd hhlw⟩

/-- Settles O32: the rows of R174 (b) for byte 0, the total length and the payload. A flipped header length never leads to
`LengthMismatch` 2, for the total length is still that of the whole packet. -/
theorem flippedVersionOrLengthBitOutcomes : Obligations.FlippedVersionOrLengthBitOutcomes := by
  unfold Obligations.FlippedVersionOrLengthBitOutcomes
  intro h p hw hv
  refine ⟨dec_flipBit_version hw, fun hlow hhigh r hr => ?headerLength, dec_flipBit_total_set hw,
    fun hlow hhigh hbit => ⟨dec_flipBit_total_below hw hlow hhigh hbit,
      dec_flipBit_total_shorter hw hv hlow hhigh hbit⟩, fun hp _ => ?payload⟩
  case headerLength =>
    subst hr
    rcases dec_flipBit_hlw hw hlow hhigh with hshort | hfew | hok
    · exact .inl hshort
    · exact .inr (.inl hfew)
    · exact .inr (.inr (.inr hok))
  case payload =>
    obtain ⟨k, hd, hsame⟩ := dec_flipBit_payload hw hp
    exact ⟨k, hd, hsame.trans hv⟩

end Sys2Proof.Machine
end

section
/-! SUPPORT. BINSTR and the bit-string stream (45_binstr.md R180 to R185; O33 to O37): one equation per kind of read of
BS_CHAR, sequences of reads by induction on their number, and the bits of a byte as a binary numeral. -/

namespace Sys2Proof.Machine

open Sys2Proof.Rules

/-- Settles O33: the end of BINSTR with a record in the slot. -/
theorem binstrOpensTheStreamAtZero : Obligations.BinstrOpensTheStreamAtZero := by
  unfold Obligations.BinstrOpensTheStreamAtZero
  exact fun s h hs => exec_binstr_of_record hs

/-! ### The characters of the bit string (R180) -/

/-- '0' and '1' are consecutive codes, so the character is '0' plus the bit. -/
theorem bitChar_toNat (b : List Byte) (p : Nat) :
    (bitChar b p).toNat = 0x30 + (wireBit b p).toNat := by
  unfold bitChar
  cases wireBit b p <;> rfl

theorem bitChar_zero_or_one (b : List Byte) (p : Nat) : bitChar b p = 0x30#8 ∨ bitChar b p = 0x31#8 := by
  unfold bitChar
  cases wireBit b p
  · exact .inl rfl
  · exact .inr rfl

theorem mem_binstr {h : Header} {c : Byte} (hc : c ∈ binstr h) : c = 0x30#8 ∨ c = 0x31#8 := by
  obtain ⟨p, -, rfl⟩ := List.mem_map.mp hc
  exact bitChar_zero_or_one (enc h) p

theorem byteAt_binstr {h : Header} {p : Nat} (hp : p < 8 * (enc h).length) :
    byteAt (binstr h) p = bitChar (enc h) p := by
  rw [byteAt_eq_getElem (by rwa [binstr_length])]
  simp [binstr]

/-! ### One read of BS_CHAR (R183) -/

section
variable {fw : Nat} {s : State} {r : Header}

theorem streaming_of_closed (ha : s.bsActive = false) : s.streaming = none :=
  Option.eq_none_iff_forall_ne_some.mpr fun r hr => by
    obtain ⟨hact, -, -⟩ := streaming_eq_some_iff.mp hr
    exact Bool.noConfusion (ha.symm.trans hact)

theorem streaming_of_end (hs : s.hdr = some r) (hp : 8 * r.totalLength.toNat ≤ s.bsPos.toNat) : s.streaming = none :=
  Option.eq_none_iff_forall_ne_some.mpr fun r' hr' => by
    obtain ⟨-, hs', hlt⟩ := streaming_eq_some_iff.mp hr'
    cases hs.symm.trans hs'
    omega

/-- With no stream open or at its end the read returns 0x00 and changes nothing. -/
theorem hostAct_read_bsChar_of_none (h : s.streaming = none) :
    hostAct fw (.read Reg.bsChar.number) s = .next (s.give 0) := by
  rw [hostAct_read_bsChar, State.afterBsChar, State.bsChar, h]
  rfl

/-- Before the end the read returns the character under the cursor and moves past it. -/
theorem hostAct_read_bsChar_of_some (h : s.streaming = some r) :
    hostAct fw (.read Reg.bsChar.number) s =
      .next (State.give { s with bsPos := s.bsPos + 1 } (bitChar (enc r) s.bsPos.toNat).toNat) := by
  rw [hostAct_read_bsChar, State.afterBsChar, State.bsChar, h]

/-- A string has at most 8 * 65535 characters, so the 19-bit cursor does not wrap before its end. -/
theorem bsPos_succ_toNat (hp : s.bsPos.toNat < 8 * r.totalLength.toNat) :
    (s.bsPos + 1).toNat = s.bsPos.toNat + 1 := by
  have hmax : r.totalLength.toNat < 65536 := r.totalLength.isLt
  rw [BitVec.toNat_add, show (1 : BitVec 19).toNat = 1 from rfl]
  omega

end

/-- A read that goes on, of any register but BS_CHAR, returns a value and changes nothing else (20_memory.md R67). -/
theorem hostAct_read_other {fw n : Nat} {s t : State} (hn : n ≠ Reg.bsChar.number)
    (h : hostAct fw (.read n) s = .next t) : ∃ v, t = s.give v := by
  rcases hostAct_next (a := .read n) (fun _ => nofun) nofun h with
    ⟨r, v, hread, -⟩ | ⟨q, i, b, hread, -⟩ | ⟨r, v, hread, -, ht⟩ | ⟨q, i, v, hread, -⟩
  · cases hread
  · cases hread
  · have hr : r ≠ .bsChar := by
      rintro rfl
      cases hread
      exact hn rfl
    rw [if_neg hr] at ht
    exact ⟨v, ht⟩
  · cases hread

/-- Settles O34: the three cases of the read of BS_CHAR, and the reads of the other registers. -/
theorem bsCharReadReturnsTheNextCharacter : Obligations.BsCharReadReturnsTheNextCharacter := by
  unfold Obligations.BsCharReadReturnsTheNextCharacter
  refine ⟨fun fw s hi => ⟨fun ha => hostAct_read_bsChar_of_none (streaming_of_closed ha), fun ha => ?_⟩,
    fun fw n s t hn h => hostAct_read_other hn h⟩
  obtain ⟨-, hopen, -⟩ := hi
  obtain ⟨r, hs, -⟩ := hopen ha
  refine ⟨r, hs, fun hend => hostAct_read_bsChar_of_none (streaming_of_end hs hend), fun hp => ?_⟩
  refine ⟨_, hostAct_read_bsChar_of_some (streaming_eq_some_iff.mpr ⟨ha, hs, hp⟩), bsPos_succ_toNat hp, ?_, rfl⟩
  rw [give_returned, bitChar_toNat, wireBit, Bool.toNat, Bool.cond_eq_ite]

/-! ### Sequences of reads of BS_CHAR (R185) -/

section
variable {fw : Nat}

/-- Reads that stay inside the string return its characters from the cursor on, the latest first. -/
theorem runActions_bsCharReads {s : State} {r : Header} {n : Nat} (ha : s.bsActive = true) (hs : s.hdr = some r)
    (hn : s.bsPos.toNat + n ≤ 8 * r.totalLength.toNat) :
    ∃ pos : BitVec 19, pos.toNat = s.bsPos.toNat + n ∧
      runActions fw (List.replicate n (.read Reg.bsChar.number)) s = .next { s with
        bsPos := pos
        returned := (((List.range' s.bsPos.toNat n).map (bitChar (enc r))).map BitVec.toNat).reverse ++ s.returned } := by
  induction n generalizing s with
  | zero => exact ⟨s.bsPos, rfl, rfl⟩
  | succ n ih =>
    have hp : s.bsPos.toNat < 8 * r.totalLength.toNat := by omega
    have hsucc := bsPos_succ_toNat hp
    obtain ⟨pos, hpos, hrun⟩ := ih
      (s := State.give { s with bsPos := s.bsPos + 1 } (bitChar (enc r) s.bsPos.toNat).toNat) ha hs (by
        rw [give_bsPos, hsucc]
        omega)
    rw [give_bsPos, hsucc] at hpos hrun
    refine ⟨pos, by omega, ?_⟩
    rw [List.replicate_succ, runActions, hostAct_read_bsChar_of_some (streaming_eq_some_iff.mpr ⟨ha, hs, hp⟩)]
    simp only [hrun, List.range'_succ, List.map_cons, List.reverse_cons, List.append_assoc]
    rfl

/-- With no stream open or at its end every read returns 0x00. -/
theorem runActions_bsCharReads_of_none {s : State} (k : Nat) (h : s.streaming = none) :
    runActions fw (List.replicate k (.read Reg.bsChar.number)) s =
      .next { s with returned := List.replicate k 0 ++ s.returned } := by
  induction k generalizing s with
  | zero => rfl
  | succ k ih =>
    have hrest : (s.give 0).streaming = none := h
    rw [List.replicate_succ, runActions, hostAct_read_bsChar_of_none h]
    simp only [ih hrest, give_returned, List.replicate_succ' (n := k) (a := 0), List.append_assoc]
    rfl

/-- From position 0 the reads return the whole string, and after it 0x00. -/
theorem runActions_bsCharReads_from_start {k : Nat} {s : State} {r : Header} (ha : s.bsActive = true)
    (hs : s.hdr = some r) (hw : r.wf = true) (hp : s.bsPos = 0) :
    ∃ pos : BitVec 19, pos.toNat = 8 * r.totalLength.toNat ∧
      runActions fw (List.replicate (8 * r.totalLength.toNat + k) (.read Reg.bsChar.number)) s = .next { s with
        bsPos := pos
        returned := List.replicate k 0 ++ ((binstr r).map BitVec.toNat).reverse ++ s.returned } := by
  have hstart : s.bsPos.toNat = 0 := congrArg BitVec.toNat hp
  obtain ⟨pos, hpos, hchars⟩ := runActions_bsCharReads (fw := fw) (n := 8 * r.totalLength.toNat) ha hs (by omega)
  rw [hstart, Nat.zero_add] at hpos
  rw [hstart, ← List.range_eq_range', ← enc_length_of_wf hw, ← binstr, enc_length_of_wf hw] at hchars
  refine ⟨pos, hpos, ?_⟩
  rw [List.replicate_add, runActions_append_of_next hchars, List.append_assoc]
  exact runActions_bsCharReads_of_none k (streaming_of_end hs hpos.ge)

end

/-- Settles O35: BINSTR puts the cursor at 0, from where the reads return the whole string. -/
theorem theStreamYieldsEveryBitThenZero : Obligations.TheStreamYieldsEveryBitThenZero := by
  unfold Obligations.TheStreamYieldsEveryBitThenZero
  intro fw k s h hs hw
  obtain ⟨pos, hpos, hrun⟩ := runActions_bsCharReads_from_start (fw := fw) (k := k)
    (s := complete { s with bsActive := true, bsPos := 0 }) rfl hs hw rfl
  refine ⟨_, Eq.trans ?run hrun, rfl, ?length, fun c hc => mem_binstr hc, rfl, hpos, hs⟩
  case run => rw [runActions, hostAct_cmdAction, exec_binstr_of_record hs]
  case length => rw [binstr_length, enc_length_of_wf hw]

/-! ### Eight characters as a binary numeral (R185 (b)) -/

/-- The `n` highest bits of a byte, read as a binary numeral, are the byte shifted right by the others. -/
theorem foldl_high_bits (b : Byte) (n : Nat) (hn : n ≤ 8) :
    ((List.range n).map (fun j => (b.getLsbD (7 - j)).toNat)).foldl (fun v d => v * 2 + d) 0 = b.toNat / 2 ^ (8 - n) := by
  induction n with
  | zero => exact (Nat.div_eq_of_lt b.isLt).symm
  | succ n ih =>
    have hbit : (b.getLsbD (7 - n)).toNat = b.toNat / 2 ^ (7 - n) % 2 := Nat.toNat_testBit ..
    have hhigh : b.toNat / 2 ^ (8 - n) = b.toNat / 2 ^ (7 - n) / 2 := by
      rw [Nat.div_div_eq_div_mul, ← Nat.pow_succ, show (7 - n).succ = 8 - n by omega]
    rw [List.range_succ, List.map_append, List.foldl_append, ih (by omega), List.map_singleton, List.foldl_cons,
      List.foldl_nil, hbit, hhigh, show 8 - (n + 1) = 7 - n by omega]
    omega

/-- Character `8k + j` of the bit string, less the code of '0', is bit `7 - j` of byte `k`. -/
theorem binstr_digit {h : Header} {k j : Nat} (hk : k < (enc h).length) (hj : j < 8) :
    (byteAt (binstr h) (8 * k + j)).toNat - 0x30 = ((byteAt (enc h) k).getLsbD (7 - j)).toNat := by
  have hbit : wireBit (enc h) (8 * k + j) = (byteAt (enc h) k).getLsbD (7 - j) := by
    rw [wireBit, show (8 * k + j) / 8 = k by omega, show (8 * k + j) % 8 = j by omega]
  rw [byteAt_binstr (by omega), bitChar_toNat, hbit, Nat.add_sub_cancel_left]

/-- Settles O36: the digits are the bits of the byte, highest first, and together they are the byte. -/
theorem theBitStringSpellsTheEncodedBytes : Obligations.TheBitStringSpellsTheEncodedBytes := by
  unfold Obligations.TheBitStringSpellsTheEncodedBytes
  intro h k hk
  rw [List.map_congr_left fun j hj => binstr_digit hk (List.mem_range.mp hj), foldl_high_bits _ 8 le_rfl]
  exact Nat.div_one _

/-! ### What closes, restarts or leaves the stream (R184) -/

section
variable {fw : Nat} {i : Instr} {s t : State}

theorem exec_closes_stream (h : exec i s = .next t)
    (hi : i = .construct ∨ i = .decode ∨ (i = .recompute ∧ s.hdr ≠ none)) :
    t.bsActive = false ∧ t.bsPos = 0 := by
  rcases exec_next_cases h with ⟨-, k, n, rfl⟩ | ⟨-, r, -, rfl⟩ | ⟨⟨hconstruct, hdecode⟩, hs, -⟩ | ⟨r, -, hr⟩
  · exact ⟨rfl, rfl⟩
  · exact ⟨rfl, rfl⟩
  · simp [hconstruct, hdecode, hs] at hi
  · rcases hr with ⟨rfl, -⟩ | ⟨rfl, -⟩ | ⟨rfl, -⟩ | ⟨rfl, -⟩ | ⟨-, rfl⟩
    · simp at hi
    · simp at hi
    · simp at hi
    · simp at hi
    · exact ⟨rfl, rfl⟩

theorem exec_binstr_restarts_stream (h : exec .binstr s = .next t) (hs : s.hdr ≠ none) :
    t.bsActive = true ∧ t.bsPos = 0 := by
  obtain ⟨r, hs⟩ := Option.ne_none_iff_exists'.mp hs
  rw [exec_binstr_of_record hs] at h
  cases h
  exact ⟨rfl, rfl⟩

theorem exec_keeps_stream (h : exec i s = .next t)
    (hi : i = .checksum ∨ i = .encode ∨ i = .verify ∨ (NeedsHeader i ∧ s.hdr = none)) :
    t.bsActive = s.bsActive ∧ t.bsPos = s.bsPos := by
  rcases exec_next_cases h with ⟨hslot, -⟩ | ⟨hslot, -⟩ | ⟨-, -, rfl⟩ | ⟨r, hs, hr⟩
  · rcases hslot with rfl | rfl <;> simp [NeedsHeader] at hi
  · rcases hslot with rfl | rfl <;> simp [NeedsHeader] at hi
  · exact ⟨rfl, rfl⟩
  · rcases hr with ⟨-, rfl⟩ | ⟨-, rfl⟩ | ⟨-, rfl⟩ | ⟨rfl, -⟩ | ⟨rfl, -⟩
    · exact ⟨rfl, rfl⟩
    · exact ⟨rfl, rfl⟩
    · exact ⟨rfl, rfl⟩
    · simp [hs] at hi
    · simp [hs] at hi

/-- Of the host's accesses only the read of BS_CHAR moves the cursor (R183). -/
theorem hostAct_keeps_stream {a : HostAction} (hc : ¬ IssuesCommand a) (hr : a ≠ .reset)
    (ha : a ≠ .read Reg.bsChar.number) (h : hostAct fw a s = .next t) :
    t.bsActive = s.bsActive ∧ t.bsPos = s.bsPos := by
  rcases hostAct_next (not_exists.mp hc) hr h with
    ⟨r, v, -, -, -, rfl⟩ | ⟨q, j, b, -, -, -, -, rfl⟩ | ⟨r, v, rfl, -, rfl⟩ | ⟨q, j, v, -, rfl⟩
  · exact ⟨storeReg_bsActive .., storeReg_bsPos ..⟩
  · exact ⟨storeByte_bsActive .., storeByte_bsPos ..⟩
  · rw [if_neg fun hbs => ha (by rw [hbs])]
    exact ⟨rfl, rfl⟩
  · exact ⟨rfl, rfl⟩

end

/-- Settles O37: the commands by what they do to the stream, then an illegal word and the host's accesses. -/
theorem whatClosesTheStream : Obligations.WhatClosesTheStream := by
  unfold Obligations.WhatClosesTheStream
  refine ⟨fun i s t h => ⟨exec_closes_stream h, ?_, exec_keeps_stream h⟩, fun c s t e hd h => ?_,
    fun fw a s t hc hr ha h => hostAct_keeps_stream hc hr ha h⟩
  · rintro ⟨rfl, hs⟩
    exact exec_binstr_restarts_stream h hs
  · rw [issueCommand_of_illegal hd] at h
    cases h
    exact ⟨rfl, rfl⟩

end Sys2Proof.Machine
end

section
/-! SUPPORT. What a command that ends in an error leaves (60_exceptions.md R191, R192, R195, R198; O41 to O43): the state it
leaves, the error it can record, and the same command issued again from there. -/

namespace Sys2Proof.Machine

open Sys2Proof.Rules

/-! ### The state after an error (R195) -/

section
variable {i : Instr} {s t : State} {k : ErrorKind}

theorem needsHeader_iff : NeedsHeader i ↔ ¬ (i = .construct ∨ i = .decode) := by
  cases i <;> simp [NeedsHeader]

/-- CONSTRUCT and DECODE fail into the emptied state; any other command fails on an empty slot only, with NoHeader(0). -/
theorem exec_error_cases (h : exec i s = .next t) (hk : t.err = some k) :
    ((i = .construct ∨ i = .decode) ∧ t = emptied s k t.errInfo) ∨
    (NeedsHeader i ∧ s.hdr = none ∧ k = .noHeader ∧ t = { s with err := some .noHeader, errInfo := 0 }) := by
  rcases exec_next_cases h with ⟨hi, k', n, rfl⟩ | ⟨-, r, -, rfl⟩ | ⟨hi, hs, rfl⟩ | ⟨r, -, hr⟩
  · cases hk
    exact .inl ⟨hi, rfl⟩
  · cases hk
  · cases hk
    exact .inr ⟨needsHeader_iff.mpr (not_or.mpr hi), hs, rfl, rfl⟩
  · -- a header command with a record succeeds
    rcases hr with ⟨-, rfl⟩ | ⟨-, rfl⟩ | ⟨-, rfl⟩ | ⟨-, rfl⟩ | ⟨-, rfl⟩ <;> cases hk

theorem exec_success_errInfo (h : exec i s = .next t) (hk : t.err = none) : t.errInfo = 0 := by
  rcases exec_next_cases h with ⟨-, k, n, rfl⟩ | ⟨-, r, -, rfl⟩ | ⟨-, -, rfl⟩ | ⟨r, -, hr⟩
  · cases hk
  · rfl
  · rfl
  · rcases hr with ⟨-, rfl⟩ | ⟨-, rfl⟩ | ⟨-, rfl⟩ | ⟨-, rfl⟩ | ⟨-, rfl⟩ <;> rfl

end

/-- Settles O41: a legal word by the command it runs, an illegal word by its one outcome. -/
theorem anErrorChangesTheStatusOnly : Obligations.AnErrorChangesTheStatusOnly := by
  unfold Obligations.AnErrorChangesTheStatusOnly
  intro c s t k h hk
  cases hd : decode c with
  | ok i =>
    rw [issueCommand_of_decode hd] at h
    simp only [Except.ok.injEq]
    rcases exec_error_cases h hk with ⟨hi, ht⟩ | ⟨hi, -, rfl, rfl⟩
    · exact ⟨fun _ => ht, fun hni => absurd hi hni⟩
    · exact ⟨fun hi' => absurd hi' (needsHeader_iff.mp hi), fun _ => rfl⟩
  | error e =>
    rw [issueCommand_of_illegal hd] at h
    cases h
    cases hk
    exact ⟨fun hi => by simp at hi, fun _ => rfl⟩

/-! ### The errors of each command (R191, R192) -/

section
variable {c : Instr} {s t : State} {k : ErrorKind} {e : CodecError}

theorem constructError_mayRaise (h : ConstructError s e) : MayRaise .construct e.kind e.info.toNat := by
  rcases h with hlen | ⟨-, hranges⟩ | ⟨-, -, rfl | rfl⟩
  · obtain ⟨-, rfl⟩ := checkLength_error hlen
    exact rfl
  · obtain ⟨hkind, hinfo⟩ := checkRanges_error hranges
    rw [hkind]
    exact hinfo
  · exact .inl rfl
  · exact .inr rfl

/-- The version reported is the nibble read, which is not 4 (R192). -/
theorem checkFirstByte_error_mayRaise {n : Nat} {b : Byte} (h : checkFirstByte n b = .error e) :
    MayRaise .decode e.kind e.info.toNat := by
  simp only [checkFirstByte] at h
  split at h
  next hver =>
    cases h
    have hlt : (b.extractLsb' 4 4).toNat < 16 := (b.extractLsb' 4 4).isLt
    have hne : (b.extractLsb' 4 4).toNat ≠ 4 := fun h4 => hver (BitVec.eq_of_toNat_eq h4)
    simp only [MayRaise, BitVec.toNat_setWidth]
    omega
  next =>
    split at h
    · cases h
      exact .inr (.inl rfl)
    · cases h

theorem checkTotal_error_mayRaise {n : Nat} {b : Byte} {tl : Word16} (h : checkTotal n b tl = .error e) :
    MayRaise .decode e.kind e.info.toNat := by
  simp only [checkTotal] at h
  split at h
  · cases h
    exact .inr (.inr rfl)
  · split at h
    · cases h
      exact .inl rfl
    · split at h
      · cases h
        exact .inr rfl
      · cases h

/-- A CONSTRUCT or DECODE that records an error was given that error. -/
theorem fillSlot_recorded {r : Except CodecError Header} (hc : c = .construct ∨ c = .decode)
    (h : fillSlot c r s = .next t) (hk : t.err = some k) : r = .error ⟨k, t.errInfo⟩ := by
  cases r with
  | ok r =>
    rw [fillSlot_ok] at h
    cases h
    cases hk
  | error e =>
    rw [fillSlot_error hc] at h
    cases h
    cases hk
    rfl

theorem execConstruct_error_mayRaise (h : execConstruct s = .next t) (hk : t.err = some k) :
    MayRaise .construct k t.errInfo.toNat := by
  rcases execConstruct_cases s with ⟨e, he, hx⟩ | ⟨src, dst, p, -, -, -, -, -, hx⟩ | ⟨sp, j, hx⟩
  · cases fillSlot_recorded (.inl rfl) (hx ▸ h) hk
    exact constructError_mayRaise he
  · cases fillSlot_recorded (.inl rfl) (hx ▸ h) hk
  · cases hx ▸ h

theorem execDecode_error_mayRaise (h : execDecode s = .next t) (hk : t.err = some k) :
    MayRaise .decode k t.errInfo.toNat := by
  rcases execDecode_cases s with ⟨e, hx, he⟩ | ⟨b0, b2, b3, p, -, -, -, -, -, -, -, hx⟩ | ⟨j, hx⟩
  · obtain rfl : e = ⟨k, t.errInfo⟩ := Except.error.inj (fillSlot_recorded (.inr rfl) (hx ▸ h) hk)
    rcases he with ⟨-, he⟩ | ⟨b0, -, -, hfirst | ⟨b2, b3, -, -, -, htotal⟩⟩
    · obtain ⟨rfl, hinfo⟩ := CodecError.mk.inj he
      exact .inl (congrArg BitVec.toNat hinfo)
    · exact checkFirstByte_error_mayRaise hfirst
    · exact checkTotal_error_mayRaise htotal
  · cases fillSlot_recorded (.inr rfl) (hx ▸ h) hk
  · cases hx ▸ h

theorem noHeader_mayRaise (hc : NeedsHeader c) : MayRaise c .noHeader 0 := by
  rcases hc with rfl | rfl | rfl | rfl | rfl <;> rfl

end

/-- Settles O42: CONSTRUCT and DECODE by the checks that give their errors; a header command has one error. -/
theorem errorKindsAndInformationOfEachCommand : Obligations.ErrorKindsAndInformationOfEachCommand := by
  unfold Obligations.ErrorKindsAndInformationOfEachCommand
  refine fun i s t h => ⟨fun k hk => ?_, exec_success_errInfo h⟩
  rcases exec_error_cases h hk with ⟨rfl | rfl, -⟩ | ⟨hi, -, rfl, rfl⟩
  · exact execConstruct_error_mayRaise h hk
  · exact execDecode_error_mayRaise h hk
  · exact noHeader_mayRaise hi

/-! ### A failed command again (R198) -/

section
variable {i : Instr} {s t : State} {k : ErrorKind} {n : Byte}

/-- An outcome that emptied the slot of `s`, and an alike one of the emptied state: the second changes nothing. -/
theorem FillAlike.again {o o' : Host.Outcome State Fault Refusal} (hi : i = .construct ∨ i = .decode)
    (ho : FillAlike i s (emptied s k n) o o') (h : o = .next (emptied s k n)) : o' = .next (emptied s k n) := by
  rcases ho with ⟨r, rfl, rfl⟩ | ⟨x, rfl, -⟩
  · rw [fillSlot_recorded hi h rfl]
    exact fillSlot_error hi ..
  · cases h

/-- The emptied state holds the operands of the failed CONSTRUCT or DECODE, so the command takes the same course. -/
theorem exec_again_of_emptied (hi : i = .construct ∨ i = .decode) (h : exec i s = .next (emptied s k n)) :
    exec i (emptied s k n) = .next (emptied s k n) := by
  rcases hi with rfl | rfl
  · have halike : FillAlike .construct s (emptied s k n) (execConstruct s) (execConstruct (emptied s k n)) :=
      execConstruct_alike rfl rfl rfl rfl (fun _ _ => rfl) (fun _ _ => rfl) fun _ _ => rfl
    exact halike.again (.inl rfl) h
  · have halike : FillAlike .decode s (emptied s k n) (execDecode s) (execDecode (emptied s k n)) :=
      execDecode_alike rfl fun _ _ => rfl
    exact halike.again (.inr rfl) h

theorem exec_again_of_error (h : exec i s = .next t) (hk : t.err = some k) : exec i t = .next t := by
  rcases exec_error_cases h hk with ⟨hi, ht⟩ | ⟨hi, hs, -, rfl⟩
  · rw [ht] at h ⊢
    exact exec_again_of_emptied hi h
  · exact exec_of_no_record hi hs

end

/-- Settles O43: a legal word by the command it runs, an illegal word by its one outcome. -/
theorem aFailedCommandFailsAgain : Obligations.AFailedCommandFailsAgain := by
  unfold Obligations.AFailedCommandFailsAgain
  intro c s t k h hk
  cases hd : decode c with
  | ok i =>
    rw [issueCommand_of_decode hd] at h ⊢
    exact exec_again_of_error h hk
  | error e =>
    rw [issueCommand_of_illegal hd] at h
    cases h
    exact issueCommand_of_illegal hd

end Sys2Proof.Machine
end

section
/-! SUPPORT. The reset event (70_reset_and_hazards.md R220): what it leaves, and that a second one changes nothing (O56). -/

namespace Sys2Proof.Machine

/-- Reset completes from every state, for every FW (R220). -/
@[simp] theorem hostAct_reset (fw : Nat) (s : State) : hostAct fw .reset s = .next (applyReset s) := rfl

/-- Reset keeps of a state only the script and the returned values, and those it leaves as they are (log 9). -/
@[simp] theorem applyReset_applyReset (s : State) : applyReset (applyReset s) = applyReset s := by
  rw [applyReset, applyReset_script, applyReset_returned, ← applyReset]

/-- Settles O56: reset always leaves `applyReset s`, which a second reset maps to itself. -/
theorem resetPutsEveryElementAtItsResetValue : Obligations.ResetPutsEveryElementAtItsResetValue := by
  unfold Obligations.ResetPutsEveryElementAtItsResetValue
  refine fun fw s => ⟨hostAct_reset fw s, fun t ht => ?_⟩
  obtain rfl : applyReset s = t := by simpa using ht
  rw [hostAct_reset, applyReset_applyReset]

end Sys2Proof.Machine
end
